-- ==== Sys2Proof/Word.lean ====
section
/-!
DEFINITION. The word widths of the engine and the plain data its operands are made of.
Widths are rule R5's table: a byte has 8 bits, a timestamp and a port word 32, a run length,
a stream position and the overflow counter 16.
-/

namespace Sys2Proof

/-- One element of a byte ring (`BYTE_W`, R5). -/
abbrev Byte := BitVec 8

/-- A run length, a stream position, an overflow count, a response value (`LEN_W`, `POS_W`, `OVF_W`, R5). -/
abbrev Half := BitVec 16

/-- A command, response or payload word, and a timestamp (`WORD_W`, `TIME_W`, R5). -/
abbrev Word := BitVec 32

/-- What a channel does with a received byte when its RX ring is not empty (R27, R144). -/
inductive DrainPolicy where
  /-- Policy bit 0: read the data register on every receive-ready event (R145). -/
  | alwaysDrain
  /-- Policy bit 1: read the data register only while the RX ring is empty (R147). -/
  | drainWhenEmpty
  deriving DecidableEq, Repr, Inhabited

/-- The options an `INIT` command carries besides its channel (R84, R87). -/
structure InitOptions where
  policy : DrainPolicy
  tsEnable : Bool
  marker : Byte
  baud : Word
  charLength : BitVec 4
  parity : BitVec 3
  stopBits : BitVec 2
  deriving DecidableEq, Repr

/-- A TimestampRecord (R29), kept as a structure of its three fields as that rule allows. -/
structure TimestampRecord where
  timestamp : Word
  length : Half
  streamPosition : Half
  deriving DecidableEq, Repr, Inhabited

/-- Which of a channel's three rings an internal operation names (R26). -/
inductive RingName where
  | rx
  | tx
  | ts
  deriving DecidableEq, Repr

/-- A ring of a channel together with one element of its element type: the operands of `PUSH` (R113). -/
inductive PushItem where
  | rx (b : Byte)
  | tx (b : Byte)
  | ts (r : TimestampRecord)
  deriving DecidableEq, Repr

/-- A ring of a channel together with a list of its elements: the operands of `PUSH_BULK` (R115). -/
inductive BulkItems where
  | rx (bs : List Byte)
  | tx (bs : List Byte)
  | ts (rs : List TimestampRecord)
  deriving DecidableEq, Repr

end Sys2Proof
end

