-- ==== Sys2Proof/Config.lean ====
section
/-!
DEFINITION. What an implementation fixes (the build parameters of R5) and what the environment
answers under no law the engine knows (the draws of R11 and R35).

The build parameters are arguments of the model: `N_CH` is the length of the channel table a state
holds, each capacity stands in its ring, and `F_CLK` is a field of the state, so a statement about
every state is a statement about every choice of them. `Config.reference` is the one instance that
`State.reset` is built from (assumption 1, DESIGN CHOICE).
-/

namespace Sys2Proof

/-- The three results `Drv.configure` can have (R133). -/
inductive CfgResult where
  | ok
  | rejected
  | failed
  deriving DecidableEq, Repr, Inhabited

/-- The capacities of one channel's three rings (R5: `C_RX[i]`, `C_TX[i]`, `C_TS[i]`). -/
structure Capacities where
  rx : Nat
  tx : Nat
  ts : Nat
  deriving DecidableEq, Repr

/-- The build parameters of an engine (R5): one `Capacities` per channel, so `N_CH` is the length of
`channels`, and the `clock_freq` it passes to `configure`. -/
structure Params where
  channels : List Capacities
  fClk : Word
  deriving DecidableEq, Repr

/-- `N_CH` is at most 256 (R5). -/
abbrev Config.maxChannels : Nat := 256

/-- A ring capacity is at most 32767 (R5). -/
abbrev Config.maxCapacity : Nat := 32767

/-- R5's range of one capacity. -/
abbrev Config.CapacityOk (c : Nat) : Prop := 1 ≤ c ∧ c ≤ Config.maxCapacity

/-- R5's ranges for all the build parameters. -/
abbrev Params.Ok (p : Params) : Prop :=
  (1 ≤ p.channels.length ∧ p.channels.length ≤ Config.maxChannels) ∧
    ∀ c ∈ p.channels, Config.CapacityOk c.rx ∧ Config.CapacityOk c.tx ∧ Config.CapacityOk c.ts

/-- The instance `State.reset` is built from: the reference platform's 8 channels (R5) with the
capacities of the spec's test vectors (assumption 1, DESIGN CHOICE). -/
def Config.reference : Params where
  channels := List.replicate 8 { rx := 8, tx := 16, ts := 4 }
  fClk := 0

/-- The bitmask the environment answers to the `k`-th `read_status_flags` of instance `i` beyond the
draws a state lists (R142, I1; assumption 3). -/
opaque Config.freeFlags (i k : Nat) : Word

/-- The byte the environment answers to the `k`-th `read_data_register` of instance `i` beyond the
draws a state lists (R35, I2; assumption 3). -/
opaque Config.freeData (i k : Nat) : Byte

/-- The result the environment answers to the `k`-th `configure` of instance `i` beyond the draws a
state lists (R133, I4; assumption 3). -/
opaque Config.freeConfigure (i k : Nat) : CfgResult

/-- The value `Time.now()` answers to the `k`-th time read made for channel `i` beyond the draws a
state lists (R228, I5; assumption 3). -/
opaque Config.freeTime (i k : Nat) : Word

end Sys2Proof
end

