-- ==== Sys2Proof/Machine/Operands.lean ====
section
/-!
DEFINITION. Operand assembly: the fields of a header word (R81), of an `INIT` payload (R84, R87), the
packing of bytes into payload words (R54, R90), and the mask words of `TS_AVAILABLE_ALL` (R93). No
operand is signed, scaled or scattered (R85).
-/

namespace Sys2Proof

/-- Header bits 31:24 (R81). -/
def headerOp (h : Word) : Byte := h.extractLsb' 24 8

/-- Header bits 23:16 (R81). -/
def headerCh (h : Word) : Byte := h.extractLsb' 16 8

/-- Header bits 15:0 (R81). -/
def headerArg (h : Word) : Half := h.extractLsb' 0 16

/-- The header word with the given fields (R81; a response header has the same layout, R92). -/
def headerWord (op ch : Byte) (arg : Half) : Word := (op ++ ch ++ arg : BitVec 32)

/-- `policy` as its bit (R27). -/
def policyBit : DrainPolicy → BitVec 1
  | .alwaysDrain => 0
  | .drainWhenEmpty => 1

/-- The drain policy a bit selects (R27). -/
def policyOfBit (b : BitVec 1) : DrainPolicy := if b = 0 then .alwaysDrain else .drainWhenEmpty

/-- Reserved `arg[7:2]` of `INIT` (R84). -/
def initArgReserved (arg : Half) : BitVec 6 := arg.extractLsb' 2 6

/-- Reserved bit 7 of `INIT` payload word 2 (R87). -/
def initWordReserved7 (w : Word) : BitVec 1 := w.extractLsb' 7 1

/-- Reserved bits 31:10 of `INIT` payload word 2 (R87). -/
def initWordReserved31 (w : Word) : BitVec 22 := w.extractLsb' 10 22

/-- The options of an `INIT`: `arg` (R84), payload word 1 and payload word 2 (R87). -/
def initOptions (arg : Half) (baud word2 : Word) : InitOptions where
  policy := policyOfBit (arg.extractLsb' 0 1)
  tsEnable := arg.getLsbD 1
  marker := arg.extractLsb' 8 8
  baud := baud
  charLength := word2.extractLsb' 0 4
  parity := word2.extractLsb' 4 3
  stopBits := word2.extractLsb' 8 2

/-- The `arg` field that carries an `INIT`'s `policy`, `ts_enable` and `marker` (R84). -/
def initArg (o : InitOptions) : Half :=
  (o.marker ++ 0#6 ++ BitVec.ofBool o.tsEnable ++ policyBit o.policy : BitVec 16)

/-- Payload word 2 of an `INIT` (R87). -/
def initWord2 (o : InitOptions) : Word :=
  (0#22 ++ o.stopBits ++ 0#1 ++ o.parity ++ o.charLength : BitVec 32)

/-- `ceil(n / 4)`, the number of payload words of `n` bytes (R90). -/
def payloadWords (n : Nat) : Nat := (n + 3) / 4

/-- One payload word from its four bytes, the first in the least significant byte (R54). -/
def wordOfBytes (b0 b1 b2 b3 : Byte) : Word := (b3 ++ b2 ++ b1 ++ b0 : BitVec 32)

/-- The four bytes of a payload word, byte `8*j+7 : 8*j` at place `j` (R54). -/
def bytesOfWord (w : Word) : List Byte :=
  [w.extractLsb' 0 8, w.extractLsb' 8 8, w.extractLsb' 16 8, w.extractLsb' 24 8]

/-- `pack` of R90: four bytes to a word, little-endian, the unused high bytes of the last word zero. -/
def packBytes : List Byte → List Word
  | [] => []
  | [b0] => [wordOfBytes b0 0 0 0]
  | [b0, b1] => [wordOfBytes b0 b1 0 0]
  | [b0, b1, b2] => [wordOfBytes b0 b1 b2 0]
  | b0 :: b1 :: b2 :: b3 :: rest => wordOfBytes b0 b1 b2 b3 :: packBytes rest

/-- The first `n` bytes carried by payload words (R90); what the last word holds beyond them is ignored. -/
def unpackBytes (n : Nat) (ws : List Word) : List Byte := (ws.flatMap bytesOfWord).take n

/-- A list of bits as a number, the first bit the least significant (R7). -/
def natOfBits : List Bool → Nat
  | [] => 0
  | b :: rest => b.toNat + 2 * natOfBits rest

/-- `ceil(N_CH / 32)` mask words: bit `i mod 32` of word `i div 32` is bit `i` of the list, other bits 0 (R93). -/
def maskWords (bits : List Bool) : List Word :=
  (List.range ((bits.length + 31) / 32)).map fun k =>
    BitVec.ofNat 32 (natOfBits ((bits.drop (32 * k)).take 32))

end Sys2Proof
end

