-- ==== Sys2Proof/Syntax.lean ====
section
/-!
DEFINITION. The operations of the engine, one constructor per row of spec/opcode_table.json (R6):
the ten commands of the command port (R86), the one event of the event port (R97), and the thirteen
internal operations (R101). A channel operand is the 8-bit identifier the ports carry (R81, R97).
-/

namespace Sys2Proof

/-- An operation of the engine (R6, R86, R97, R101). -/
inductive Instr where
  /-- `INIT` (R134). -/
  | init (ch : Byte) (opts : InitOptions)
  /-- `SEND_BYTE` (R172). -/
  | sendByte (ch : Byte) (b : Byte)
  /-- `SEND_BYTES` (R173); the count `n` is the length of the list. -/
  | sendBytes (ch : Byte) (bytes : List Byte)
  /-- `AVAILABLE` (R174). -/
  | available (ch : Byte)
  /-- `READ_BYTE` (R175). -/
  | readByte (ch : Byte)
  /-- `READ_BYTES` (R176). -/
  | readBytes (ch : Byte) (n : Half)
  /-- `TS_AVAILABLE` (R177). -/
  | tsAvailable (ch : Byte)
  /-- `TS_AVAILABLE_ALL` (R178). -/
  | tsAvailableAll
  /-- `TS_READ` (R179). -/
  | tsRead (ch : Byte)
  /-- `STATUS` (R180). -/
  | status (ch : Byte)
  /-- The event `DISPATCH` (R140). -/
  | dispatch (evtId : Byte)
  /-- `TX_PUMP` (R143). -/
  | txPump (ch : Byte)
  /-- `RX_PUMP` under ALWAYS_DRAIN (R145). -/
  | rxPumpAlwaysDrain (ch : Byte)
  /-- `RX_PUMP` under DRAIN_WHEN_EMPTY (R147). -/
  | rxPumpDrainWhenEmpty (ch : Byte)
  /-- `OVERFLOW` (R146). -/
  | overflow (ch : Byte)
  /-- `OBSERVE` (R161). -/
  | observe (ch : Byte) (b : Byte)
  /-- `ARM_TX` (R171). -/
  | armTx (ch : Byte)
  /-- `PUSH` (R113). -/
  | push (ch : Byte) (item : PushItem)
  /-- `POP` (R114). -/
  | pop (ch : Byte) (ring : RingName)
  /-- `PUSH_BULK` (R115). -/
  | pushBulk (ch : Byte) (items : BulkItems)
  /-- `POP_BULK` (R116). -/
  | popBulk (ch : Byte) (ring : RingName) (n : Nat)
  /-- `OCCUPIED_COUNT` (R117). -/
  | occupiedCount (ch : Byte) (ring : RingName)
  /-- `IS_EMPTY` (R118). -/
  | isEmpty (ch : Byte) (ring : RingName)
  /-- `PEEK` (R119). -/
  | peek (ch : Byte) (ring : RingName)
  deriving DecidableEq, Repr

end Sys2Proof
end

