-- ==== Sys2Proof/WellFormed.lean ====
section
/-!
DEFINITION. Which operations are well formed on an engine of `nCh` channels: a command is well
formed iff it is legal (R95) and its operands fit their fields (R84), an event always is (R97), and
an internal operation is iff its channel exists and some actor may use it on that ring (R110, R226).
-/

namespace Sys2Proof

/-- The operation names a channel of an engine of `nCh` channels (R85, R95 c). -/
def channelOk (nCh : Nat) (ch : Byte) : Bool := decide (ch.toNat < nCh)

/-- A byte count fits the 16-bit `arg` field (R84). -/
def countOk (n : Nat) : Bool := decide (n < 2 ^ 16)

/-- The operations that arrive at a port: the ten commands and the event (R101). -/
def Instr.requestable : Instr → Bool
  | .init _ _ | .sendByte _ _ | .sendBytes _ _ | .available _ | .readByte _ | .readBytes _ _
  | .tsAvailable _ | .tsAvailableAll | .tsRead _ | .status _ | .dispatch _ => true
  | .txPump _ | .rxPumpAlwaysDrain _ | .rxPumpDrainWhenEmpty _ | .overflow _ | .observe _ _
  | .armTx _ | .push _ _ | .pop _ _ | .pushBulk _ _ | .popBulk _ _ _ | .occupiedCount _ _
  | .isEmpty _ _ | .peek _ _ => false

/-- The ten operations of the command port (R86). -/
def Instr.isCommand : Instr → Bool
  | .init _ _ | .sendByte _ _ | .sendBytes _ _ | .available _ | .readByte _ | .readBytes _ _
  | .tsAvailable _ | .tsAvailableAll | .tsRead _ | .status _ => true
  | .dispatch _ | .txPump _ | .rxPumpAlwaysDrain _ | .rxPumpDrainWhenEmpty _ | .overflow _
  | .observe _ _ | .armTx _ | .push _ _ | .pop _ _ | .pushBulk _ _ | .popBulk _ _ _
  | .occupiedCount _ _ | .isEmpty _ _ | .peek _ _ => false

/-- The channel an operation names; `TS_AVAILABLE_ALL` names none (R84, R178). -/
def Instr.channel : Instr → Option Byte
  | .init ch _ | .sendByte ch _ | .sendBytes ch _ | .available ch | .readByte ch | .readBytes ch _
  | .tsAvailable ch | .tsRead ch | .status ch | .dispatch ch | .txPump ch | .rxPumpAlwaysDrain ch
  | .rxPumpDrainWhenEmpty ch | .overflow ch | .observe ch _ | .armTx ch | .push ch _ | .pop ch _
  | .pushBulk ch _ | .popBulk ch _ _ | .occupiedCount ch _ | .isEmpty ch _ | .peek ch _ => some ch
  | .tsAvailableAll => none

/-- The rings on which some actor may use the ring primitive (R226): `PUSH_BULK` on `tx` only,
`POP_BULK` on `rx` only, `PEEK` on `ts` only; the others on every ring. -/
def Instr.ringOk : Instr → Bool
  | .pushBulk _ (.tx _) => true
  | .pushBulk _ (.rx _) | .pushBulk _ (.ts _) => false
  | .popBulk _ .rx _ => true
  | .popBulk _ .tx _ | .popBulk _ .ts _ => false
  | .peek _ .ts => true
  | .peek _ .rx | .peek _ .tx => false
  | .init _ _ | .sendByte _ _ | .sendBytes _ _ | .available _ | .readByte _ | .readBytes _ _
  | .tsAvailable _ | .tsAvailableAll | .tsRead _ | .status _ | .dispatch _ | .txPump _
  | .rxPumpAlwaysDrain _ | .rxPumpDrainWhenEmpty _ | .overflow _ | .observe _ _ | .armTx _
  | .push _ _ | .pop _ _ | .occupiedCount _ _ | .isEmpty _ _ => true

/-- Every byte count an operation carries fits the field it comes from (R84). -/
def Instr.countsOk : Instr → Bool
  | .sendBytes _ bytes => countOk bytes.length
  | .pushBulk _ (.rx bs) => countOk bs.length
  | .pushBulk _ (.tx bs) => countOk bs.length
  | .pushBulk _ (.ts rs) => countOk rs.length
  | .popBulk _ _ n => countOk n
  | .init _ _ | .sendByte _ _ | .available _ | .readByte _ | .readBytes _ _ | .tsAvailable _
  | .tsAvailableAll | .tsRead _ | .status _ | .dispatch _ | .txPump _ | .rxPumpAlwaysDrain _
  | .rxPumpDrainWhenEmpty _ | .overflow _ | .observe _ _ | .armTx _ | .push _ _ | .pop _ _
  | .occupiedCount _ _ | .isEmpty _ _ | .peek _ _ => true

/-- The channel check: an event may name any identity (R97), every other operation that names a
channel must name one of the table (R95 c). -/
def Instr.namesChannel (nCh : Nat) : Instr → Bool
  | .dispatch _ => true
  | i => i.channel.all (channelOk nCh)

/-- Well-formedness on an engine of `nCh` channels. -/
def Instr.wf (nCh : Nat) (i : Instr) : Bool := i.namesChannel nCh && i.countsOk && i.ringOk

end Sys2Proof
end

