-- ==== Sys2Proof/Decode.lean ====
section
/-!
DEFINITION. Decoding and encoding of the two input ports: commands as words (R80 to R87, R90) and the
event as eight bits (R97). Decoding is total (R102): every complete command is one of the ten legal
forms or rejected by name; internal operations have no encoding (R101).
-/

namespace Sys2Proof

/-- Why words do not decode. The first two are about framing (R83); the next three are the three kinds
of illegal command (R95); the last is R101's. -/
inductive DecodeError where
  /-- Fewer words than the command's length (R83): not a command yet. -/
  | incomplete
  /-- More words than the command's length (R83): not one command. -/
  | trailingWords
  /-- R95 (a): `op` is not one of 0x01 to 0x0A. -/
  | unknownOp
  /-- R95 (b): a reserved field of R84 or R87 is non-zero. -/
  | reservedField
  /-- R95 (c): `op` is not 0x08 and `ch >= N_CH`. -/
  | noSuchChannel
  /-- R101: an internal operation cannot be requested at any port. -/
  | noEncoding
  deriving DecidableEq, Repr

/-- What is presented at a port to request an operation: the words of a command on the command port
(R80), an identity on the event port (R97), or nothing, for an internal operation (R101). -/
inductive Encoded where
  | command (words : List Word)
  | event (id : Byte)
  | internal
  deriving DecidableEq, Repr

/-- The number of words of a command, from its header alone (R83). -/
def commandLength (h : Word) : Nat :=
  match (headerOp h).toNat with
  | 1 => 3
  | 3 => 1 + payloadWords (headerArg h).toNat
  | _ => 1

/-- Legality check (c) of R95. -/
def onChannel (nCh : Nat) (ch : Byte) (i : Instr) : Except DecodeError Instr :=
  if channelOk nCh ch then .ok i else .error .noSuchChannel

/-- Legality checks (b) and (c) of R95 for a command whose `arg` is reserved (R84). -/
def noArg (nCh : Nat) (ch : Byte) (arg : Half) (i : Instr) : Except DecodeError Instr :=
  if arg = 0 then onChannel nCh ch i else .error .reservedField

/-- `INIT` from its fields (R84, R87). -/
def decodeInit (nCh : Nat) (ch : Byte) (arg : Half) (baud word2 : Word) : Except DecodeError Instr :=
  if initArgReserved arg = 0 ∧ initWordReserved7 word2 = 0 ∧ initWordReserved31 word2 = 0 then
    onChannel nCh ch (.init ch (initOptions arg baud word2))
  else .error .reservedField

/-- `SEND_BYTE` from its fields (R84): `arg[15:8]` is reserved. -/
def decodeSendByte (nCh : Nat) (ch : Byte) (arg : Half) : Except DecodeError Instr :=
  if arg.extractLsb' 8 8 = 0 then onChannel nCh ch (.sendByte ch (arg.extractLsb' 0 8))
  else .error .reservedField

/-- `TS_AVAILABLE_ALL` from its fields (R84): `arg` and `ch` are reserved. -/
def decodeTsAvailableAll (ch : Byte) (arg : Half) : Except DecodeError Instr :=
  if arg = 0 ∧ ch = 0 then .ok .tsAvailableAll else .error .reservedField

/-- The opcode map (R86), from the header's fields and the payload words. -/
def decodeFields (nCh : Nat) (op ch : Byte) (arg : Half) (payload : List Word) :
    Except DecodeError Instr :=
  match op.toNat with
  | 1 => decodeInit nCh ch arg (payload.getD 0 0) (payload.getD 1 0)
  | 2 => decodeSendByte nCh ch arg
  | 3 => onChannel nCh ch (.sendBytes ch (unpackBytes arg.toNat payload))
  | 4 => noArg nCh ch arg (.available ch)
  | 5 => noArg nCh ch arg (.readByte ch)
  | 6 => onChannel nCh ch (.readBytes ch arg)
  | 7 => noArg nCh ch arg (.tsAvailable ch)
  | 8 => decodeTsAvailableAll ch arg
  | 9 => noArg nCh ch arg (.tsRead ch)
  | 10 => noArg nCh ch arg (.status ch)
  | _ => .error .unknownOp

/-- The words of one command, decoded on an engine of `nCh` channels (R83, R95, R102). -/
def decodeCommand (nCh : Nat) (words : List Word) : Except DecodeError Instr :=
  match words with
  | [] => .error .incomplete
  | h :: payload =>
    if payload.length + 1 < commandLength h then .error .incomplete
    else if commandLength h < payload.length + 1 then .error .trailingWords
    else decodeFields nCh (headerOp h) (headerCh h) (headerArg h) payload

/-- The operation an identity on the event port requests; every identity is accepted (R97). -/
def decodeEvent (id : Byte) : Instr := .dispatch id

/-- Both ports' decoder. -/
def decode (nCh : Nat) : Encoded → Except DecodeError Instr
  | .command words => decodeCommand nCh words
  | .event id => .ok (decodeEvent id)
  | .internal => .error .noEncoding

/-- A command of one word (format H, R82). -/
def encodeHeader (op : Nat) (ch : Byte) (arg : Half) : Encoded :=
  .command [headerWord (BitVec.ofNat 8 op) ch arg]

/-- What is presented to request an operation: formats HI, H, HB and EVT (R82), the opcodes of R86;
`SEND_BYTES` pads its last word with zeros (R98). -/
def encode : Instr → Encoded
  | .init ch o => .command [headerWord 0x01 ch (initArg o), o.baud, initWord2 o]
  | .sendByte ch b => encodeHeader 0x02 ch (0#8 ++ b : BitVec 16)
  | .sendBytes ch bytes =>
      .command (headerWord 0x03 ch (BitVec.ofNat 16 bytes.length) :: packBytes bytes)
  | .available ch => encodeHeader 0x04 ch 0
  | .readByte ch => encodeHeader 0x05 ch 0
  | .readBytes ch n => encodeHeader 0x06 ch n
  | .tsAvailable ch => encodeHeader 0x07 ch 0
  | .tsAvailableAll => encodeHeader 0x08 0 0
  | .tsRead ch => encodeHeader 0x09 ch 0
  | .status ch => encodeHeader 0x0A ch 0
  | .dispatch id => .event id
  | .txPump _ | .rxPumpAlwaysDrain _ | .rxPumpDrainWhenEmpty _ | .overflow _ | .observe _ _
  | .armTx _ | .push _ _ | .pop _ _ | .pushBulk _ _ | .popBulk _ _ _ | .occupiedCount _ _
  | .isEmpty _ _ | .peek _ _ => .internal

/-- What the host presents for an opcode-table row of `nbits` bits whose bits are `w`: eight bits are
an identity on the event port (R97), more are the words of a command, bit 0 of `w` the least
significant bit of the header, as many words as the header's length (R83). -/
def tableEncoded (nbits w : Nat) : Encoded :=
  if nbits = 0 then .internal
  else if nbits ≤ 8 then .event (BitVec.ofNat 8 w)
  else
    .command ((List.range (commandLength (BitVec.ofNat 32 w))).map fun k =>
      BitVec.ofNat 32 (w >>> (32 * k)))

/-- The instruction the decoder reads from an opcode-table row's bits, on the reference engine. -/
def decodeTableWord (nbits w : Nat) : Option Instr :=
  match decode Config.reference.channels.length (tableEncoded nbits w) with
  | .ok i => some i
  | .error _ => none

end Sys2Proof
end

