-- ==== Sys2Proof/Machine/State.lean ====
section
/-!
DEFINITION. The state of the engine: the ChannelTable (R20, R27), the two outputs (R36), the words of a
command that is still arriving (R80), and the inputs the environment has yet to give (R22, R35, R62).
Everything is plain data. The build parameters (R5) are part of it: `N_CH` is the length of `ch`,
each capacity is its ring's `cap`, `F_CLK` is `fClk`; no operation changes them.
-/

namespace Sys2Proof.Machine

/-- A RingBuffer (R23): its fixed capacity `C`, its two cursors in `[0, 2C)`, its `C` slots. -/
structure RingBuffer (α : Type) where
  cap : Nat
  rd : Nat
  wr : Nat
  store : List α
  deriving DecidableEq, Repr

/-- Lifecycle status (R28). -/
inductive Lifecycle where
  | uninitialized
  | ready
  | initError
  | fault
  deriving DecidableEq, Repr

/-- A channel record, the fields of R27. -/
structure Channel where
  status : Lifecycle
  policy : DrainPolicy
  tsEnable : Bool
  marker : Byte
  txArmed : Bool
  rx : RingBuffer Byte
  tx : RingBuffer Byte
  ts : RingBuffer TimestampRecord
  runLength : Half
  runStart : Word
  rxOvf : Bool
  ovfCount : Half
  tsOvf : Bool
  deriving DecidableEq, Repr

/-- A call on the Peripheral Driver with its arguments and its result (R229). -/
inductive DrvCall where
  | configure (baud : Word) (charLength : BitVec 4) (parity : BitVec 3) (stopBits : BitVec 2)
      (clockFreq : Word) (result : CfgResult)
  | enableReceiveInterrupt
  | enableTransmitPath
  | enableTransmitInterrupt
  | disableTransmitInterrupt
  | disableTransmitPath
  | readStatusFlags (result : Word)
  | readDataRegister (result : Byte)
  | writeDataRegister (b : Byte)
  | irqClearPending
  | irqEnable
  deriving DecidableEq, Repr

/-- An entry of the driver trace (R36): the physical instance and the call. -/
structure DrvEntry where
  inst : Nat
  call : DrvCall
  deriving DecidableEq, Repr

/-- The outcome kinds a response's code field can name (R200). -/
inductive Code where
  | ok
  | initError
  | bufferFull
  | bufferEmpty
  | underflow
  /-- Allotted a number, carried by no response (R203). -/
  | overflow
  | timestampUnavailable
  | notReady
  | illegalCommand
  deriving DecidableEq, Repr

/-- One response (R92): the fields of its header word and its payload words. -/
structure Response where
  code : Code
  ch : Byte
  value : Half
  payload : List Word
  deriving DecidableEq, Repr

/-- One transaction at an input port: a word on the command port (R80) or an identity on the event
port (R97). -/
inductive PortItem where
  | word (w : Word)
  | event (id : Byte)
  deriving DecidableEq, Repr

/-- The answers the environment will give to one kind of draw: the given ones in order, and how many
draws of the kind have been made (R11, R35; assumption 3). -/
structure DrawStream (α : Type) where
  given : List α
  taken : Nat
  deriving DecidableEq, Repr

/-- The draws of one physical instance: R35's four kinds of environment value. -/
structure Draws where
  flags : DrawStream Word
  data : DrawStream Byte
  config : DrawStream CfgResult
  time : DrawStream Word
  deriving DecidableEq, Repr

/-- What an internal operation executed by itself returned (R113 to R119; assumption 7). -/
inductive OpReturn where
  | bool (b : Bool)
  | count (n : Nat)
  | byte (r : Option Byte)
  | bytes (r : Option (List Byte))
  | record (r : Option TimestampRecord)
  | records (r : Option (List TimestampRecord))
  deriving DecidableEq, Repr

/-- The whole state. -/
structure State where
  /-- The build parameter `F_CLK` (R5, R133). -/
  fClk : Word
  /-- The ChannelTable (R20). -/
  ch : List Channel
  /-- The words of a command whose last word has not arrived (R80; assumption 5). -/
  cmdBuf : List Word
  /-- The response stream, oldest first (R36 a). -/
  responses : List Response
  /-- The driver trace, oldest first (R36 b). -/
  drvTrace : List DrvEntry
  /-- MODEL: what arrives at the two input ports, in arrival order (R22, R62; assumption 4). -/
  stimulus : List PortItem
  /-- MODEL: the environment's draws, one record per instance (R35; assumption 3). -/
  env : List Draws
  /-- MODEL: the returned values of internal operations executed by themselves, oldest first; read by
  no operation (R21; assumption 7). -/
  opReturns : List OpReturn
  deriving DecidableEq, Repr

/-- Why a step can stop the machine. No transaction at a port leads to one: the engine has no trap
(R12, R204). -/
inductive Fault where
  /-- Raised by an internal operation executed by itself on a channel that the table does not have:
  `ch[i]` exists for `i < N_CH` only (R9). Safe: the model stops where the spec has no effect to give
  (assumption 8). -/
  | noSuchChannel (ch : Byte)
  deriving DecidableEq, Repr

/-- Why a step can have no meaning. -/
inductive Refusal where
  /-- Raised by an arm of `exec` whose instruction has no meaning yet. Safe. -/
  | notModelled (mnemonic : String)
  deriving DecidableEq, Repr

/-- An empty ring of capacity `cap` with both cursors 0 (R37) and every slot `x`, a content the spec
leaves unspecified (assumption 2). -/
def RingBuffer.fresh {α : Type} (cap : Nat) (x : α) : RingBuffer α where
  cap := cap
  rd := 0
  wr := 0
  store := List.replicate cap x

/-- A channel record right after reset (R37). -/
def Channel.fresh (c : Capacities) : Channel where
  status := .uninitialized
  policy := .alwaysDrain
  tsEnable := false
  marker := 0
  txArmed := false
  rx := .fresh c.rx 0
  tx := .fresh c.tx 0
  ts := .fresh c.ts { timestamp := 0, length := 0, streamPosition := 0 }
  runLength := 0
  runStart := 0
  rxOvf := false
  ovfCount := 0
  tsOvf := false

/-- A draw stream with nothing given and nothing drawn. -/
def DrawStream.fresh {α : Type} : DrawStream α where
  given := []
  taken := 0

/-- The draws of an instance with nothing given. -/
def Draws.fresh : Draws where
  flags := .fresh
  data := .fresh
  config := .fresh
  time := .fresh

/-- The engine of the given build parameters right after reset (R37, R240): no driver call, no
response, nothing arriving. -/
def State.resetFor (p : Params) : State where
  fClk := p.fClk
  ch := p.channels.map Channel.fresh
  cmdBuf := []
  responses := []
  drvTrace := []
  stimulus := []
  env := p.channels.map fun _ => Draws.fresh
  opReturns := []

/-- The machine right after reset, for the reference build parameters (assumption 1). -/
def State.reset : State := State.resetFor Config.reference

end Sys2Proof.Machine
end

