-- ==== Sys2Proof/Machine/Flags.lean ====
section
/-!
DEFINITION. Flag and status computations: the codes of the lifecycle (R28) and of the outcome kinds
(R200), the saturating increment (R8), the status word and the overflow word of `STATUS` (R31), and
the response header (R92). The engine has no condition codes (R30).
-/

namespace Sys2Proof.Machine

/-- The 2-bit encoding of the lifecycle status (R28). -/
def lifecycleBits : Lifecycle → BitVec 2
  | .uninitialized => 0
  | .ready => 1
  | .initError => 2
  | .fault => 3

/-- The status code of an outcome kind (R200). -/
def codeByte : Code → Byte
  | .ok => 0x00
  | .initError => 0x01
  | .bufferFull => 0x02
  | .bufferEmpty => 0x03
  | .underflow => 0x04
  | .overflow => 0x05
  | .timestampUnavailable => 0x06
  | .notReady => 0x07
  | .illegalCommand => 0x08

/-- `sat_inc_16` (R8). -/
def satInc (v : Half) : Half := if v.toNat < 2 ^ 16 - 1 then v + 1 else v

/-- The status word `SW(i)` (R31, R180). -/
def statusWord (c : Channel) : Half :=
  (c.marker ++ 0#1 ++ BitVec.ofBool c.tsOvf ++ BitVec.ofBool c.rxOvf ++ BitVec.ofBool c.txArmed ++
    BitVec.ofBool c.tsEnable ++ policyBit c.policy ++ lifecycleBits c.status : BitVec 16)

/-- The overflow word `OC(i)` (R31). -/
def overflowWord (c : Channel) : Word := c.ovfCount.setWidth 32

/-- A `bool` in a response's value field (R13, R92). -/
def boolValue (b : Bool) : Half := if b then 1 else 0

/-- The header word of a response (R92). -/
def responseHeader (r : Response) : Word := (codeByte r.code ++ r.ch ++ r.value : BitVec 32)

/-- A response as the words of the response port (R92). -/
def responseWords (r : Response) : List Word := responseHeader r :: r.payload

/-- `f[0]`, `RX_READY` (R142). -/
def rxReady (f : Word) : Bool := f.getLsbD 0

/-- `f[1]`, `TX_READY` (R142). -/
def txReady (f : Word) : Bool := f.getLsbD 1

end Sys2Proof.Machine
end

