-- ==== Sys2Proof/Machine/Ops.lean ====
section
/-!
DEFINITION. The named operations over the state: the ring primitives (R113 to R119), the environment's
draws and driver calls (R11, R230), access to one channel record (R9), and how a command ends
(R12, R92): `respond` and, in place of taking an exception, `raise`, which transfers control nowhere
(R204). An event has no return operation (R222).
-/

namespace Sys2Proof.Machine

/-! ### The ring primitives -/

/-- `occ(q) = (q.wr - q.rd) mod 2C` with the non-negative `mod` (R8, R24). -/
def RingBuffer.occ {α : Type} (q : RingBuffer α) : Nat :=
  (((q.wr : Int) - (q.rd : Int)) % ((2 * q.cap : Nat) : Int)).toNat

/-- `free(q) = C - occ(q)` (R24). -/
def RingBuffer.free {α : Type} (q : RingBuffer α) : Nat := q.cap - q.occ

/-- `IS_EMPTY` (R118). -/
def RingBuffer.empty {α : Type} (q : RingBuffer α) : Bool := decide (q.wr = q.rd)

/-- The storage index of a cursor value (R23, R111). -/
def RingBuffer.slot {α : Type} (q : RingBuffer α) (c : Nat) : Nat := c % q.cap

/-- A cursor advanced by `n` elements, modulo `2C` (R111, R112 a). -/
def RingBuffer.advance {α : Type} (q : RingBuffer α) (c n : Nat) : Nat := (c + n) % (2 * q.cap)

/-- The element in the slot a cursor value points at (R10). Every index formed from a well-formed ring
is in range; outside it the slot reads as the type's default (assumption 12). -/
def RingBuffer.readSlot {α : Type} [Inhabited α] (q : RingBuffer α) (c : Nat) : α :=
  q.store.getD (q.slot c) default

/-- `MemRead(q@c, n)` (R10). -/
def RingBuffer.memRead {α : Type} [Inhabited α] (q : RingBuffer α) (c n : Nat) : List α :=
  (List.range n).map fun j => q.readSlot (c + j)

/-- The store with one element written to the slot a cursor value points at (R10). -/
def RingBuffer.writeSlot {α : Type} (q : RingBuffer α) (c : Nat) (x : α) : RingBuffer α :=
  { q with store := q.store.set (q.slot c) x }

/-- `MemWrite(q@c, n, v)` with `n = len(v)` (R10). -/
def RingBuffer.memWrite {α : Type} (q : RingBuffer α) (c : Nat) : List α → RingBuffer α
  | [] => q
  | x :: v => (q.writeSlot c x).memWrite (c + 1) v

/-- The ring's abstract value, oldest first (R25). -/
def RingBuffer.contents {α : Type} [Inhabited α] (q : RingBuffer α) : List α := q.memRead q.rd q.occ

/-- Publish the write cursor after `n` elements (R64). -/
def RingBuffer.publishWr {α : Type} (q : RingBuffer α) (n : Nat) : RingBuffer α :=
  { q with wr := q.advance q.wr n }

/-- Publish the read cursor after `n` elements (R65). -/
def RingBuffer.publishRd {α : Type} (q : RingBuffer α) (n : Nat) : RingBuffer α :=
  { q with rd := q.advance q.rd n }

/-- `PUSH` (R113). -/
def RingBuffer.push {α : Type} (q : RingBuffer α) (x : α) : RingBuffer α × Bool :=
  if q.occ = q.cap then (q, false) else ((q.memWrite q.wr [x]).publishWr 1, true)

/-- `POP` (R114). -/
def RingBuffer.pop {α : Type} [Inhabited α] (q : RingBuffer α) : RingBuffer α × Option α :=
  if q.empty then (q, none) else (q.publishRd 1, some (q.readSlot q.rd))

/-- `PUSH_BULK` (R115). -/
def RingBuffer.pushBulk {α : Type} (q : RingBuffer α) (v : List α) : RingBuffer α × Bool :=
  if q.cap - q.occ < v.length then (q, false)
  else ((q.memWrite q.wr v).publishWr v.length, true)

/-- `POP_BULK` (R116). -/
def RingBuffer.popBulk {α : Type} [Inhabited α] (q : RingBuffer α) (n : Nat) :
    RingBuffer α × Option (List α) :=
  if q.occ < n then (q, none) else (q.publishRd n, some (q.memRead q.rd n))

/-- `PEEK` (R119). -/
def RingBuffer.peek {α : Type} [Inhabited α] (q : RingBuffer α) : Option α :=
  if q.empty then none else some (q.readSlot q.rd)

/-- A ring with both cursors at 0 and its slots as they are (R134). -/
def RingBuffer.restart {α : Type} (q : RingBuffer α) : RingBuffer α := { q with rd := 0, wr := 0 }

/-! ### Draws and driver calls -/

/-- One draw: the next given answer, or, past the given ones, the environment's free value for that
draw (R11; assumption 3). -/
def DrawStream.draw {α : Type} (d : DrawStream α) (free : Nat → α) : α × DrawStream α :=
  match d.given with
  | [] => (free d.taken, { given := [], taken := d.taken + 1 })
  | x :: rest => (x, { given := rest, taken := d.taken + 1 })

/-- What an operation on channel `inst` can read and write (R38): the channel's record, the draws of its
instance, and the driver calls it has made so far, oldest first. -/
structure Lane where
  inst : Nat
  chan : Channel
  draws : Draws
  calls : List DrvCall
  deriving DecidableEq, Repr

/-- `Drv.f(i, args)` without a result: the call is appended to the trace (R230). -/
def Lane.call (l : Lane) (d : DrvCall) : Lane := { l with calls := l.calls ++ [d] }

/-- `Drv.read_status_flags(i)` (R142). -/
def Lane.readStatusFlags (l : Lane) : Word × Lane :=
  let (f, d) := l.draws.flags.draw (Config.freeFlags l.inst)
  (f, { l with draws := { l.draws with flags := d } }.call (.readStatusFlags f))

/-- `Drv.read_data_register(i)` (R58). -/
def Lane.readDataRegister (l : Lane) : Byte × Lane :=
  let (b, d) := l.draws.data.draw (Config.freeData l.inst)
  (b, { l with draws := { l.draws with data := d } }.call (.readDataRegister b))

/-- `Drv.configure(i, baud, char_length, parity, stop_bits, clock_freq)` (R133). -/
def Lane.configure (l : Lane) (o : InitOptions) (fClk : Word) : CfgResult × Lane :=
  let (r, d) := l.draws.config.draw (Config.freeConfigure l.inst)
  (r, { l with draws := { l.draws with config := d } }.call
    (.configure o.baud o.charLength o.parity o.stopBits fClk r))

/-- `Time.now()`, not a driver call and so not in the trace (R11, R228). -/
def Lane.timeNow (l : Lane) : Word × Lane :=
  let (t, d) := l.draws.time.draw (Config.freeTime l.inst)
  (t, { l with draws := { l.draws with time := d } })

/-! ### One channel of the table -/

/-- The lane of channel `i`; none where the table has no such channel (R9). -/
def State.lane (s : State) (i : Nat) : Option Lane :=
  (s.ch[i]?).map fun c => { inst := i, chan := c, draws := s.env.getD i .fresh, calls := [] }

/-- The state after an operation on one channel: its record and draws replaced, its driver calls
appended to the trace (R36, R38). -/
def State.commit (s : State) (l : Lane) : State :=
  { s with
    ch := s.ch.set l.inst l.chan
    env := s.env.set l.inst l.draws
    drvTrace := s.drvTrace ++ l.calls.map fun d => { inst := l.inst, call := d } }

/-! ### How a command ends -/

/-- The result of a command (R92): code, value, payload. -/
structure Reply where
  code : Code
  value : Half
  payload : List Word
  deriving DecidableEq, Repr

/-- `respond(OK, value, payload)` (R12). -/
def Reply.done (value : Half) (payload : List Word) : Reply where
  code := .ok
  value := value
  payload := payload

/-- `raise E` (R12, R201): the code of the error kind, value 0, no payload. -/
def Reply.raise (e : Code) : Reply where
  code := e
  value := 0
  payload := []

/-- Emit the one response of a command, its `ch` field echoed (R92). -/
def State.respond (s : State) (ch : Byte) (r : Reply) : State :=
  { s with responses := s.responses ++
      [{ code := r.code, ch := ch, value := r.value, payload := r.payload }] }

/-- `raise IllegalCommand`: no state change, no driver call (R95). -/
def State.raiseIllegal (s : State) (ch : Byte) : State := s.respond ch (.raise .illegalCommand)

/-- A command on one channel: legality check (c) of R95, then the body on the channel's lane, then
its response. -/
def State.command (s : State) (ch : Byte) (body : Lane → Lane × Reply) : State :=
  match s.lane ch.toNat with
  | none => s.raiseIllegal ch
  | some l => (s.commit (body l).1).respond ch (body l).2

/-- The second check of the prologue (R132, R170). -/
def whenReady (body : Lane → Lane × Reply) (l : Lane) : Lane × Reply :=
  if l.chan.status = .ready then body l else (l, .raise .notReady)

/-- An internal operation executed by itself on a channel (R101; assumptions 7 and 8). -/
def State.internal (s : State) (ch : Byte) (body : Lane → Lane) : Host.Outcome State Fault Refusal :=
  match s.lane ch.toNat with
  | none => .fault (.noSuchChannel ch)
  | some l => .next (s.commit (body l))

/-- An internal operation with a returned value, executed by itself (R101; assumptions 7 and 8). -/
def State.internalReturning (s : State) (ch : Byte) (body : Lane → Lane × OpReturn) :
    Host.Outcome State Fault Refusal :=
  match s.lane ch.toNat with
  | none => .fault (.noSuchChannel ch)
  | some l => .next { s.commit (body l).1 with opReturns := s.opReturns ++ [(body l).2] }

end Sys2Proof.Machine
end

