-- ==== Sys2Proof/Machine/Arrival.lean ====
section
/-!
DEFINITION. What arrives at the input ports, in place of an instruction fetch (R22, R75): the words of a
command collect until the last one is there (R80, R83), and an event that arrives in between is served
first (R62).
-/

namespace Sys2Proof.Machine

/-- At most `k` command words from the head of the arrivals, and the arrivals after them; an event
ends the words. -/
def takeWords : Nat → List PortItem → List Word × List PortItem
  | 0, items => ([], items)
  | _ + 1, [] => ([], [])
  | _ + 1, .event id :: rest => ([], .event id :: rest)
  | k + 1, .word w :: rest => (w :: (takeWords k rest).1, (takeWords k rest).2)

/-- The words hold a whole command (R80, R83). -/
def commandComplete : List Word → Bool
  | [] => false
  | h :: payload => decide (commandLength h ≤ payload.length + 1)

/-- How many more words the command in the buffer needs: one, its header, where there is none yet. -/
def wordsMissing : List Word → Nat
  | [] => 1
  | h :: payload => commandLength h - (payload.length + 1)

/-- The buffer and the arrivals after taking in the words the buffered command still lacks. -/
def takeMissing (buf : List Word) (items : List PortItem) : List Word × List PortItem :=
  (buf ++ (takeWords (wordsMissing buf) items).1, (takeWords (wordsMissing buf) items).2)

/-- The buffer and the arrivals with the header of a next command taken in, if there was none, and then
its payload as far as it has arrived. -/
def collect (buf : List Word) (items : List PortItem) : List Word × List PortItem :=
  match takeMissing buf items with
  | ([], rest) => ([], rest)
  | (h :: payload, rest) => takeMissing (h :: payload) rest

/-- What the engine has to do next. -/
inductive Arrival where
  /-- A whole command has arrived; the arrivals after it. -/
  | command (words : List Word) (rest : List PortItem)
  /-- An event has arrived; the words of an incomplete command and the arrivals after the event. -/
  | event (id : Byte) (buf : List Word) (rest : List PortItem)
  /-- Nothing to do: the words of an incomplete command. -/
  | waiting (buf : List Word)
  deriving DecidableEq, Repr

/-- The next transaction at the input ports (R60, R62, R80). -/
def nextArrival (buf : List Word) (items : List PortItem) : Arrival :=
  let (words, rest) := collect buf items
  if commandComplete words then .command words rest
  else
    match rest with
    | .event id :: later => .event id words later
    | _ => .waiting words

/-- What is placed at the ports to present an encoded operation. -/
def portItems : Encoded → List PortItem
  | .command words => words.map .word
  | .event id => [.event id]
  | .internal => []

/-- The `ch` field of a command's header, which every response echoes (R92). -/
def echoedChannel : List Word → Byte
  | [] => 0
  | h :: _ => headerCh h

end Sys2Proof.Machine
end

