-- ==== Sys2Proof/Machine/Correlator.lean ====
section
/-!
DEFINITION. The TimestampCorrelator (43_correlator.md): `OBSERVE`.
-/

namespace Sys2Proof.Machine

/-- The first half of `OBSERVE`: the accumulator takes the byte in; the time is drawn at the first byte
of a run only (R161). -/
def accumulate (l : Lane) : Lane :=
  if l.chan.runLength = 0 then
    { l.timeNow.2 with chan := { l.chan with runStart := l.timeNow.1, runLength := 1 } }
  else { l with chan := { l.chan with runLength := satInc l.chan.runLength } }

/-- The record a marker emits (R161, R163, R164): the storage index after the marker's own push, the
run's start time, the run's length with the marker counted. -/
def closingRecord (c : Channel) : TimestampRecord where
  timestamp := c.runStart
  length := c.runLength
  streamPosition := BitVec.ofNat 16 (c.rx.slot c.rx.wr)

/-- The second half of `OBSERVE` at a marker: the record is stored or counted as lost, and the
accumulator is reset either way (R161, R165). -/
def closeRun (c : Channel) : Channel :=
  { c with
    ts := (c.ts.push (closingRecord c)).1
    tsOvf := c.tsOvf || !(c.ts.push (closingRecord c)).2
    runLength := 0 }

/-- `OBSERVE(i, b)` (R161). -/
def observe (b : Byte) (l : Lane) : Lane :=
  if b = (accumulate l).chan.marker then
    { accumulate l with chan := closeRun (accumulate l).chan }
  else accumulate l

/-- `OBSERVE` (R161). -/
def execObserve (ch : Byte) (b : Byte) (s : State) : Host.Outcome State Fault Refusal :=
  s.internal ch (observe b)

end Sys2Proof.Machine
end

