-- ==== Sys2Proof/Machine/Dispatcher.lean ====
section
/-!
DEFINITION. The InterruptDispatcher (42_dispatcher.md): the event `DISPATCH`, its two pumps and the
record of a discarded byte. An event produces no response and raises nothing (R140); its entry saves
nothing and its return restores nothing (R220 to R222).
-/

namespace Sys2Proof.Machine

/-- `TX_PUMP` (R143). -/
def txPump (l : Lane) : Lane :=
  match l.chan.tx.pop.2 with
  | some b => { l with chan := { l.chan with tx := l.chan.tx.pop.1 } }.call (.writeDataRegister b)
  | none =>
    let l1 := (l.call .disableTransmitInterrupt).call .disableTransmitPath
    { l1 with chan := { l1.chan with txArmed := false } }

/-- `OVERFLOW` (R146). -/
def overflow (l : Lane) : Lane :=
  { l with chan := { l.chan with rxOvf := true, ovfCount := satInc l.chan.ovfCount } }

/-- A byte accepted into the RX ring, and observed where the channel has timestamps (R145, R160). -/
def acceptByte (b : Byte) (l : Lane) : Lane :=
  let l1 := { l with chan := { l.chan with rx := (l.chan.rx.push b).1 } }
  if l1.chan.tsEnable then observe b l1 else l1

/-- `RX_PUMP` under ALWAYS_DRAIN (R145). -/
def rxPumpAlwaysDrain (l : Lane) : Lane :=
  let (b, l1) := l.readDataRegister
  if (l1.chan.rx.push b).2 then acceptByte b l1 else overflow l1

/-- `RX_PUMP` under DRAIN_WHEN_EMPTY (R147). -/
def rxPumpDrainWhenEmpty (l : Lane) : Lane :=
  if l.chan.rx.empty then
    let (b, l1) := l.readDataRegister
    acceptByte b l1
  else l

/-- `RX_PUMP` of the channel's policy (R144). -/
def rxPump (l : Lane) : Lane :=
  match l.chan.policy with
  | .alwaysDrain => rxPumpAlwaysDrain l
  | .drainWhenEmpty => rxPumpDrainWhenEmpty l

/-- The algorithm of `DISPATCH(i)` on a Ready channel (R140): the status is read once, the transmit
condition served before the receive condition (R219), each if signaled (R215). -/
def dispatchReady (l : Lane) : Lane :=
  let (f, l1) := l.readStatusFlags
  let l2 := if txReady f && l1.chan.txArmed then txPump l1 else l1
  if rxReady f then rxPump l2 else l2

/-- `DISPATCH(i)` (R140): nothing at all for an identity without a channel or a channel not Ready. -/
def dispatch (id : Byte) (s : State) : State :=
  match s.lane id.toNat with
  | none => s
  | some l => if l.chan.status = .ready then s.commit (dispatchReady l) else s

/-- `DISPATCH` (R140). -/
def execDispatch (id : Byte) (s : State) : Host.Outcome State Fault Refusal := .next (dispatch id s)

/-- `TX_PUMP` (R143). -/
def execTxPump (ch : Byte) (s : State) : Host.Outcome State Fault Refusal := s.internal ch txPump

/-- `RX_PUMP_ALWAYS_DRAIN` (R145). -/
def execRxPumpAlwaysDrain (ch : Byte) (s : State) : Host.Outcome State Fault Refusal :=
  s.internal ch rxPumpAlwaysDrain

/-- `RX_PUMP_DRAIN_WHEN_EMPTY` (R147). -/
def execRxPumpDrainWhenEmpty (ch : Byte) (s : State) : Host.Outcome State Fault Refusal :=
  s.internal ch rxPumpDrainWhenEmpty

/-- `OVERFLOW` (R146). -/
def execOverflow (ch : Byte) (s : State) : Host.Outcome State Fault Refusal := s.internal ch overflow

end Sys2Proof.Machine
end

