-- ==== Sys2Proof/Machine/LifecycleOps.lean ====
section
/-!
DEFINITION. The channel lifecycle (41_lifecycle.md): `INIT`, the one operation that moves it (R130).
-/

namespace Sys2Proof.Machine

/-- What a successful `INIT` leaves in the channel record (R134): the options latched, the three rings
empty with cursors 0, no run in progress, Ready. -/
def readyChannel (o : InitOptions) (c : Channel) : Channel :=
  { c with
    status := .ready
    policy := o.policy
    tsEnable := o.tsEnable
    marker := o.marker
    rx := c.rx.restart
    tx := c.tx.restart
    ts := c.ts.restart
    runLength := 0 }

/-- `INIT` once `configure` has answered (R130, R134). -/
def initConfigured (o : InitOptions) (r : CfgResult) (l : Lane) : Lane × Reply :=
  match r with
  | .ok =>
    ((({ l with chan := readyChannel o l.chan }.call .enableReceiveInterrupt).call
      .irqClearPending).call .irqEnable, .done 0 [])
  | .rejected => ({ l with chan := { l.chan with status := .initError } }, .raise .initError)
  | .failed => ({ l with chan := { l.chan with status := .fault } }, .raise .initError)

/-- `INIT` on a channel of the table (R134): no driver call on Ready or Fault. -/
def initBody (o : InitOptions) (fClk : Word) (l : Lane) : Lane × Reply :=
  match l.chan.status with
  | .ready | .fault => (l, .raise .initError)
  | .uninitialized | .initError => initConfigured o (l.configure o fClk).1 (l.configure o fClk).2

/-- `INIT` (R134). -/
def execInit (ch : Byte) (opts : InitOptions) (s : State) : Host.Outcome State Fault Refusal :=
  .next (s.command ch (initBody opts s.fClk))

end Sys2Proof.Machine
end

