-- ==== Sys2Proof/Machine/PublicApi.lean ====
section
/-!
DEFINITION. The foreground commands (44_public_api.md) but `INIT`, and `ARM_TX`.
-/

namespace Sys2Proof.Machine

/-- `ARM_TX` (R171): the enable pair, path then interrupt, only if idle. -/
def armTx (l : Lane) : Lane :=
  if l.chan.txArmed then l
  else
    let l1 := (l.call .enableTransmitPath).call .enableTransmitInterrupt
    { l1 with chan := { l1.chan with txArmed := true } }

/-- `SEND_BYTE` after its prologue (R172). -/
def sendByteBody (b : Byte) (l : Lane) : Lane × Reply :=
  if (l.chan.tx.push b).2 then
    (armTx { l with chan := { l.chan with tx := (l.chan.tx.push b).1 } }, .done 0 [])
  else (l, .raise .bufferFull)

/-- `SEND_BYTES` after its prologue (R173): an empty send does not arm. -/
def sendBytesBody (v : List Byte) (l : Lane) : Lane × Reply :=
  if (l.chan.tx.pushBulk v).2 then
    let l1 := { l with chan := { l.chan with tx := (l.chan.tx.pushBulk v).1 } }
    (if 0 < v.length then armTx l1 else l1, .done 0 [])
  else (l, .raise .bufferFull)

/-- `AVAILABLE` after its prologue (R174). -/
def availableBody (l : Lane) : Lane × Reply := (l, .done (BitVec.ofNat 16 l.chan.rx.occ) [])

/-- `READ_BYTE` after its prologue (R175). -/
def readByteBody (l : Lane) : Lane × Reply :=
  match l.chan.rx.pop.2 with
  | some b => ({ l with chan := { l.chan with rx := l.chan.rx.pop.1 } }, .done (b.setWidth 16) [])
  | none => (l, .raise .bufferEmpty)

/-- `READ_BYTES` after its prologue (R176). -/
def readBytesBody (n : Half) (l : Lane) : Lane × Reply :=
  match (l.chan.rx.popBulk n.toNat).2 with
  | some v =>
    ({ l with chan := { l.chan with rx := (l.chan.rx.popBulk n.toNat).1 } }, .done n (packBytes v))
  | none => (l, .raise .underflow)

/-- A record is pending on a Ready channel with timestamps (R177, R178). -/
def recordPending (c : Channel) : Bool := c.tsEnable && !c.ts.empty

/-- `TS_AVAILABLE` after its prologue (R177). -/
def tsAvailableBody (l : Lane) : Lane × Reply := (l, .done (boolValue (recordPending l.chan)) [])

/-- A channel's bit in the answer of `TS_AVAILABLE_ALL` (R178). -/
def pendingBit (c : Channel) : Bool := decide (c.status = .ready) && recordPending c

/-- `TS_READ` once a record is at hand (R179): the record and exactly `length` bytes, or nothing. -/
def tsReadRecord (rec : TimestampRecord) (l : Lane) : Lane × Reply :=
  match (l.chan.rx.popBulk rec.length.toNat).2 with
  | some v =>
    ({ l with chan :=
        { l.chan with rx := (l.chan.rx.popBulk rec.length.toNat).1, ts := l.chan.ts.pop.1 } },
      .done rec.length (rec.timestamp :: packBytes v))
  | none => (l, .raise .underflow)

/-- `TS_READ` after its prologue (R179). -/
def tsReadBody (l : Lane) : Lane × Reply :=
  if l.chan.tsEnable then
    match l.chan.ts.peek with
    | some rec => tsReadRecord rec l
    | none => (l, .raise .timestampUnavailable)
  else (l, .raise .timestampUnavailable)

/-- `STATUS` (R180): no check of the lifecycle. -/
def statusBody (l : Lane) : Lane × Reply :=
  (l, .done (statusWord l.chan) [overflowWord l.chan])

/-- `SEND_BYTE` (R172). -/
def execSendByte (ch : Byte) (b : Byte) (s : State) : Host.Outcome State Fault Refusal :=
  .next (s.command ch (whenReady (sendByteBody b)))

/-- `SEND_BYTES` (R173). -/
def execSendBytes (ch : Byte) (bytes : List Byte) (s : State) : Host.Outcome State Fault Refusal :=
  .next (s.command ch (whenReady (sendBytesBody bytes)))

/-- `AVAILABLE` (R174). -/
def execAvailable (ch : Byte) (s : State) : Host.Outcome State Fault Refusal :=
  .next (s.command ch (whenReady availableBody))

/-- `READ_BYTE` (R175). -/
def execReadByte (ch : Byte) (s : State) : Host.Outcome State Fault Refusal :=
  .next (s.command ch (whenReady readByteBody))

/-- `READ_BYTES` (R176). -/
def execReadBytes (ch : Byte) (n : Half) (s : State) : Host.Outcome State Fault Refusal :=
  .next (s.command ch (whenReady (readBytesBody n)))

/-- `TS_AVAILABLE` (R177). -/
def execTsAvailable (ch : Byte) (s : State) : Host.Outcome State Fault Refusal :=
  .next (s.command ch (whenReady tsAvailableBody))

/-- `TS_AVAILABLE_ALL` (R178): every channel's bit, at one instant; its `ch` field is 0. -/
def execTsAvailableAll (s : State) : Host.Outcome State Fault Refusal :=
  .next (s.respond 0
    (.done (boolValue ((s.ch.map pendingBit).any id)) (maskWords (s.ch.map pendingBit))))

/-- `TS_READ` (R179). -/
def execTsRead (ch : Byte) (s : State) : Host.Outcome State Fault Refusal :=
  .next (s.command ch (whenReady tsReadBody))

/-- `STATUS` (R180). -/
def execStatus (ch : Byte) (s : State) : Host.Outcome State Fault Refusal :=
  .next (s.command ch statusBody)

/-- `ARM_TX` (R171). -/
def execArmTx (ch : Byte) (s : State) : Host.Outcome State Fault Refusal := s.internal ch armTx

end Sys2Proof.Machine
end

