-- ==== Sys2Proof/Machine/RingPrimitives.lean ====
section
/-!
DEFINITION. The seven ring primitives as operations of their own (40_ringbuffer.md): which ring of the
channel they act on and the value they return (R101, R110). The primitives themselves are in Ops.
-/

namespace Sys2Proof.Machine

/-- `PUSH` on the ring its operand names (R113). -/
def pushOn (item : PushItem) (l : Lane) : Lane × OpReturn :=
  match item with
  | .rx b => ({ l with chan := { l.chan with rx := (l.chan.rx.push b).1 } }, .bool (l.chan.rx.push b).2)
  | .tx b => ({ l with chan := { l.chan with tx := (l.chan.tx.push b).1 } }, .bool (l.chan.tx.push b).2)
  | .ts r => ({ l with chan := { l.chan with ts := (l.chan.ts.push r).1 } }, .bool (l.chan.ts.push r).2)

/-- `POP` on a ring (R114). -/
def popOn (ring : RingName) (l : Lane) : Lane × OpReturn :=
  match ring with
  | .rx => ({ l with chan := { l.chan with rx := l.chan.rx.pop.1 } }, .byte l.chan.rx.pop.2)
  | .tx => ({ l with chan := { l.chan with tx := l.chan.tx.pop.1 } }, .byte l.chan.tx.pop.2)
  | .ts => ({ l with chan := { l.chan with ts := l.chan.ts.pop.1 } }, .record l.chan.ts.pop.2)

/-- `PUSH_BULK` on the ring its operand names (R115). -/
def pushBulkOn (items : BulkItems) (l : Lane) : Lane × OpReturn :=
  match items with
  | .rx v =>
      ({ l with chan := { l.chan with rx := (l.chan.rx.pushBulk v).1 } }, .bool (l.chan.rx.pushBulk v).2)
  | .tx v =>
      ({ l with chan := { l.chan with tx := (l.chan.tx.pushBulk v).1 } }, .bool (l.chan.tx.pushBulk v).2)
  | .ts v =>
      ({ l with chan := { l.chan with ts := (l.chan.ts.pushBulk v).1 } }, .bool (l.chan.ts.pushBulk v).2)

/-- `POP_BULK` on a ring (R116). -/
def popBulkOn (ring : RingName) (n : Nat) (l : Lane) : Lane × OpReturn :=
  match ring with
  | .rx =>
      ({ l with chan := { l.chan with rx := (l.chan.rx.popBulk n).1 } }, .bytes (l.chan.rx.popBulk n).2)
  | .tx =>
      ({ l with chan := { l.chan with tx := (l.chan.tx.popBulk n).1 } }, .bytes (l.chan.tx.popBulk n).2)
  | .ts =>
      ({ l with chan := { l.chan with ts := (l.chan.ts.popBulk n).1 } }, .records (l.chan.ts.popBulk n).2)

/-- `OCCUPIED_COUNT` of a ring (R117). -/
def occupiedCountOn (ring : RingName) (l : Lane) : Lane × OpReturn :=
  match ring with
  | .rx => (l, .count l.chan.rx.occ)
  | .tx => (l, .count l.chan.tx.occ)
  | .ts => (l, .count l.chan.ts.occ)

/-- `IS_EMPTY` of a ring (R118). -/
def isEmptyOn (ring : RingName) (l : Lane) : Lane × OpReturn :=
  match ring with
  | .rx => (l, .bool l.chan.rx.empty)
  | .tx => (l, .bool l.chan.tx.empty)
  | .ts => (l, .bool l.chan.ts.empty)

/-- `PEEK` at a ring (R119). -/
def peekOn (ring : RingName) (l : Lane) : Lane × OpReturn :=
  match ring with
  | .rx => (l, .byte l.chan.rx.peek)
  | .tx => (l, .byte l.chan.tx.peek)
  | .ts => (l, .record l.chan.ts.peek)

/-- `PUSH` (R113). -/
def execPush (ch : Byte) (item : PushItem) (s : State) : Host.Outcome State Fault Refusal :=
  s.internalReturning ch (pushOn item)

/-- `POP` (R114). -/
def execPop (ch : Byte) (ring : RingName) (s : State) : Host.Outcome State Fault Refusal :=
  s.internalReturning ch (popOn ring)

/-- `PUSH_BULK` (R115). -/
def execPushBulk (ch : Byte) (items : BulkItems) (s : State) : Host.Outcome State Fault Refusal :=
  s.internalReturning ch (pushBulkOn items)

/-- `POP_BULK` (R116). -/
def execPopBulk (ch : Byte) (ring : RingName) (n : Nat) (s : State) :
    Host.Outcome State Fault Refusal :=
  s.internalReturning ch (popBulkOn ring n)

/-- `OCCUPIED_COUNT` (R117). -/
def execOccupiedCount (ch : Byte) (ring : RingName) (s : State) : Host.Outcome State Fault Refusal :=
  s.internalReturning ch (occupiedCountOn ring)

/-- `IS_EMPTY` (R118). -/
def execIsEmpty (ch : Byte) (ring : RingName) (s : State) : Host.Outcome State Fault Refusal :=
  s.internalReturning ch (isEmptyOn ring)

/-- `PEEK` (R119). -/
def execPeek (ch : Byte) (ring : RingName) (s : State) : Host.Outcome State Fault Refusal :=
  s.internalReturning ch (peekOn ring)

end Sys2Proof.Machine
end

