-- ==== Sys2Proof/Machine/Dispatch.lean ====
section
/-! DEFINITION. Every operation's meaning, one arm per row of the opcode table. -/

namespace Sys2Proof.Machine

def exec (i : Instr) (s : State) : Host.Outcome State Fault Refusal :=
  match i with
  | .init ch opts => Sys2Proof.Machine.execInit ch opts s
  | .sendByte ch b => Sys2Proof.Machine.execSendByte ch b s
  | .sendBytes ch bytes => Sys2Proof.Machine.execSendBytes ch bytes s
  | .available ch => Sys2Proof.Machine.execAvailable ch s
  | .readByte ch => Sys2Proof.Machine.execReadByte ch s
  | .readBytes ch n => Sys2Proof.Machine.execReadBytes ch n s
  | .tsAvailable ch => Sys2Proof.Machine.execTsAvailable ch s
  | .tsAvailableAll => Sys2Proof.Machine.execTsAvailableAll s
  | .tsRead ch => Sys2Proof.Machine.execTsRead ch s
  | .status ch => Sys2Proof.Machine.execStatus ch s
  | .dispatch evtId => Sys2Proof.Machine.execDispatch evtId s
  | .txPump ch => Sys2Proof.Machine.execTxPump ch s
  | .rxPumpAlwaysDrain ch => Sys2Proof.Machine.execRxPumpAlwaysDrain ch s
  | .rxPumpDrainWhenEmpty ch => Sys2Proof.Machine.execRxPumpDrainWhenEmpty ch s
  | .overflow ch => Sys2Proof.Machine.execOverflow ch s
  | .observe ch b => Sys2Proof.Machine.execObserve ch b s
  | .armTx ch => Sys2Proof.Machine.execArmTx ch s
  | .push ch item => Sys2Proof.Machine.execPush ch item s
  | .pop ch ring => Sys2Proof.Machine.execPop ch ring s
  | .pushBulk ch items => Sys2Proof.Machine.execPushBulk ch items s
  | .popBulk ch ring n => Sys2Proof.Machine.execPopBulk ch ring n s
  | .occupiedCount ch ring => Sys2Proof.Machine.execOccupiedCount ch ring s
  | .isEmpty ch ring => Sys2Proof.Machine.execIsEmpty ch ring s
  | .peek ch ring => Sys2Proof.Machine.execPeek ch ring s

end Sys2Proof.Machine
end

