-- ==== Sys2Proof/Machine/Ports.lean ====
section
/-!
DEFINITION. What the engine does with a transaction of an input port: a whole command is decoded and run,
or answered with IllegalCommand (R95); an event runs `DISPATCH` (R97).
-/

namespace Sys2Proof.Machine

/-- A whole command: its meaning, or the IllegalCommand response (R95). -/
def runCommand (words : List Word) (s : State) : Host.Outcome State Fault Refusal :=
  match decodeCommand s.ch.length words with
  | .ok i => exec i s
  | .error _ => .next (s.raiseIllegal (echoedChannel words))

/-- An event: its identity is its operand (R97). -/
def runEvent (id : Byte) (s : State) : Host.Outcome State Fault Refusal := exec (decodeEvent id) s

/-- What an opcode-table row's bits look like at the port of their format. -/
def fetchItems (nbits w : Nat) : List PortItem := portItems (tableEncoded nbits w)

end Sys2Proof.Machine
end

