-- ==== Sys2Proof/Machine/Step.lean ====
section
/-!
DEFINITION. One atomic transition of the engine (R60): the next whole command or the next event that
arrives, or waiting where neither has (R80).
-/

namespace Sys2Proof.Machine

/-- One step (R60). -/
def step (s : State) : Host.Outcome State Fault Refusal :=
  match nextArrival s.cmdBuf s.stimulus with
  | .command words rest => runCommand words { s with cmdBuf := [], stimulus := rest }
  | .event id buf rest => runEvent id { s with cmdBuf := buf, stimulus := rest }
  | .waiting buf => .next { s with cmdBuf := buf, stimulus := [] }

/-- `s` with an opcode-table row's bits presented at the port of their format, ahead of what else will
arrive (assumption 6). -/
def State.withFetchWord (s : State) (nbits w : Nat) : State :=
  { s with cmdBuf := [], stimulus := fetchItems nbits w ++ s.stimulus }

end Sys2Proof.Machine
end

