-- ==== Sys2Proof/Machine/Micro.lean ====
section
/-!
DEFINITION. The micro-step level (R63 to R68): a foreground command as check, snapshot, decide, transfer,
commit, with whole events between any two micro-steps (R67), and the atomic run that R69 gives for each
run at this level. The local values of the command in progress stand in `Foreground` and die with it
(R21). `Machine.step` is the atomic level, which R69 makes the engine's semantics (assumption 10).
-/

namespace Sys2Proof.Machine

/-! ### The foreground's place in a command -/

/-- Which read of the RX ring is in progress: `READ_BYTE` or `READ_BYTES n`. -/
inductive ReadKind where
  | one
  | many (n : Half)
  deriving DecidableEq, Repr

/-- The number of bytes a read asks for. -/
def ReadKind.count : ReadKind → Nat
  | .one => 1
  | .many n => n.toNat

/-- The error of a read that cannot be satisfied (R175, R176). -/
def ReadKind.shortage : ReadKind → Code
  | .one => .bufferEmpty
  | .many _ => .underflow

/-- The answer of a satisfied read (R175, R176). -/
def ReadKind.answer (k : ReadKind) (got : List Byte) : Reply :=
  match k with
  | .one => .done ((got.getD 0 0).setWidth 16) []
  | .many n => .done n (packBytes got)

/-- What a check reads of a channel: the fields that only the foreground's own `INIT` writes (R63, 1). -/
structure Checked where
  status : Lifecycle
  policy : DrainPolicy
  tsEnable : Bool
  marker : Byte
  deriving DecidableEq, Repr

/-- The check's reading of a channel record (R63, 1). -/
def Channel.checked (c : Channel) : Checked where
  status := c.status
  policy := c.policy
  tsEnable := c.tsEnable
  marker := c.marker

/-- Where a foreground command stands, with its local values. The name of a stage says the micro-step
that comes next. -/
inductive Foreground where
  /-- Check (R63, 1), from the words of the command on; the whole of an `INIT` (R134). -/
  | check (words : List Word)
  /-- A send's snapshot of `tx.rd` (R63, 2). -/
  | snapTxRd (ch : Byte) (v : List Byte)
  /-- A send's decision on the snapshot (R63, 3). -/
  | decideSend (ch : Byte) (v : List Byte) (rd : Nat)
  /-- A send's transfer, one slot a micro-step: byte `b` at cursor value `pos` (R63, 4). -/
  | writeSlot (ch : Byte) (n pos : Nat) (b : Byte) (todo : List Byte)
  /-- A send's commit: publish `tx.wr` and `ARM_TX` (R68 a). -/
  | commitSend (ch : Byte) (n : Nat)
  /-- A read's snapshot of `rx.wr`. -/
  | snapRxWr (ch : Byte) (k : ReadKind)
  /-- A read's decision. -/
  | decideRead (ch : Byte) (k : ReadKind) (wr : Nat)
  /-- A read's transfer, one slot a micro-step: the slot at `pos`, with `left` more after it. -/
  | readSlot (ch : Byte) (k : ReadKind) (pos left : Nat) (got : List Byte)
  /-- A read's commit: publish `rx.rd`. -/
  | commitRead (ch : Byte) (k : ReadKind) (got : List Byte)
  /-- `AVAILABLE`'s snapshot of `rx.wr`. -/
  | snapCount (ch : Byte)
  /-- `AVAILABLE`'s answer. -/
  | answerCount (ch : Byte) (wr : Nat)
  /-- `TS_AVAILABLE`'s snapshot of `ts.wr`; `on` is `ts_enable` as the check read it. -/
  | snapPending (ch : Byte) (on : Bool)
  /-- `TS_AVAILABLE`'s answer. -/
  | answerPending (ch : Byte) (on : Bool) (wr : Nat)
  /-- `TS_READ`'s snapshot of `ts.wr`; `on` is `ts_enable` as the check read it. -/
  | snapTsWr (ch : Byte) (on : Bool)
  /-- `TS_READ`'s reading of the head record, if the switch is on and the snapshot shows one. Where not, it
  ends here with TimestampUnavailable, whose point is the snapshot (R69). -/
  | readHead (ch : Byte) (on : Bool) (wr : Nat)
  /-- `TS_READ`'s snapshot of `rx.wr`. -/
  | snapRunWr (ch : Byte) (rec : TimestampRecord)
  /-- `TS_READ`'s decision. -/
  | decideRun (ch : Byte) (rec : TimestampRecord) (wr : Nat)
  /-- `TS_READ`'s transfer, one RX slot a micro-step, with `left` more after it. -/
  | readRun (ch : Byte) (rec : TimestampRecord) (pos left : Nat) (got : List Byte)
  /-- `TS_READ`'s commit: publish `rx.rd` and `ts.rd` (R68 b). -/
  | commitRun (ch : Byte) (rec : TimestampRecord) (got : List Byte)
  /-- `STATUS`'s indivisible read of the interrupt-written fields (R68 d). -/
  | readFlags (ch : Byte) (c : Checked)
  /-- `TS_AVAILABLE_ALL`'s indivisible read of every channel (R68 e, R178). -/
  | readAll
  /-- The command has responded. -/
  | done
  deriving DecidableEq, Repr

/-- An operation on one channel; nothing where the table has no such channel. -/
def State.onLane (s : State) (ch : Byte) (f : Lane → Lane) : State :=
  match s.lane ch.toNat with
  | none => s
  | some l => s.commit (f l)

/-- A value read from one channel record; the default where the table has no such channel. -/
def State.ofLane {β : Type} (s : State) (ch : Byte) (default : β) (f : Channel → β) : β :=
  match s.lane ch.toNat with
  | none => default
  | some l => f l.chan

/-- The state after a transition that goes on; an outcome that stops leaves the state. -/
def nextOr (s : State) (o : Host.Outcome State Fault Refusal) : State :=
  match o with
  | .next t => t
  | .fault _ => s
  | .refused _ => s

/-! ### Check -/

/-- The check of a legal command on a channel: it reads the channel's `INIT`-written fields and goes on
with what it read. -/
def checkChannel (ch : Byte) (go : Checked → Foreground × State) (s : State) : Foreground × State :=
  match s.lane ch.toNat with
  | none => (.done, s.raiseIllegal ch)
  | some l => go l.chan.checked

/-- The check of a legal data command: Ready or NotReady (R132, R170). -/
def checkReady (ch : Byte) (go : Checked → Foreground) (s : State) : Foreground × State :=
  checkChannel ch
    (fun c => if c.status = .ready then (go c, s) else (.done, s.respond ch (.raise .notReady))) s

/-- What the check does with a legal command; an `INIT` is done whole in it (R134, R68 c). An operation
that is no command never stands in the foreground (R226). -/
def checkInstr (i : Instr) (s : State) : Foreground × State :=
  match i with
  | .init _ _ => (.done, nextOr s (exec i s))
  | .status ch => checkChannel ch (fun c => (.readFlags ch c, s)) s
  | .tsAvailableAll => (.readAll, s)
  | .sendByte ch b => checkReady ch (fun _ => .snapTxRd ch [b]) s
  | .sendBytes ch v => checkReady ch (fun _ => .snapTxRd ch v) s
  | .available ch => checkReady ch (fun _ => .snapCount ch) s
  | .readByte ch => checkReady ch (fun _ => .snapRxWr ch .one) s
  | .readBytes ch n => checkReady ch (fun _ => .snapRxWr ch (.many n)) s
  | .tsAvailable ch => checkReady ch (fun c => .snapPending ch c.tsEnable) s
  | .tsRead ch => checkReady ch (fun c => .snapTsWr ch c.tsEnable) s
  | .dispatch _ | .txPump _ | .rxPumpAlwaysDrain _ | .rxPumpDrainWhenEmpty _ | .overflow _
  | .observe _ _ | .armTx _ | .push _ _ | .pop _ _ | .pushBulk _ _ | .popBulk _ _ _
  | .occupiedCount _ _ | .isEmpty _ _ | .peek _ _ => (.done, s)

/-- The check (R63, 1): the header is decoded, an illegal command answered (R95), a legal one checked. -/
def checkWords (words : List Word) (s : State) : Foreground × State :=
  match decodeCommand s.ch.length words with
  | .error _ => (.done, s.raiseIllegal (echoedChannel words))
  | .ok i => checkInstr i s

/-! ### Snapshot, decide, transfer, commit -/

/-- The occupied count computed from the foreground's own cursor and a snapshot of `wr` (R65). -/
def occFromWr {α : Type} (q : RingBuffer α) (wr : Nat) : Nat := { q with wr := wr }.occ

/-- The occupied count computed from the foreground's own cursor and a snapshot of `rd` (R64). -/
def occFromRd {α : Type} (q : RingBuffer α) (rd : Nat) : Nat := { q with rd := rd }.occ

/-- The free space a snapshot of `tx.rd` shows has no room for the bytes of a send (R172, R173). -/
def tooFull (v : List Byte) (rd : Nat) (c : Channel) : Bool :=
  decide (c.tx.cap - occFromRd c.tx rd < v.length)

/-- A send after its decision, or after a slot: the next slot, or the commit where none is left. -/
def sendTransfer (ch : Byte) (n pos : Nat) : List Byte → Foreground
  | [] => .commitSend ch n
  | b :: todo => .writeSlot ch n pos b todo

/-- A read after its decision, or after a slot: the next slot, or the commit where none is left. -/
def readTransfer (ch : Byte) (k : ReadKind) (pos : Nat) (got : List Byte) : Nat → Foreground
  | 0 => .commitRead ch k got
  | left + 1 => .readSlot ch k pos left got

/-- `TS_READ` after its decision, or after a slot: the next slot, or the commit where none is left. -/
def runTransfer (ch : Byte) (rec : TimestampRecord) (pos : Nat) (got : List Byte) :
    Nat → Foreground
  | 0 => .commitRun ch rec got
  | left + 1 => .readRun ch rec pos left got

/-- The slot of `tx` at a cursor value is written; no cursor changes (R64). -/
def storeTx (pos : Nat) (b : Byte) (l : Lane) : Lane :=
  { l with chan := { l.chan with tx := l.chan.tx.writeSlot pos b } }

/-- The commit of a send (R68 a). -/
def publishSend (n : Nat) (l : Lane) : Lane :=
  let l1 := { l with chan := { l.chan with tx := l.chan.tx.publishWr n } }
  if 0 < n then armTx l1 else l1

/-- The commit of a read: publish `rx.rd`. -/
def publishRead (n : Nat) (l : Lane) : Lane :=
  { l with chan := { l.chan with rx := l.chan.rx.publishRd n } }

/-- The commit of `TS_READ` (R68 b): publish `rx.rd` and `ts.rd`. -/
def publishRun (n : Nat) (l : Lane) : Lane :=
  { l with chan := { l.chan with rx := l.chan.rx.publishRd n, ts := l.chan.ts.publishRd 1 } }

/-- The answer of `STATUS`: the fields the check read, and the others as they are now (R180). -/
def statusReply (k : Checked) (c : Channel) : Reply :=
  .done
    (statusWord
      { c with status := k.status, policy := k.policy, tsEnable := k.tsEnable, marker := k.marker })
    [overflowWord c]

/-- The next micro-step of the foreground command (R63). -/
def foregroundStep (fg : Foreground) (s : State) : Foreground × State :=
  match fg with
  | .check words => checkWords words s
  | .snapTxRd ch v => (.decideSend ch v (s.ofLane ch 0 (·.tx.rd)), s)
  | .decideSend ch v rd =>
    if s.ofLane ch true (tooFull v rd) then (.done, s.respond ch (.raise .bufferFull))
    else (sendTransfer ch v.length (s.ofLane ch 0 (·.tx.wr)) v, s)
  | .writeSlot ch n pos b todo => (sendTransfer ch n (pos + 1) todo, s.onLane ch (storeTx pos b))
  | .commitSend ch n => (.done, (s.onLane ch (publishSend n)).respond ch (.done 0 []))
  | .snapRxWr ch k => (.decideRead ch k (s.ofLane ch 0 (·.rx.wr)), s)
  | .decideRead ch k wr =>
    if s.ofLane ch true (fun c => decide (occFromWr c.rx wr < k.count)) then
      (.done, s.respond ch (.raise k.shortage))
    else (readTransfer ch k (s.ofLane ch 0 (·.rx.rd)) [] k.count, s)
  | .readSlot ch k pos left got =>
    (readTransfer ch k (pos + 1) (got ++ [s.ofLane ch 0 (·.rx.readSlot pos)]) left, s)
  | .commitRead ch k got =>
    (.done, (s.onLane ch (publishRead k.count)).respond ch (k.answer got))
  | .snapCount ch => (.answerCount ch (s.ofLane ch 0 (·.rx.wr)), s)
  | .answerCount ch wr =>
    (.done, s.respond ch (.done (BitVec.ofNat 16 (s.ofLane ch 0 (fun c => occFromWr c.rx wr))) []))
  | .snapPending ch on => (.answerPending ch on (s.ofLane ch 0 (·.ts.wr)), s)
  | .answerPending ch on wr =>
    (.done, s.respond ch
      (.done (boolValue (s.ofLane ch false fun c => on && !decide (wr = c.ts.rd))) []))
  | .snapTsWr ch on => (.readHead ch on (s.ofLane ch 0 (·.ts.wr)), s)
  | .readHead ch on wr =>
    if s.ofLane ch true (fun c => !on || decide (wr = c.ts.rd)) then
      (.done, s.respond ch (.raise .timestampUnavailable))
    else (.snapRunWr ch (s.ofLane ch default (fun c => c.ts.readSlot c.ts.rd)), s)
  | .snapRunWr ch rec => (.decideRun ch rec (s.ofLane ch 0 (·.rx.wr)), s)
  | .decideRun ch rec wr =>
    if s.ofLane ch true (fun c => decide (occFromWr c.rx wr < rec.length.toNat)) then
      (.done, s.respond ch (.raise .underflow))
    else (runTransfer ch rec (s.ofLane ch 0 (·.rx.rd)) [] rec.length.toNat, s)
  | .readRun ch rec pos left got =>
    (runTransfer ch rec (pos + 1) (got ++ [s.ofLane ch 0 (·.rx.readSlot pos)]) left, s)
  | .commitRun ch rec got =>
    (.done, (s.onLane ch (publishRun rec.length.toNat)).respond ch
      (.done rec.length (rec.timestamp :: packBytes got)))
  | .readFlags ch k => (.done, s.respond ch (s.ofLane ch (.raise .illegalCommand) (statusReply k)))
  | .readAll => (.done, nextOr s (exec .tsAvailableAll s))
  | .done => (.done, s)

/-! ### Runs -/

/-- One move of a micro-step run: the foreground's next micro-step, or one whole event (R67). -/
inductive Move where
  | foreground
  | event (id : Byte)
  deriving DecidableEq, Repr

/-- The engine at the micro-step level: the commands not yet begun, in the order presented (R61), the
words of the command in progress, where it stands, and the state the two actors share. -/
structure Micro where
  waiting : List (List Word)
  current : List Word
  fg : Foreground
  st : State
  deriving DecidableEq, Repr

/-- Commands to be executed from a state, none of them begun. -/
def Micro.ofCommands (commands : List (List Word)) (s : State) : Micro where
  waiting := commands
  current := []
  fg := .done
  st := s

/-- Every command has responded. -/
abbrev Micro.Finished (m : Micro) : Prop := m.fg = .done ∧ m.waiting = []

/-- The next command stands at its check where the last one has responded (R61). -/
def Micro.present (m : Micro) : Micro :=
  match m.fg, m.waiting with
  | .done, words :: rest => { m with waiting := rest, current := words, fg := .check words }
  | _, _ => m

/-- The foreground's next micro-step. -/
def Micro.advance (m : Micro) : Micro :=
  { m with fg := (foregroundStep m.fg m.st).1, st := (foregroundStep m.fg m.st).2 }

/-- One move. -/
def microMove (m : Micro) : Move → Micro
  | .foreground => m.present.advance
  | .event id => { m with st := dispatch id m.st }

/-- A run at the micro-step level. -/
def microRun (m : Micro) (moves : List Move) : Micro := moves.foldl microMove m

/-- The events of a run, in order. -/
def eventsOf : List Move → List Byte
  | [] => []
  | .foreground :: rest => eventsOf rest
  | .event id :: rest => id :: eventsOf rest

/-- Whole events one after the other, at the atomic level. -/
def runEvents (ids : List Byte) (s : State) : State := ids.foldl (fun t id => dispatch id t) s

/-! ### Linearization -/

/-- The kinds of micro-step (R63), the snapshots told apart by the cursor they read, and the indivisible
step that is a whole command or its whole read (R68 c, d, e). -/
inductive MicroStep where
  | check
  | snapshotTxRd
  | snapshotRxWr
  | snapshotTsWr
  | decide
  | transfer
  | commit
  | indivisible
  deriving DecidableEq, Repr

/-- The command is an `INIT` that decodes: its check is the indivisible whole (R134, R68 c). -/
def isLegalInit (nCh : Nat) (words : List Word) : Bool :=
  match decodeCommand nCh words with
  | .ok (.init _ _) => true
  | .ok _ => false
  | .error _ => false

/-- The kind of the micro-step that comes next, on an engine of `nCh` channels. -/
def Foreground.next (nCh : Nat) : Foreground → Option MicroStep
  | .check words => some (if isLegalInit nCh words then .indivisible else .check)
  | .snapTxRd _ _ => some .snapshotTxRd
  | .snapRxWr _ _ | .snapCount _ | .snapRunWr _ _ => some .snapshotRxWr
  | .snapPending _ _ | .snapTsWr _ _ => some .snapshotTsWr
  | .decideSend _ _ _ | .decideRead _ _ _ | .answerCount _ _ | .answerPending _ _ _
  | .decideRun _ _ _ => some .decide
  | .writeSlot _ _ _ _ _ | .readSlot _ _ _ _ _ | .readHead _ _ _ | .readRun _ _ _ _ _ =>
    some .transfer
  | .commitSend _ _ | .commitRead _ _ _ | .commitRun _ _ _ => some .commit
  | .readFlags _ _ | .readAll => some .indivisible
  | .done => none

/-- R69's table for a legal command, by the code it ends with: the micro-step that is its linearization
point. An operation that is no command has no micro-steps; the last line names the check for it. -/
def commandPoint (i : Instr) (code : Code) : MicroStep :=
  if code = .illegalCommand ∨ code = .notReady then .check
  else
    match i with
    | .sendByte _ _ | .sendBytes _ _ => if code = .ok then .commit else .snapshotTxRd
    | .readByte _ | .readBytes _ _ => if code = .ok then .commit else .snapshotRxWr
    | .available _ => .snapshotRxWr
    | .tsAvailable _ => .snapshotTsWr
    | .tsAvailableAll | .status _ | .init _ _ => .indivisible
    | .tsRead _ =>
      if code = .ok then .commit
      else if code = .timestampUnavailable then .snapshotTsWr
      else .snapshotRxWr
    | .dispatch _ | .txPump _ | .rxPumpAlwaysDrain _ | .rxPumpDrainWhenEmpty _ | .overflow _
    | .observe _ _ | .armTx _ | .push _ _ | .pop _ _ | .pushBulk _ _ | .popBulk _ _ _
    | .occupiedCount _ _ | .isEmpty _ _ | .peek _ _ => .check

/-- R69's table for the words of a command: the check where they are illegal. -/
def linearizationPoint (nCh : Nat) (words : List Word) (code : Code) : MicroStep :=
  match decodeCommand nCh words with
  | .ok i => commandPoint i code
  | .error _ => .check

/-- The code the command in progress will respond with in a run; none where the run ends before. -/
def Micro.outcome (m : Micro) : List Move → Option Code
  | [] => none
  | .event id :: rest => (microMove m (.event id)).outcome rest
  | .foreground :: rest =>
    if m.advance.fg = .done then (m.advance.st.responses.getLast?).map (·.code)
    else m.advance.outcome rest

/-- An atomic transition (R60): a whole command or a whole event. -/
inductive Transition where
  | command (words : List Word)
  | event (id : Byte)
  deriving DecidableEq, Repr

/-- The state after an atomic transition. -/
def transition (s : State) : Transition → State
  | .command words => nextOr s (runCommand words s)
  | .event id => dispatch id s

/-- A run at the atomic level. -/
def atomicRun (s : State) (order : List Transition) : State := order.foldl transition s

/-- The transition that the foreground's next micro-step stands for: the command in progress at its
linearization point, nothing at every other micro-step. The moves are those from this one on. -/
def Micro.linearizes (m : Micro) (moves : List Move) : List Transition :=
  if m.fg.next m.st.ch.length =
      (m.outcome moves).map (linearizationPoint m.st.ch.length m.current) ∧ m.fg ≠ .done then
    [.command m.current]
  else []

/-- The atomic run R69 gives for a run: each event where it occurred, each command at its linearization
point. -/
def Micro.linearize (m : Micro) : List Move → List Transition
  | [] => []
  | .event id :: rest => .event id :: (microMove m (.event id)).linearize rest
  | .foreground :: rest =>
    m.present.linearizes (.foreground :: rest) ++ (microMove m .foreground).linearize rest

/-- The events of an atomic run, in order. -/
def Transition.events (order : List Transition) : List Byte :=
  order.filterMap fun
    | .event id => some id
    | .command _ => none

/-- The commands of an atomic run, in order. -/
def Transition.commands (order : List Transition) : List (List Word) :=
  order.filterMap fun
    | .command words => some words
    | .event _ => none

end Sys2Proof.Machine
end

