-- ==== Sys2Proof/Safety.lean ====
section
/-!
DEFINITION. What claims say about a run: well-formed storage (R23, R24), the state reset leaves (R37),
the invariants of the channel record, who may run what (R225, R226), and projections of the driver
trace (R36, R72).
-/

namespace Sys2Proof.Machine

/-! ### Well-formed storage -/

/-- A ring as R23 and R24 have it: a capacity in R5's range, cursors in `[0, 2C)`, at most `C` elements,
exactly `C` slots. -/
abbrev RingBuffer.Ok {α : Type} (q : RingBuffer α) : Prop :=
  Config.CapacityOk q.cap ∧ q.rd < 2 * q.cap ∧ q.wr < 2 * q.cap ∧ q.occ ≤ q.cap ∧
    q.store.length = q.cap

/-- The three rings of a channel are well formed. -/
abbrev Channel.RingsOk (c : Channel) : Prop := c.rx.Ok ∧ c.tx.Ok ∧ c.ts.Ok

/-- The storage of the engine in its one form: every ring of every channel holds exactly as many slots
as its capacity (R50); an unlisted slot does not exist. -/
abbrev Memory.wf (s : State) : Prop :=
  ∀ c ∈ s.ch, c.rx.store.length = c.rx.cap ∧ c.tx.store.length = c.tx.cap ∧
    c.ts.store.length = c.ts.cap

/-- The table has R5's size, every channel has its draws, every ring is well formed. -/
abbrev State.TableOk (s : State) : Prop :=
  (1 ≤ s.ch.length ∧ s.ch.length ≤ Config.maxChannels) ∧ s.env.length = s.ch.length ∧
    ∀ c ∈ s.ch, c.RingsOk

/-! ### The state after reset -/

/-- A ring as R37 leaves it: empty, cursors 0, slots of any content. -/
abbrev RingBuffer.AsReset {α : Type} (q : RingBuffer α) (cap : Nat) : Prop :=
  q.cap = cap ∧ q.rd = 0 ∧ q.wr = 0 ∧ q.store.length = cap

/-- A channel record as R37 leaves it; slots and `run_start` are unspecified. -/
abbrev Channel.AsReset (c : Channel) (k : Capacities) : Prop :=
  c.status = .uninitialized ∧ c.policy = .alwaysDrain ∧ c.tsEnable = false ∧ c.marker = 0 ∧
    c.txArmed = false ∧ c.rx.AsReset k.rx ∧ c.tx.AsReset k.tx ∧ c.ts.AsReset k.ts ∧
    c.runLength = 0 ∧ c.rxOvf = false ∧ c.tsOvf = false ∧ c.ovfCount = 0

/-- A state R37 allows right after reset, for the given build parameters: every channel as reset, an
empty driver trace, no response. What will arrive and what the environment will answer is any. -/
abbrev State.AsReset (s : State) (p : Params) : Prop :=
  s.fClk = p.fClk ∧ List.Forall₂ Channel.AsReset s.ch p.channels ∧ s.env.length = s.ch.length ∧
    s.drvTrace = [] ∧ s.responses = [] ∧ s.cmdBuf = []

/-! ### Invariants of the channel record -/

/-- Before Ready nothing has touched the rings, the accumulator or the flags (R132, R135, R140). -/
abbrev Channel.QuietUntilReady (c : Channel) : Prop :=
  c.status ≠ .ready →
    c.policy = .alwaysDrain ∧ c.tsEnable = false ∧ c.marker = 0 ∧ c.txArmed = false ∧
      (c.rx.rd = 0 ∧ c.rx.wr = 0) ∧ (c.tx.rd = 0 ∧ c.tx.wr = 0) ∧ (c.ts.rd = 0 ∧ c.ts.wr = 0) ∧
      c.runLength = 0 ∧ c.rxOvf = false ∧ c.ovfCount = 0 ∧ c.tsOvf = false

/-- No byte waits in the TX ring with the transmitter idle (R171: no lost wake-up). -/
abbrev Channel.NoLostWakeup (c : Channel) : Prop := c.tx.empty = false → c.txArmed = true

/-- Under DRAIN_WHEN_EMPTY the RX ring holds at most one byte and nothing is discarded (R147, R248). -/
abbrev Channel.OneByteWhenEmptyPolicy (c : Channel) : Prop :=
  c.policy = .drainWhenEmpty → c.rx.occ ≤ 1 ∧ c.rxOvf = false ∧ c.ovfCount = 0

/-- Without the timestamp switch the accumulator and the TS ring are never touched (R160). -/
abbrev Channel.NoTimestampsWhenOff (c : Channel) : Prop :=
  c.tsEnable = false → c.ts.rd = 0 ∧ c.ts.wr = 0 ∧ c.runLength = 0 ∧ c.tsOvf = false

/-- The sticky overflow flag and the overflow counter agree (R146). -/
abbrev Channel.OverflowConsistent (c : Channel) : Prop := c.rxOvf = true ↔ c.ovfCount ≠ 0

/-- Every pending record has a length of at least 1 and a stream position inside the RX ring
(R164, R166). -/
abbrev Channel.RecordsOk (c : Channel) : Prop :=
  ∀ r ∈ c.ts.contents, r.length ≠ 0 ∧ r.streamPosition.toNat < c.rx.cap

/-- The words in the command buffer are not yet a command (R80). -/
abbrev State.BufferOk (s : State) : Prop := commandComplete s.cmdBuf = false

/-! ### The pairing of records with bytes (R167) -/

/-- A run of bytes closed by the marker: the marker is its last byte and stands nowhere else. -/
abbrev ClosedRun (marker : Byte) (run : List Byte) : Prop :=
  run.getLast? = some marker ∧ marker ∉ run.dropLast

/-- The pairing R167 promises: the RX ring holds the runs of the pending records, in order, and then the
unfinished run the accumulator counts. -/
def Channel.Paired (c : Channel) : Prop :=
  ∃ (runs : List (List Byte)) (tail : List Byte),
    c.rx.contents = runs.flatten ++ tail ∧
      List.Forall₂ (fun run r => ClosedRun c.marker run ∧ run.length = r.length.toNat) runs
        c.ts.contents ∧
      tail.length = c.runLength.toNat ∧ c.marker ∉ tail

/-- R167's premise on the channel: timestamps on and no record lost. -/
abbrev Channel.PairingApplies (c : Channel) : Prop := c.tsEnable = true ∧ c.tsOvf = false

/-! ### Contexts -/

/-- The two execution contexts (R225). -/
inductive Context where
  | foreground
  | interrupt
  deriving DecidableEq, Repr

/-- R226's table of which context may run which operation on which ring. -/
def permits : Context → Instr → Bool
  | .foreground, .init _ _ | .foreground, .sendByte _ _ | .foreground, .sendBytes _ _
  | .foreground, .available _ | .foreground, .readByte _ | .foreground, .readBytes _ _
  | .foreground, .tsAvailable _ | .foreground, .tsAvailableAll | .foreground, .tsRead _
  | .foreground, .status _ => true
  | .interrupt, .init _ _ | .interrupt, .sendByte _ _ | .interrupt, .sendBytes _ _
  | .interrupt, .available _ | .interrupt, .readByte _ | .interrupt, .readBytes _ _
  | .interrupt, .tsAvailable _ | .interrupt, .tsAvailableAll | .interrupt, .tsRead _
  | .interrupt, .status _ => false
  | k, .dispatch _ | k, .txPump _ | k, .rxPumpAlwaysDrain _ | k, .rxPumpDrainWhenEmpty _
  | k, .overflow _ | k, .observe _ _ => decide (k = .interrupt)
  | k, .armTx _ => decide (k = .foreground)
  | k, .push _ (.tx _) => decide (k = .foreground)
  | k, .push _ (.rx _) | k, .push _ (.ts _) => decide (k = .interrupt)
  | k, .pop _ .tx => decide (k = .interrupt)
  | k, .pop _ .rx | k, .pop _ .ts => decide (k = .foreground)
  | k, .pushBulk _ (.tx _) => decide (k = .foreground)
  | _, .pushBulk _ (.rx _) | _, .pushBulk _ (.ts _) => false
  | k, .popBulk _ .rx _ => decide (k = .foreground)
  | _, .popBulk _ .tx _ | _, .popBulk _ .ts _ => false
  | k, .peek _ .ts => decide (k = .foreground)
  | _, .peek _ .rx | _, .peek _ .tx => false
  | _, .occupiedCount _ _ | _, .isEmpty _ _ => true

/-! ### The driver trace -/

/-- The calls a trace holds for one instance, in order: all a claim about the trace may rest on (R72). -/
def callsOf (i : Nat) (trace : List DrvEntry) : List DrvCall :=
  (trace.filter fun e => decide (e.inst = i)).map (·.call)

/-- The calls that enable or disable a transmitter (R171). -/
def isArming : DrvCall → Bool
  | .enableTransmitPath | .enableTransmitInterrupt | .disableTransmitInterrupt
  | .disableTransmitPath => true
  | .configure _ _ _ _ _ _ | .enableReceiveInterrupt | .readStatusFlags _ | .readDataRegister _
  | .writeDataRegister _ | .irqClearPending | .irqEnable => false

/-- The enable and disable calls of one instance, in order. -/
def armingCalls (i : Nat) (trace : List DrvEntry) : List DrvCall := (callsOf i trace).filter isArming

/-- `k` whole armed periods: enable path, enable interrupt, disable interrupt, disable path (R171). -/
def armedPeriods : Nat → List DrvCall
  | 0 => []
  | k + 1 => armedPeriods k ++
      [.enableTransmitPath, .enableTransmitInterrupt, .disableTransmitInterrupt, .disableTransmitPath]

/-- The enable and disable pairs of an instance alternate, starting with an enable pair, and
`tx_armed` says whether the last pair was an enable pair (R171, R212). -/
def ArmingAlternates (i : Nat) (c : Channel) (trace : List DrvEntry) : Prop :=
  ∃ k, armingCalls i trace =
    armedPeriods k ++ if c.txArmed then [.enableTransmitPath, .enableTransmitInterrupt] else []

/-! ### What the environment answers next -/

/-- The draws of instance `i` in a state. -/
def State.drawsAt (s : State) (i : Nat) : Draws := s.env.getD i .fresh

/-- The value `read_status_flags` of instance `i` will answer next (R142). -/
def State.nextFlags (s : State) (i : Nat) : Word :=
  ((s.drawsAt i).flags.draw (Config.freeFlags i)).1

/-- The byte `read_data_register` of instance `i` will answer next (R35). -/
def State.nextData (s : State) (i : Nat) : Byte := ((s.drawsAt i).data.draw (Config.freeData i)).1

/-- The result `configure` of instance `i` will answer next (R133). -/
def State.nextConfigure (s : State) (i : Nat) : CfgResult :=
  ((s.drawsAt i).config.draw (Config.freeConfigure i)).1

/-- The value `Time.now()` will answer next on channel `i` (R228). -/
def State.nextTime (s : State) (i : Nat) : Word := ((s.drawsAt i).time.draw (Config.freeTime i)).1

/-- The draws of instance `i` after one status-flags answer. -/
def Draws.tookFlags (d : Draws) (i : Nat) : Draws :=
  { d with flags := (d.flags.draw (Config.freeFlags i)).2 }

/-- The draws of instance `i` after one data-register answer. -/
def Draws.tookData (d : Draws) (i : Nat) : Draws :=
  { d with data := (d.data.draw (Config.freeData i)).2 }

/-- The draws of instance `i` after one configure answer. -/
def Draws.tookConfigure (d : Draws) (i : Nat) : Draws :=
  { d with config := (d.config.draw (Config.freeConfigure i)).2 }

/-- The draws of channel `i` after one time answer. -/
def Draws.tookTime (d : Draws) (i : Nat) : Draws :=
  { d with time := (d.time.draw (Config.freeTime i)).2 }

/-- The state with instance `i`'s draws replaced. -/
def State.withDraws (s : State) (i : Nat) (d : Draws) : State := { s with env := s.env.set i d }

/-! ### Shapes of outcomes -/

/-- The state `s` with channel `i`'s record replaced, calls of instance `i` added to the trace, and
everything else as it is. -/
def State.updated (s : State) (i : Nat) (c : Channel) (calls : List DrvCall) : State :=
  { s with
    ch := s.ch.set i c
    drvTrace := s.drvTrace ++ calls.map fun d => { inst := i, call := d } }

/-- The state `s` with one response added and everything else as it is. -/
def State.answered (s : State) (ch : Byte) (code : Code) (value : Half) (payload : List Word) :
    State :=
  { s with responses := s.responses ++
      [{ code := code, ch := ch, value := value, payload := payload }] }

/-- The state `s` with one value returned by an internal operation and everything else as it is. -/
def State.returned (s : State) (r : OpReturn) : State := { s with opReturns := s.opReturns ++ [r] }

/-- The command's one effect is an error response (R201). -/
def FailsWith (i : Instr) (s : State) (ch : Byte) (e : Code) : Prop :=
  exec i s = .next (s.answered ch e 0 [])

/-- A ring after one element is stored at its write cursor (R113). -/
def RingBuffer.withPushed {α : Type} (q : RingBuffer α) (x : α) : RingBuffer α :=
  { q with wr := (q.wr + 1) % (2 * q.cap), store := q.store.set (q.wr % q.cap) x }

/-- A ring after `n` elements are removed at its read cursor (R114, R116). -/
def RingBuffer.withRemoved {α : Type} (q : RingBuffer α) (n : Nat) : RingBuffer α :=
  { q with rd := (q.rd + n) % (2 * q.cap) }

/-- `q'` is `q` after the elements `v` are stored from its write cursor on (R115): slot `(wr + j) mod C`
holds `v[j]`, every other slot is as before. -/
def RingBuffer.HasStored {α : Type} (q : RingBuffer α) (v : List α) (q' : RingBuffer α) : Prop :=
  q'.cap = q.cap ∧ q'.rd = q.rd ∧ q'.wr = (q.wr + v.length) % (2 * q.cap) ∧
    q'.store.length = q.store.length ∧
    (∀ j, j < v.length → q'.store[(q.wr + j) % q.cap]? = v[j]?) ∧
    ∀ k, (∀ j, j < v.length → k ≠ (q.wr + j) % q.cap) → q'.store[k]? = q.store[k]?

/-- The elements in `n` slots from cursor value `c` on: slot `(c + j) mod C` at place `j` (R10). -/
def RingBuffer.SlotsAre {α : Type} (q : RingBuffer α) (c n : Nat) (v : List α) : Prop :=
  v.length = n ∧ ∀ j, j < n → v[j]? = q.store[(c + j) % q.cap]?

/-- The run length after one more byte (R161, R166). -/
def Channel.nextRunLength (c : Channel) : Half :=
  if c.runLength = 0 then 1 else if c.runLength = 0xFFFF then 0xFFFF else c.runLength + 1

/-- The run's start time after one more byte, `now` being the time drawn if it is the first (R161). -/
def Channel.nextRunStart (c : Channel) (now : Word) : Word :=
  if c.runLength = 0 then now else c.runStart

/-- The record the marker emits (R161, R163, R164). -/
def Channel.emittedRecord (c : Channel) (now : Word) : TimestampRecord where
  timestamp := c.nextRunStart now
  length := c.nextRunLength
  streamPosition := BitVec.ofNat 16 (c.rx.wr % c.rx.cap)

/-- What `OBSERVE` of byte `b` makes of a channel record, case by case (R161, R165), `now` being the time
drawn if the byte is the first of a run. -/
def Channel.observed (c : Channel) (b : Byte) (now : Word) : Channel :=
  if b ≠ c.marker then
    { c with runStart := c.nextRunStart now, runLength := c.nextRunLength }
  else if c.ts.occ = c.ts.cap then
    { c with runStart := c.nextRunStart now, runLength := 0, tsOvf := true }
  else
    { c with
      runStart := c.nextRunStart now
      runLength := 0
      ts := c.ts.withPushed (c.emittedRecord now) }

/-- What the RX pump makes of a channel record that has room for byte `b` (R145, R147, R160). -/
def Channel.accepted (c : Channel) (b : Byte) (now : Word) : Channel :=
  if c.tsEnable then ({ c with rx := c.rx.withPushed b } : Channel).observed b now
  else { c with rx := c.rx.withPushed b }

/-- What `OVERFLOW` makes of a channel record (R146). -/
def Channel.overflowed (c : Channel) : Channel :=
  { c with rxOvf := true, ovfCount := if c.ovfCount = 0xFFFF then 0xFFFF else c.ovfCount + 1 }

/-- What the receive half of an event makes of a channel record, `b` and `now` being the environment's
next answers (R144 to R147). -/
def Channel.received (c : Channel) (b : Byte) (now : Word) : Channel :=
  match c.policy with
  | .alwaysDrain => if c.rx.occ = c.rx.cap then c.overflowed else c.accepted b now
  | .drainWhenEmpty => if c.rx.occ = 0 then c.accepted b now else c

/-- The driver calls of the receive half of an event (R145, R147). -/
def Channel.receiveCalls (c : Channel) (b : Byte) : List DrvCall :=
  if c.policy = .drainWhenEmpty ∧ c.rx.occ ≠ 0 then [] else [.readDataRegister b]

/-- What the transmit half of an event makes of an armed channel's record (R143). -/
def Channel.transmitted (c : Channel) : Channel :=
  if c.tx.occ = 0 then { c with txArmed := false } else { c with tx := c.tx.withRemoved 1 }

/-- The driver calls of the transmit half of an event, `b` being the oldest byte of the TX ring (R143). -/
def Channel.transmitCalls (c : Channel) (b : Byte) : List DrvCall :=
  if c.tx.occ = 0 then [.disableTransmitInterrupt, .disableTransmitPath] else [.writeDataRegister b]

/-- The enable pair, made only on an idle channel (R171). -/
def Channel.armCalls (c : Channel) : List DrvCall :=
  if c.txArmed then [] else [.enableTransmitPath, .enableTransmitInterrupt]

/-- The draws after `OBSERVE` of one byte: the time is drawn at the first byte of a run only (R161). -/
def Channel.observeDraws (c : Channel) (i : Nat) (d : Draws) : Draws :=
  if c.runLength = 0 then d.tookTime i else d

/-- The draws after a byte is accepted (R160). -/
def Channel.acceptDraws (c : Channel) (i : Nat) (d : Draws) : Draws :=
  if c.tsEnable then c.observeDraws i d else d

/-- The draws after the receive half of an event (R145, R147). -/
def Channel.receiveDraws (c : Channel) (i : Nat) (d : Draws) : Draws :=
  match c.policy with
  | .alwaysDrain =>
    if c.rx.occ = c.rx.cap then d.tookData i else c.acceptDraws i (d.tookData i)
  | .drainWhenEmpty => if c.rx.occ = 0 then c.acceptDraws i (d.tookData i) else d

/-! ### Streams and sequences -/

/-- The words are exactly one command (R83). -/
def IsCommand (words : List Word) : Prop :=
  ∃ h payload, words = h :: payload ∧ words.length = commandLength h

/-- The words are an incomplete command, or none (R83, R102). -/
def IsIncomplete (words : List Word) : Prop :=
  words = [] ∨ ∃ h payload, words = h :: payload ∧ words.length < commandLength h

/-- An operation on a ring (R110). -/
inductive QueueOp (α : Type) where
  | push (x : α)
  | pop
  | pushBulk (v : List α)
  | popBulk (n : Nat)
  deriving DecidableEq, Repr

/-- A ring with the elements it has accepted and the elements it has given up so far, oldest first. -/
structure QueueRun (α : Type) where
  ring : RingBuffer α
  accepted : List α
  removed : List α
  deriving DecidableEq, Repr

/-- One operation of a run. -/
def queueStep {α : Type} [Inhabited α] (r : QueueRun α) : QueueOp α → QueueRun α
  | .push x =>
    { r with ring := (r.ring.push x).1,
             accepted := if (r.ring.push x).2 then r.accepted ++ [x] else r.accepted }
  | .pop =>
    { r with ring := r.ring.pop.1, removed := r.removed ++ r.ring.pop.2.toList }
  | .pushBulk v =>
    { r with ring := (r.ring.pushBulk v).1,
             accepted := if (r.ring.pushBulk v).2 then r.accepted ++ v else r.accepted }
  | .popBulk n =>
    { r with ring := (r.ring.popBulk n).1, removed := r.removed ++ ((r.ring.popBulk n).2.getD []) }

/-- A run of ring operations. -/
def queueRun {α : Type} [Inhabited α] (q : RingBuffer α) (ops : List (QueueOp α)) : QueueRun α :=
  ops.foldl queueStep { ring := q, accepted := [], removed := [] }

/-! ### Equality up to what no response and no driver call shows (R25) -/

/-- Two byte rings of the same capacity and the same abstract value. -/
abbrev SameRing {α : Type} [Inhabited α] (q q' : RingBuffer α) : Prop :=
  q.cap = q'.cap ∧ q.contents = q'.contents

/-- Two records that differ at most in `stream_position` (R25, R29). -/
abbrev SameRecord (r r' : TimestampRecord) : Prop :=
  r.timestamp = r'.timestamp ∧ r.length = r'.length

/-- Two channel records that differ at most in what R25 and I7 call unobservable: cursors and slots
beyond a ring's abstract value, stream positions, and `run_start` while no run is in progress. -/
structure Channel.Same (c c' : Channel) : Prop where
  status : c.status = c'.status
  policy : c.policy = c'.policy
  tsEnable : c.tsEnable = c'.tsEnable
  marker : c.marker = c'.marker
  txArmed : c.txArmed = c'.txArmed
  rx : SameRing c.rx c'.rx
  tx : SameRing c.tx c'.tx
  tsCap : c.ts.cap = c'.ts.cap
  ts : List.Forall₂ SameRecord c.ts.contents c'.ts.contents
  runLength : c.runLength = c'.runLength
  runStart : c.runLength ≠ 0 → c.runStart = c'.runStart
  rxOvf : c.rxOvf = c'.rxOvf
  ovfCount : c.ovfCount = c'.ovfCount
  tsOvf : c.tsOvf = c'.tsOvf

/-- Two states whose channels are the same up to the unobservable and whose every other field, the
responses and the driver trace among them, is equal. -/
structure State.Same (s s' : State) : Prop where
  ch : List.Forall₂ Channel.Same s.ch s'.ch
  rest : { s with ch := [] } = { s' with ch := [] }

end Sys2Proof.Machine
end

