-- ==== Sys2Proof/Certificates/Slice0/Obligations.lean ====
section
/-!
DEFINITION. The statements for the provers. Each docstring names the rule of spec/ it formalises.
-/

open Sys2Proof Sys2Proof.Machine

/-! ### Encoding -/

/-- Decode and encode agree on every operation that arrives at a port, with every operand at every value
its encoding admits (R80 to R87, R90, R97). -/
def Obligations.DecodeEncodeRoundTrip : Prop :=
  ∀ (nCh : Nat) (i : Instr), i.wf nCh = true → i.requestable = true →
    decode nCh (encode i) = .ok i

/-- What the decoder accepts is well formed and is the encoding of what it answers, but for the bytes
that pad the last word of a `SEND_BYTES`, which are ignored (R83, R84, R87, R90). -/
def Obligations.AcceptedWordsAreTheEncoding : Prop :=
  ∀ (nCh : Nat) (words : List Word) (i : Instr), decodeCommand nCh words = .ok i →
    i.wf nCh = true ∧ i.isCommand = true ∧
      ∃ canonical, encode i = .command canonical ∧ canonical.length = words.length ∧
        canonical.head? = words.head? ∧
        ((∀ ch bytes, i ≠ .sendBytes ch bytes) → canonical = words) ∧
        ∀ ch bytes, i = .sendBytes ch bytes → unpackBytes bytes.length words.tail = bytes

/-- R102: every finite sequence of words splits in exactly one way into complete commands and at most one
incomplete tail, and every complete command is one of the ten legal forms or illegal. -/
def Obligations.StreamSplitsInOneWay : Prop :=
  (∀ words : List Word, ∃! p : List (List Word) × List Word,
      words = p.1.flatten ++ p.2 ∧ (∀ c ∈ p.1, IsCommand c) ∧ IsIncomplete p.2) ∧
    ∀ (nCh : Nat) (words : List Word), IsCommand words →
      (∃ i, i.isCommand = true ∧ decodeCommand nCh words = .ok i) ∨
        ∃ e, e ∈ [DecodeError.unknownOp, .reservedField, .noSuchChannel] ∧
          decodeCommand nCh words = .error e

/-- R95: a complete command is illegal exactly where its `op` is none of 0x01 to 0x0A, a reserved field
is non-zero, or it names a channel the engine does not have; and the engine answers it with
IllegalCommand and its `ch` field echoed, changing nothing else. -/
def Obligations.IllegalCommandsAreAnswered : Prop :=
  (∀ (nCh : Nat) (h : Word) (payload : List Word), IsCommand (h :: payload) →
    ((¬ ∃ i, decodeCommand nCh (h :: payload) = .ok i) ↔
      ((headerOp h).toNat = 0 ∨ 10 < (headerOp h).toNat) ∨
      ((headerOp h = 1 ∧ (h.extractLsb' 2 6 ≠ 0 ∨ (payload.getD 1 0).extractLsb' 7 1 ≠ 0 ∨
          (payload.getD 1 0).extractLsb' 10 22 ≠ 0)) ∨
        (headerOp h = 2 ∧ h.extractLsb' 8 8 ≠ 0) ∨
        (headerOp h ∈ [4, 5, 7, 9, 10] ∧ headerArg h ≠ 0) ∨
        (headerOp h = 8 ∧ (headerArg h ≠ 0 ∨ headerCh h ≠ 0))) ∨
      (headerOp h ≠ 8 ∧ nCh ≤ (headerCh h).toNat))) ∧
  ∀ (s : State) (h : Word) (payload : List Word) (rest : List PortItem),
    nextArrival s.cmdBuf s.stimulus = .command (h :: payload) rest →
    (¬ ∃ i, decodeCommand s.ch.length (h :: payload) = .ok i) →
    step s = .next ({ s with cmdBuf := [], stimulus := rest }.answered (headerCh h)
      .illegalCommand 0 [])

/-- A few words written out from the spec's encodings decode to the operations they stand for. -/
def Obligations.SampleWordsDecode : Prop :=
  decodeCommand 8 [0x01020A02, 0x0001C200, 0x00000008] =
      .ok (.init 2 { policy := .alwaysDrain, tsEnable := true, marker := 0x0A, baud := 115200,
                     charLength := 8, parity := 0, stopBits := 0 }) ∧
    decodeCommand 8 [0x020500FF] = .ok (.sendByte 5 0xFF) ∧
    decodeCommand 8 [0x03000005, 0x44434241, 0x00000045] =
      .ok (.sendBytes 0 [0x41, 0x42, 0x43, 0x44, 0x45]) ∧
    decodeCommand 8 [0x0601FFFF] = .ok (.readBytes 1 65535) ∧
    decodeCommand 8 [0x08000000] = .ok .tsAvailableAll ∧
    decodeCommand 8 [0x0A080000] = .error .noSuchChannel ∧
    decodeEvent 0x05 = .dispatch 5

/-- R90: the packed words are `ceil(n / 4)` many, byte `j` is bits `8*(j mod 4)+7 : 8*(j mod 4)` of word
`j div 4`, and the unused high bytes of the last word are zero. -/
def Obligations.PayloadPackingIsLittleEndian : Prop :=
  ∀ bytes : List Byte, (packBytes bytes).length = (bytes.length + 3) / 4 ∧
    ∀ j, j < 4 * ((bytes.length + 3) / 4) →
      ((packBytes bytes).getD (j / 4) 0).extractLsb' (8 * (j % 4)) 8 = bytes.getD j 0

/-- R28, R31: the fields of the status word, the lifecycle by its four numbers, and the overflow word. -/
def Obligations.StatusWordFields : Prop :=
  ∀ c : Channel, (statusWord c).extractLsb' 0 2 = (match c.status with
      | .uninitialized => 0
      | .ready => 1
      | .initError => 2
      | .fault => 3) ∧
    (statusWord c).getLsbD 2 = decide (c.policy = .drainWhenEmpty) ∧
    (statusWord c).getLsbD 3 = c.tsEnable ∧ (statusWord c).getLsbD 4 = c.txArmed ∧
    (statusWord c).getLsbD 5 = c.rxOvf ∧ (statusWord c).getLsbD 6 = c.tsOvf ∧
    (statusWord c).getLsbD 7 = false ∧ (statusWord c).extractLsb' 8 8 = c.marker ∧
    (overflowWord c).toNat = c.ovfCount.toNat

/-! ### The step -/

/-- A step runs the decoded command: where the words in the buffer and the words that arrive next are a
whole command and it decodes, the step is its meaning on the state with those words consumed (R60,
R61, R80). -/
def Obligations.StepRunsTheDecodedCommand : Prop :=
  ∀ (s : State) (i : Instr) (words : List Word) (rest : List PortItem),
    IsCommand (s.cmdBuf ++ words) → decodeCommand s.ch.length (s.cmdBuf ++ words) = .ok i →
    s.stimulus = words.map .word ++ rest →
    step s = exec i { s with cmdBuf := [], stimulus := rest }

/-- A step serves the event that arrives next (R97). That an event standing before the last word of a
command is served before that command, and that the words so far stay in the buffer, is the model's
choice (assumption 4, DESIGN CHOICE, and assumption 5). -/
def Obligations.StepServesTheNextEvent : Prop :=
  ∀ (s : State) (id : Byte) (words : List Word) (rest : List PortItem),
    IsIncomplete (s.cmdBuf ++ words) → s.stimulus = words.map .word ++ .event id :: rest →
    step s = exec (.dispatch id) { s with cmdBuf := s.cmdBuf ++ words, stimulus := rest }

/-- A command is not executed before its last word has arrived (R80). That a step with nothing to execute
is a next state with all arrived words in the buffer is the model's choice (assumption 5, DESIGN
CHOICE). -/
def Obligations.IncompleteCommandWaits : Prop :=
  ∀ (s : State) (words : List Word), IsIncomplete (s.cmdBuf ++ words) →
    s.stimulus = words.map .word →
    step s = .next { s with cmdBuf := s.cmdBuf ++ words, stimulus := [] }

/-! ### The ring -/

/-- R24: the occupied count of well-formed cursors, and when a ring is empty and when full. -/
def Obligations.OccupiedCountOfCursors : Prop :=
  ∀ (α : Type) [Inhabited α] (q : RingBuffer α), 1 ≤ q.cap → q.rd < 2 * q.cap → q.wr < 2 * q.cap →
    q.occ = (if q.rd ≤ q.wr then q.wr - q.rd else q.wr + 2 * q.cap - q.rd) ∧
      (q.occ = 0 ↔ q.rd = q.wr) ∧ (q.empty = true ↔ q.occ = 0) ∧
      (q.occ = q.cap ↔ q.wr = (q.rd + q.cap) % (2 * q.cap)) ∧ q.contents.length = q.occ

/-- Every ring primitive keeps the ring, of whatever elements, well formed and acts on its abstract value as
on a queue of at most `C` elements (R24, R113 to R119). -/
def Obligations.RingIsABoundedQueue : Prop :=
  ∀ (α : Type) [Inhabited α] (q : RingBuffer α), q.Ok →
    (∀ x, (q.push x).1.Ok ∧ (q.push x).1.cap = q.cap ∧
      ((q.push x).2 = true ↔ q.contents.length < q.cap) ∧
      (q.push x).1.contents = if (q.push x).2 then q.contents ++ [x] else q.contents) ∧
    (q.pop.1.Ok ∧ q.pop.1.cap = q.cap ∧ q.pop.2 = q.contents.head? ∧
      q.pop.1.contents = q.contents.tail) ∧
    (∀ v, (q.pushBulk v).1.Ok ∧ (q.pushBulk v).1.cap = q.cap ∧
      ((q.pushBulk v).2 = true ↔ q.contents.length + v.length ≤ q.cap) ∧
      (q.pushBulk v).1.contents = if (q.pushBulk v).2 then q.contents ++ v else q.contents) ∧
    (∀ n, (q.popBulk n).1.Ok ∧ (q.popBulk n).1.cap = q.cap ∧
      (q.popBulk n).2 = (if n ≤ q.contents.length then some (q.contents.take n) else none) ∧
      (q.popBulk n).1.contents =
        if n ≤ q.contents.length then q.contents.drop n else q.contents) ∧
    q.peek = q.contents.head? ∧ (q.empty = true ↔ q.contents = [])

/-- R120 and R121, R70: over any sequence of operations on a well-formed ring, from any cursors, nothing
is lost, duplicated or reordered, and the occupied count is what was held plus accepted minus removed. -/
def Obligations.RingRunIsFifo : Prop :=
  ∀ (α : Type) [Inhabited α] (q : RingBuffer α) (ops : List (QueueOp α)), q.Ok →
    (queueRun q ops).ring.Ok ∧ (queueRun q ops).ring.cap = q.cap ∧
      q.contents ++ (queueRun q ops).accepted =
        (queueRun q ops).removed ++ (queueRun q ops).ring.contents ∧
      (queueRun q ops).ring.occ + (queueRun q ops).removed.length =
        q.occ + (queueRun q ops).accepted.length

/-- `PUSH` executed by itself (R113): it completes on every channel of the table, returns false and
changes nothing iff the ring is full, and else stores the element in slot `wr mod C` and publishes `wr`. -/
def Obligations.PushResult : Prop :=
  ∀ (s : State) (ch : Byte) (c : Channel), s.ch[ch.toNat]? = some c →
    (∀ b, exec (.push ch (.rx b)) s = .next
      (if c.rx.occ = c.rx.cap then s.returned (.bool false)
       else (s.updated ch.toNat { c with rx := c.rx.withPushed b } []).returned (.bool true))) ∧
    (∀ b, exec (.push ch (.tx b)) s = .next
      (if c.tx.occ = c.tx.cap then s.returned (.bool false)
       else (s.updated ch.toNat { c with tx := c.tx.withPushed b } []).returned (.bool true))) ∧
    (∀ r, exec (.push ch (.ts r)) s = .next
      (if c.ts.occ = c.ts.cap then s.returned (.bool false)
       else (s.updated ch.toNat { c with ts := c.ts.withPushed r } []).returned (.bool true)))

/-- `POP` executed by itself (R114): None iff the ring is empty, else the element of slot `rd mod C`. -/
def Obligations.PopResult : Prop :=
  ∀ (s : State) (ch : Byte) (c : Channel), s.ch[ch.toNat]? = some c → c.RingsOk →
    (c.rx.wr = c.rx.rd → exec (.pop ch .rx) s = .next (s.returned (.byte none))) ∧
    (c.tx.wr = c.tx.rd → exec (.pop ch .tx) s = .next (s.returned (.byte none))) ∧
    (c.ts.wr = c.ts.rd → exec (.pop ch .ts) s = .next (s.returned (.record none))) ∧
    (c.rx.wr ≠ c.rx.rd → ∃ b, c.rx.store[c.rx.rd % c.rx.cap]? = some b ∧ exec (.pop ch .rx) s =
      .next ((s.updated ch.toNat { c with rx := c.rx.withRemoved 1 } []).returned (.byte (some b)))) ∧
    (c.tx.wr ≠ c.tx.rd → ∃ b, c.tx.store[c.tx.rd % c.tx.cap]? = some b ∧ exec (.pop ch .tx) s =
      .next ((s.updated ch.toNat { c with tx := c.tx.withRemoved 1 } []).returned (.byte (some b)))) ∧
    (c.ts.wr ≠ c.ts.rd → ∃ r, c.ts.store[c.ts.rd % c.ts.cap]? = some r ∧ exec (.pop ch .ts) s =
      .next ((s.updated ch.toNat { c with ts := c.ts.withRemoved 1 } []).returned (.record (some r))))

/-- `PUSH_BULK` executed by itself (R115): all the elements or none, published by one write of `wr`. No
context uses it on `rx` or `ts` (R226): that it runs there too, by itself, is the model's choice
(assumptions 7 and 13, DESIGN CHOICE). -/
def Obligations.PushBulkResult : Prop :=
  ∀ (s : State) (ch : Byte) (c : Channel), s.ch[ch.toNat]? = some c → c.RingsOk →
    (∀ v, c.rx.cap - c.rx.occ < v.length →
      exec (.pushBulk ch (.rx v)) s = .next (s.returned (.bool false))) ∧
    (∀ v, c.tx.cap - c.tx.occ < v.length →
      exec (.pushBulk ch (.tx v)) s = .next (s.returned (.bool false))) ∧
    (∀ v, c.ts.cap - c.ts.occ < v.length →
      exec (.pushBulk ch (.ts v)) s = .next (s.returned (.bool false))) ∧
    (∀ v, v.length ≤ c.rx.cap - c.rx.occ → ∃ q, c.rx.HasStored v q ∧
      exec (.pushBulk ch (.rx v)) s =
        .next ((s.updated ch.toNat { c with rx := q } []).returned (.bool true))) ∧
    (∀ v, v.length ≤ c.tx.cap - c.tx.occ → ∃ q, c.tx.HasStored v q ∧
      exec (.pushBulk ch (.tx v)) s =
        .next ((s.updated ch.toNat { c with tx := q } []).returned (.bool true))) ∧
    (∀ v, v.length ≤ c.ts.cap - c.ts.occ → ∃ q, c.ts.HasStored v q ∧
      exec (.pushBulk ch (.ts v)) s =
        .next ((s.updated ch.toNat { c with ts := q } []).returned (.bool true)))

/-- `POP_BULK` executed by itself (R116): exactly `n` elements, oldest first, or none. No context uses it on
`tx` or `ts` (R226): that it runs there too, by itself, is the model's choice (assumptions 7 and 13,
DESIGN CHOICE). -/
def Obligations.PopBulkResult : Prop :=
  ∀ (s : State) (ch : Byte) (c : Channel) (n : Nat), s.ch[ch.toNat]? = some c → c.RingsOk →
    (c.rx.occ < n → exec (.popBulk ch .rx n) s = .next (s.returned (.bytes none))) ∧
    (c.tx.occ < n → exec (.popBulk ch .tx n) s = .next (s.returned (.bytes none))) ∧
    (c.ts.occ < n → exec (.popBulk ch .ts n) s = .next (s.returned (.records none))) ∧
    (n ≤ c.rx.occ → ∃ v, c.rx.SlotsAre c.rx.rd n v ∧ exec (.popBulk ch .rx n) s =
      .next ((s.updated ch.toNat { c with rx := c.rx.withRemoved n } []).returned (.bytes (some v)))) ∧
    (n ≤ c.tx.occ → ∃ v, c.tx.SlotsAre c.tx.rd n v ∧ exec (.popBulk ch .tx n) s =
      .next ((s.updated ch.toNat { c with tx := c.tx.withRemoved n } []).returned (.bytes (some v)))) ∧
    (n ≤ c.ts.occ → ∃ v, c.ts.SlotsAre c.ts.rd n v ∧ exec (.popBulk ch .ts n) s =
      .next ((s.updated ch.toNat { c with ts := c.ts.withRemoved n } []).returned (.records (some v))))

/-- `OCCUPIED_COUNT`, `IS_EMPTY` and `PEEK` executed by themselves (R117, R118, R119): they change nothing
and return the cursor difference modulo 2C, whether it is 0, and the oldest element. No context uses
`PEEK` on `rx` or `tx` (R226): that it runs there too, by itself, is the model's choice (assumptions 7
and 13, DESIGN CHOICE). -/
def Obligations.RingQueriesResult : Prop :=
  ∀ (s : State) (ch : Byte) (c : Channel), s.ch[ch.toNat]? = some c → c.RingsOk →
    ∀ ring : RingName,
      (∃ n, exec (.occupiedCount ch ring) s = .next (s.returned (.count n)) ∧
        (n : Int) = match ring with
          | .rx => ((c.rx.wr : Int) - c.rx.rd) % (2 * c.rx.cap)
          | .tx => ((c.tx.wr : Int) - c.tx.rd) % (2 * c.tx.cap)
          | .ts => ((c.ts.wr : Int) - c.ts.rd) % (2 * c.ts.cap)) ∧
      (exec (.isEmpty ch ring) s = .next (s.returned (.bool (match ring with
        | .rx => decide (c.rx.occ = 0)
        | .tx => decide (c.tx.occ = 0)
        | .ts => decide (c.ts.occ = 0))))) ∧
      exec (.peek ch ring) s = .next (s.returned (match ring with
        | .rx => .byte (if c.rx.occ = 0 then none else c.rx.store[c.rx.rd % c.rx.cap]?)
        | .tx => .byte (if c.tx.occ = 0 then none else c.tx.store[c.tx.rd % c.tx.cap]?)
        | .ts => .record (if c.ts.occ = 0 then none else c.ts.store[c.ts.rd % c.ts.cap]?)))

/-- An internal operation executed by itself on a channel the table does not have stops (assumption 8,
DESIGN CHOICE: R9 gives `ch[i]` a meaning for `i < N_CH` only). -/
def Obligations.InternalOperationNeedsAChannel : Prop :=
  ∀ (s : State) (i : Instr) (ch : Byte), i.requestable = false → i.channel = some ch →
    s.ch.length ≤ ch.toNat → exec i s = .fault (.noSuchChannel ch)

/-! ### Lifecycle -/

/-- R134, the successful path: on a channel that is Uninitialized or InitError whose `configure` answers
CFG_OK, `INIT` latches the options, empties the three rings, clears the run, makes the four driver
calls in order, becomes Ready and answers OK; nothing else changes. -/
def Obligations.InitSucceeds : Prop :=
  ∀ (s : State) (ch : Byte) (o : InitOptions) (c : Channel), s.ch[ch.toNat]? = some c →
    (c.status = .uninitialized ∨ c.status = .initError) → s.nextConfigure ch.toNat = .ok →
    exec (.init ch o) s = .next (((s.withDraws ch.toNat ((s.drawsAt ch.toNat).tookConfigure ch.toNat)).updated ch.toNat
        { c with
          status := .ready, policy := o.policy, tsEnable := o.tsEnable, marker := o.marker
          rx := { c.rx with rd := 0, wr := 0 }
          tx := { c.tx with rd := 0, wr := 0 }
          ts := { c.ts with rd := 0, wr := 0 }
          runLength := 0 }
        [.configure o.baud o.charLength o.parity o.stopBits s.fClk .ok, .enableReceiveInterrupt,
          .irqClearPending, .irqEnable]).answered ch .ok 0 [])

/-- R130, R134, the failing paths: CFG_REJECTED leaves status InitError, CFG_FAILED leaves Fault, only
`configure` is called, no option is latched; on Ready and on Fault nothing changes and nothing is
called. All answer InitError. -/
def Obligations.InitFails : Prop :=
  ∀ (s : State) (ch : Byte) (o : InitOptions) (c : Channel), s.ch[ch.toNat]? = some c →
    ((c.status = .ready ∨ c.status = .fault) → FailsWith (.init ch o) s ch .initError) ∧
    ((c.status = .uninitialized ∨ c.status = .initError) → ∀ r, s.nextConfigure ch.toNat = r →
      r ≠ .ok → exec (.init ch o) s =
        .next (((s.withDraws ch.toNat ((s.drawsAt ch.toNat).tookConfigure ch.toNat)).updated ch.toNat
          { c with status := if r = CfgResult.rejected then .initError else .fault }
          [.configure o.baud o.charLength o.parity o.stopBits s.fClk r]).answered ch .initError 0 []))

/-- R131: in a step, a channel's status stays as it is, or goes from Uninitialized or InitError to Ready,
InitError or Fault; Ready and Fault are never left, nothing returns to Uninitialized. -/
def Obligations.LifecycleMovesOnlyForward : Prop :=
  ∀ (s t : State) (k : Nat) (c d : Channel), step s = .next t → s.ch[k]? = some c →
    t.ch[k]? = some d →
    d.status = c.status ∨
      ((c.status = .uninitialized ∨ c.status = .initError) ∧ d.status ≠ .uninitialized)

/-- R132: the seven data commands on a channel that is not Ready change nothing, call nothing and answer
NotReady; `STATUS` is answered in every lifecycle state; `TS_AVAILABLE_ALL` shows such a channel as
having no pending record; an event for it has no effect. -/
def Obligations.NotReadyChannels : Prop :=
  ∀ (s : State) (ch : Byte) (c : Channel), s.ch[ch.toNat]? = some c → c.status ≠ .ready →
    (∀ b, FailsWith (.sendByte ch b) s ch .notReady) ∧
    (∀ v, FailsWith (.sendBytes ch v) s ch .notReady) ∧
    FailsWith (.available ch) s ch .notReady ∧ FailsWith (.readByte ch) s ch .notReady ∧
    (∀ n, FailsWith (.readBytes ch n) s ch .notReady) ∧
    FailsWith (.tsAvailable ch) s ch .notReady ∧ FailsWith (.tsRead ch) s ch .notReady ∧
    exec (.status ch) s = .next (s.answered ch .ok (statusWord c) [overflowWord c]) ∧
    (∃ v ws, exec .tsAvailableAll s = .next (s.answered 0 .ok v ws) ∧
      (ws.getD (ch.toNat / 32) 0).getLsbD (ch.toNat % 32) = false) ∧
    exec (.dispatch ch) s = .next s

/-- A command that names a channel the engine does not have is answered IllegalCommand by its meaning
too, with its `ch` field echoed (R95 c, R170). -/
def Obligations.CommandsNeedAChannel : Prop :=
  ∀ (s : State) (i : Instr) (ch : Byte), i.isCommand = true → i.channel = some ch →
    s.ch.length ≤ ch.toNat → FailsWith i s ch .illegalCommand

/-! ### Transmit side -/

/-- `SEND_BYTE` on a Ready channel (R172): with room, the byte goes to slot `wr mod C_TX`, `wr` is
published and the transmitter is armed if it was idle; with a full ring it answers BufferFull and
changes nothing. -/
def Obligations.SendByteResult : Prop :=
  ∀ (s : State) (ch b : Byte) (c : Channel), s.ch[ch.toNat]? = some c → c.status = .ready →
    (c.tx.occ ≠ c.tx.cap → exec (.sendByte ch b) s =
      .next ((s.updated ch.toNat { c with tx := c.tx.withPushed b, txArmed := true }
        c.armCalls).answered ch .ok 0 [])) ∧
    (c.tx.occ = c.tx.cap → FailsWith (.sendByte ch b) s ch .bufferFull)

/-- `SEND_BYTES` on a Ready channel (R173): all the bytes or none; an empty send succeeds and arms
nothing. -/
def Obligations.SendBytesResult : Prop :=
  ∀ (s : State) (ch : Byte) (v : List Byte) (c : Channel), s.ch[ch.toNat]? = some c →
    c.status = .ready → c.RingsOk →
    (0 < v.length → v.length ≤ c.tx.cap - c.tx.occ → ∃ q, c.tx.HasStored v q ∧
      exec (.sendBytes ch v) s =
        .next ((s.updated ch.toNat { c with tx := q, txArmed := true } c.armCalls).answered
          ch .ok 0 [])) ∧
    (v = [] → exec (.sendBytes ch v) s = .next (s.answered ch .ok 0 [])) ∧
    (c.tx.cap - c.tx.occ < v.length → FailsWith (.sendBytes ch v) s ch .bufferFull)

/-- `ARM_TX` executed by itself (R171): the enable pair and the bit, only if idle. -/
def Obligations.ArmTxResult : Prop :=
  ∀ (s : State) (ch : Byte) (c : Channel), s.ch[ch.toNat]? = some c →
    (c.txArmed = true → exec (.armTx ch) s = .next s) ∧
    (c.txArmed = false → exec (.armTx ch) s = .next (s.updated ch.toNat { c with txArmed := true }
      [.enableTransmitPath, .enableTransmitInterrupt]))

/-- `TX_PUMP` executed by itself (R143): the oldest byte goes to the data register, or, with an empty
ring, the disable pair is made and `tx_armed` cleared. R143 has it under `f[1] = 1` and `tx_armed = 1`:
that by itself it does not test its caller's conditions, and so runs on an idle or not Ready channel
too, is the model's choice (assumption 7, DESIGN CHOICE). -/
def Obligations.TxPumpResult : Prop :=
  ∀ (s : State) (ch : Byte) (c : Channel), s.ch[ch.toNat]? = some c → c.RingsOk →
    (c.tx.occ ≠ 0 → ∃ b, c.tx.store[c.tx.rd % c.tx.cap]? = some b ∧ exec (.txPump ch) s =
      .next (s.updated ch.toNat { c with tx := c.tx.withRemoved 1 } [.writeDataRegister b])) ∧
    (c.tx.occ = 0 → exec (.txPump ch) s =
      .next (s.updated ch.toNat { c with txArmed := false }
        [.disableTransmitInterrupt, .disableTransmitPath]))

/-! ### Receive side -/

/-- `AVAILABLE` on a Ready channel (R174): the occupied count of the RX ring, exactly; nothing changes. -/
def Obligations.AvailableResult : Prop :=
  ∀ (s : State) (ch : Byte) (c : Channel), s.ch[ch.toNat]? = some c → c.status = .ready →
    c.RingsOk → ∃ n : Half, n.toNat = c.rx.occ ∧ n.toNat ≤ c.rx.cap ∧
      exec (.available ch) s = .next (s.answered ch .ok n [])

/-- `READ_BYTE` on a Ready channel (R175): the oldest byte, zero-extended, or BufferEmpty. -/
def Obligations.ReadByteResult : Prop :=
  ∀ (s : State) (ch : Byte) (c : Channel), s.ch[ch.toNat]? = some c → c.status = .ready →
    c.RingsOk →
    (c.rx.occ ≠ 0 → ∃ (b : Byte) (n : Half), c.rx.store[c.rx.rd % c.rx.cap]? = some b ∧
      n.toNat = b.toNat ∧ exec (.readByte ch) s =
        .next ((s.updated ch.toNat { c with rx := c.rx.withRemoved 1 } []).answered ch .ok n [])) ∧
    (c.rx.occ = 0 → FailsWith (.readByte ch) s ch .bufferEmpty)

/-- `READ_BYTES` on a Ready channel (R176): exactly `n` bytes, packed, or Underflow. -/
def Obligations.ReadBytesResult : Prop :=
  ∀ (s : State) (ch : Byte) (n : Half) (c : Channel), s.ch[ch.toNat]? = some c →
    c.status = .ready → c.RingsOk →
    (n.toNat ≤ c.rx.occ → ∃ v, c.rx.SlotsAre c.rx.rd n.toNat v ∧ exec (.readBytes ch n) s =
      .next ((s.updated ch.toNat { c with rx := c.rx.withRemoved n.toNat } []).answered ch .ok n
        (packBytes v))) ∧
    (c.rx.occ < n.toNat → FailsWith (.readBytes ch n) s ch .underflow)

/-- `OVERFLOW` executed by itself (R146): the sticky flag, and the counter up to 65535. -/
def Obligations.OverflowResult : Prop :=
  ∀ (s : State) (ch : Byte) (c : Channel), s.ch[ch.toNat]? = some c →
    exec (.overflow ch) s = .next (s.updated ch.toNat c.overflowed [])

/-- `RX_PUMP` under ALWAYS_DRAIN, executed by itself (R145): one data-register read always; a full ring
discards the byte and counts it, else the byte is pushed, and observed if timestamps are on. R145 has it
under `f[0] = 1` and `policy = 0`: that by itself it does not test its caller's conditions, and so runs
on a channel of the other policy or not Ready too, is the model's choice (assumption 7, DESIGN
CHOICE). -/
def Obligations.RxPumpAlwaysDrainResult : Prop :=
  ∀ (s : State) (ch : Byte) (c : Channel), s.ch[ch.toNat]? = some c →
    let d := (s.drawsAt ch.toNat).tookData ch.toNat
    exec (.rxPumpAlwaysDrain ch) s = .next
      ((s.withDraws ch.toNat (if c.rx.occ = c.rx.cap then d else c.acceptDraws ch.toNat d)).updated
        ch.toNat
        (if c.rx.occ = c.rx.cap then c.overflowed
         else c.accepted (s.nextData ch.toNat) (s.nextTime ch.toNat))
        [.readDataRegister (s.nextData ch.toNat)])

/-- `RX_PUMP` under DRAIN_WHEN_EMPTY, executed by itself (R147): nothing at all unless the ring is empty,
and then one data-register read, the push, and the correlator if timestamps are on. R147 has it under
`f[0] = 1` and `policy = 1`: that by itself it does not test its caller's conditions, and so runs on a
channel of the other policy or not Ready too, is the model's choice (assumption 7, DESIGN CHOICE). -/
def Obligations.RxPumpDrainWhenEmptyResult : Prop :=
  ∀ (s : State) (ch : Byte) (c : Channel), s.ch[ch.toNat]? = some c → c.RingsOk →
    (c.rx.occ ≠ 0 → exec (.rxPumpDrainWhenEmpty ch) s = .next s) ∧
    (c.rx.occ = 0 → exec (.rxPumpDrainWhenEmpty ch) s = .next ((s.withDraws ch.toNat
      (c.acceptDraws ch.toNat ((s.drawsAt ch.toNat).tookData ch.toNat))).updated ch.toNat
        (c.accepted (s.nextData ch.toNat) (s.nextTime ch.toNat))
        [.readDataRegister (s.nextData ch.toNat)]))

/-! ### Timestamps -/

/-- `OBSERVE` executed by itself (R161, R165, R166): the accumulator, the record at a marker, the lost
record on a full TS ring; the time is drawn at the first byte of a run and at no other; no driver
call. R161 has it on a Ready channel with `ts_enable = 1`: that by itself it does not test its caller's
conditions, and so runs on every other channel too, is the model's choice (assumption 7, DESIGN
CHOICE). -/
def Obligations.ObserveResult : Prop :=
  ∀ (s : State) (ch b : Byte) (c : Channel), s.ch[ch.toNat]? = some c →
    exec (.observe ch b) s = .next
      ((s.withDraws ch.toNat (c.observeDraws ch.toNat (s.drawsAt ch.toNat))).updated ch.toNat
        (c.observed b (s.nextTime ch.toNat)) [])

/-- `TS_AVAILABLE` on a Ready channel (R177): 1 iff timestamps are on and a record is pending. -/
def Obligations.TsAvailableResult : Prop :=
  ∀ (s : State) (ch : Byte) (c : Channel), s.ch[ch.toNat]? = some c → c.status = .ready →
    c.RingsOk → exec (.tsAvailable ch) s = .next (s.answered ch .ok
      (if c.tsEnable = true ∧ c.ts.occ ≠ 0 then 1 else 0) [])

/-- `TS_AVAILABLE_ALL` (R178): it changes nothing; its mask has bit `k` set iff channel `k` is Ready, has
timestamps on and a record pending, and its value is 1 iff some bit is set. -/
def Obligations.TsAvailableAllResult : Prop :=
  ∀ s : State, (∀ c ∈ s.ch, c.RingsOk) → ∃ (v : Half) (ws : List Word),
    exec .tsAvailableAll s = .next (s.answered 0 .ok v ws) ∧
      ws.length = (s.ch.length + 31) / 32 ∧
      (∀ k c, s.ch[k]? = some c → ((ws.getD (k / 32) 0).getLsbD (k % 32) = true ↔
        c.status = .ready ∧ c.tsEnable = true ∧ c.ts.occ ≠ 0)) ∧
      (∀ k, s.ch.length ≤ k → (ws.getD (k / 32) 0).getLsbD (k % 32) = false) ∧
      v = if ∃ c ∈ s.ch, c.status = .ready ∧ c.tsEnable = true ∧ c.ts.occ ≠ 0 then 1 else 0

/-- `TS_READ` on a Ready channel (R179): TimestampUnavailable without the feature or without a record,
Underflow with fewer bytes than the record's length, and else the record and exactly that many bytes
are removed together and returned. -/
def Obligations.TsReadResult : Prop :=
  ∀ (s : State) (ch : Byte) (c : Channel), s.ch[ch.toNat]? = some c → c.status = .ready →
    c.RingsOk →
    ((c.tsEnable = false ∨ c.ts.occ = 0) → FailsWith (.tsRead ch) s ch .timestampUnavailable) ∧
    (c.tsEnable = true → c.ts.occ ≠ 0 → ∃ r, c.ts.store[c.ts.rd % c.ts.cap]? = some r ∧
      (c.rx.occ < r.length.toNat → FailsWith (.tsRead ch) s ch .underflow) ∧
      (r.length.toNat ≤ c.rx.occ → ∃ v, c.rx.SlotsAre c.rx.rd r.length.toNat v ∧
        exec (.tsRead ch) s = .next ((s.updated ch.toNat
          { c with rx := c.rx.withRemoved r.length.toNat, ts := c.ts.withRemoved 1 } []).answered
          ch .ok r.length (r.timestamp :: packBytes v))))

/-- `STATUS` (R180): the status word and the overflow word, in every lifecycle state; nothing changes. -/
def Obligations.StatusResult : Prop :=
  ∀ (s : State) (ch : Byte) (c : Channel), s.ch[ch.toNat]? = some c →
    exec (.status ch) s = .next (s.answered ch .ok (statusWord c) [overflowWord c])

/-! ### The event -/

/-- R140 to R147, R219: an event for a Ready channel reads the status once; with `TX_READY` and an armed
transmitter it then serves the transmit side, with `RX_READY` the receive side, in this order; the
trace shows exactly these calls, and no response is produced. -/
def Obligations.DispatchResult : Prop :=
  ∀ (s : State) (ch : Byte) (c : Channel), s.ch[ch.toNat]? = some c → c.status = .ready →
    c.RingsOk → ∃ oldest : Byte,
      (c.tx.occ ≠ 0 → c.tx.store[c.tx.rd % c.tx.cap]? = some oldest) ∧
      let f := s.nextFlags ch.toNat
      let b := s.nextData ch.toNat
      let now := s.nextTime ch.toNat
      let transmit := f.getLsbD 1 = true ∧ c.txArmed = true
      let c1 := if transmit then c.transmitted else c
      let c2 := if f.getLsbD 0 = true then c1.received b now else c1
      let d := (s.drawsAt ch.toNat).tookFlags ch.toNat
      exec (.dispatch ch) s = .next ((s.withDraws ch.toNat
        (if f.getLsbD 0 = true then c.receiveDraws ch.toNat d else d)).updated ch.toNat c2
        ([DrvCall.readStatusFlags f] ++ (if transmit then c.transmitCalls oldest else []) ++
          if f.getLsbD 0 = true then c.receiveCalls b else []))

/-- R97, R140: an event for an identity that names no channel, or a channel that is not Ready, has no
effect and makes no driver call. -/
def Obligations.EventWithoutReadyChannelDoesNothing : Prop :=
  ∀ (s : State) (id : Byte), (∀ c, s.ch[id.toNat]? = some c → c.status ≠ .ready) →
    exec (.dispatch id) s = .next s

/-- R149: one event makes at most four driver calls and moves at most one byte in each direction. -/
def Obligations.DispatchIsBounded : Prop :=
  ∀ (s t : State) (id : Byte) (c d : Channel), s.ch[id.toNat]? = some c → c.RingsOk →
    exec (.dispatch id) s = .next t → t.ch[id.toNat]? = some d →
    (∃ calls, t.drvTrace = s.drvTrace ++ calls ∧ calls.length ≤ 4) ∧
      (d.rx.occ = c.rx.occ ∨ d.rx.occ = c.rx.occ + 1) ∧
      (d.tx.occ = c.tx.occ ∨ d.tx.occ + 1 = c.tx.occ) ∧
      (d.ts.occ = c.ts.occ ∨ d.ts.occ = c.ts.occ + 1)

/-! ### Whole-machine rules -/

/-- R38: an operation that names a channel leaves every other channel's record, draws and driver trace
as they are. -/
def Obligations.ChannelsAreIsolated : Prop :=
  ∀ (s t : State) (i : Instr) (ch : Byte), i.channel = some ch → exec i s = .next t →
    ∀ k, k ≠ ch.toNat → t.ch[k]? = s.ch[k]? ∧ t.env[k]? = s.env[k]? ∧
      callsOf k t.drvTrace = callsOf k s.drvTrace

/-- R38: what an operation does to its channel, what it answers and what it calls depend on that channel's
record and draws alone (and on the build parameter F_CLK). -/
def Obligations.OperationsSeeOneChannel : Prop :=
  ∀ (s s' t : State) (i : Instr) (ch : Byte), i.channel = some ch → i.requestable = true →
    s.ch[ch.toNat]? = s'.ch[ch.toNat]? → s.env[ch.toNat]? = s'.env[ch.toNat]? →
    s.fClk = s'.fClk → exec i s = .next t →
    ∃ (t' : State) (answers : List Response) (calls : List DrvEntry), exec i s' = .next t' ∧
      t'.ch[ch.toNat]? = t.ch[ch.toNat]? ∧ t'.env[ch.toNat]? = t.env[ch.toNat]? ∧
      t.responses = s.responses ++ answers ∧ t'.responses = s'.responses ++ answers ∧
      t.drvTrace = s.drvTrace ++ calls ∧ t'.drvTrace = s'.drvTrace ++ calls

/-- R72: two operations of the ports that name different channels commute, but for the order in which the
two instances' calls and the two responses stand. -/
def Obligations.DifferentChannelsCommute : Prop :=
  ∀ (s : State) (i j : Instr) (a b : Byte), i.requestable = true → j.requestable = true →
    i.channel = some a → j.channel = some b → a ≠ b →
    ∃ si sj sij sji, exec i s = .next si ∧ exec j si = .next sij ∧ exec j s = .next sj ∧
      exec i sj = .next sji ∧ sij.ch = sji.ch ∧ sij.env = sji.env ∧
      (∀ k, callsOf k sij.drvTrace = callsOf k sji.drvTrace) ∧
      List.Perm sij.responses sji.responses ∧
      { sij with ch := [], env := [], drvTrace := [], responses := [] } =
        { sji with ch := [], env := [], drvTrace := [], responses := [] }

/-- R150, R226: what the interrupt context may run never writes the foreground's cursors or storage, the
lifecycle or the configuration, never arms a transmitter and never responds. -/
def Obligations.InterruptContextKeepsForegroundState : Prop :=
  ∀ (s t : State) (i : Instr), permits .interrupt i = true → exec i s = .next t →
    t.responses = s.responses ∧ t.ch.length = s.ch.length ∧
      ∀ (k : Nat) (c d : Channel), s.ch[k]? = some c → t.ch[k]? = some d →
        d.tx.wr = c.tx.wr ∧ d.tx.store = c.tx.store ∧ d.rx.rd = c.rx.rd ∧ d.ts.rd = c.ts.rd ∧
          d.status = c.status ∧ d.policy = c.policy ∧ d.tsEnable = c.tsEnable ∧
          d.marker = c.marker ∧ (d.txArmed = true → c.txArmed = true)

/-- R26, R226: what the foreground may run, but `INIT`, never writes the interrupt context's cursors or
storage, the accumulator, the overflow record, the lifecycle or the configuration, and never disarms. -/
def Obligations.ForegroundKeepsInterruptState : Prop :=
  ∀ (s t : State) (i : Instr), permits .foreground i = true → (∀ ch o, i ≠ .init ch o) →
    exec i s = .next t → t.ch.length = s.ch.length ∧
      ∀ (k : Nat) (c d : Channel), s.ch[k]? = some c → t.ch[k]? = some d →
        d.rx.wr = c.rx.wr ∧ d.rx.store = c.rx.store ∧ d.ts.wr = c.ts.wr ∧
          d.ts.store = c.ts.store ∧ d.tx.rd = c.tx.rd ∧ d.runLength = c.runLength ∧
          d.runStart = c.runStart ∧ d.rxOvf = c.rxOvf ∧ d.ovfCount = c.ovfCount ∧
          d.tsOvf = c.tsOvf ∧ d.status = c.status ∧ d.policy = c.policy ∧
          d.tsEnable = c.tsEnable ∧ d.marker = c.marker ∧ (c.txArmed = true → d.txArmed = true)

/-- R201, R203, and the words of R92 and R200: every command makes exactly one response, with its `ch` field echoed; a response that is
not OK has value 0 and no payload and never the code Overflow; and a command that returns an error has
changed no state and made no driver call, but for `INIT`, which may have called `configure` and written
`status`. A response's words are a header, with the code's byte in bits 31:24, `ch` in 23:16 and the
value in 15:0, and then the payload. -/
def Obligations.ErrorsChangeNothing : Prop :=
  (∀ (s : State) (i : Instr), i.isCommand = true → ∃ (t : State) (r : Response),
    exec i s = .next t ∧ t.responses = s.responses ++ [r] ∧ r.ch = i.channel.getD 0 ∧
      r.code ≠ .overflow ∧
      (r.code ≠ .ok → r.value = 0 ∧ r.payload = [] ∧
        ((∀ ch o, i ≠ .init ch o) → t = { s with responses := t.responses }) ∧
        ∀ ch o, i = .init ch o → t = { s with responses := t.responses } ∨
          ∃ c st res, s.ch[ch.toNat]? = some c ∧ res ≠ .ok ∧ (st = .initError ∨ st = .fault) ∧
            t = { (s.updated ch.toNat { c with status := st }
              [.configure o.baud o.charLength o.parity o.stopBits s.fClk res]) with
                env := s.env.set ch.toNat ((s.drawsAt ch.toNat).tookConfigure ch.toNat)
                responses := t.responses })) ∧
  ∀ r : Response, ∃ header : Word, responseWords r = header :: r.payload ∧
    header.extractLsb' 24 8 = (match r.code with
      | .ok => 0x00
      | .initError => 0x01
      | .bufferFull => 0x02
      | .bufferEmpty => 0x03
      | .underflow => 0x04
      | .overflow => 0x05
      | .timestampUnavailable => 0x06
      | .notReady => 0x07
      | .illegalCommand => 0x08) ∧
    header.extractLsb' 16 8 = r.ch ∧ header.extractLsb' 0 16 = r.value

/-- R25: two states that differ only in what R25 calls unobservable (cursors and slots beyond the
abstract value of a ring, stream positions, and `run_start` while no run is in progress) go on, step by
step, with the same responses and the same driver trace. -/
def Obligations.AbstractValueDecides : Prop :=
  ∀ (s s' t : State), s.TableOk → s'.TableOk → s.Same s' → step s = .next t →
    ∃ t', step s' = .next t' ∧ t.Same t'

/-- R69: every run of foreground commands at the micro-step level, whatever events fall between any two of
their micro-steps, ends in the very state of the atomic run in which each event stands where it
occurred and each command, legal or not, at the linearization point that R69's table names for its
outcome; that atomic run holds the run's events and the commands, each once, in their order. One slot a
transfer micro-step is the model's grain (assumption 10, DESIGN CHOICE). -/
def Obligations.MicroStepRunsLinearize : Prop :=
  ∀ (s : State) (commands : List (List Word)) (moves : List Move), s.TableOk →
    (∀ words ∈ commands, IsCommand words) →
    (microRun (.ofCommands commands s) moves).Finished →
    let order := (Micro.ofCommands commands s).linearize moves
    atomicRun s order = (microRun (.ofCommands commands s) moves).st ∧
      Transition.events order = eventsOf moves ∧ Transition.commands order = commands

/-! ### Invariants -/

/-- R37: the state after reset is what the table says, for every choice of the build parameters; the
slots and `run_start`, which R37 leaves unspecified, are the model's choice (assumption 2) and the
reference parameters too (assumption 1). -/
def Obligations.ResetIsAsSpecified : Prop :=
  (∀ p : Params, (State.resetFor p).AsReset p) ∧ State.reset = State.resetFor Config.reference ∧
    Config.reference.Ok

/-- Every state the spec allows right after reset satisfies the invariants below, for every choice of the
build parameters in R5's ranges and every content of the unspecified slots (R5, R37). -/
def Obligations.ResetSatisfiesTheInvariants : Prop :=
  ∀ (s : State) (p : Params), p.Ok → s.AsReset p → s.TableOk ∧ s.BufferOk ∧ Memory.wf s ∧
    (∀ c ∈ s.ch, c.QuietUntilReady ∧ c.NoLostWakeup ∧ c.OneByteWhenEmptyPolicy ∧
      c.NoTimestampsWhenOff ∧ c.OverflowConsistent ∧ c.RecordsOk ∧ c.Paired) ∧
    ∀ k c, s.ch[k]? = some c → ArmingAlternates k c s.drvTrace

/-- R23, R24: every step keeps the table well formed: the number of channels, the capacities and F_CLK
never change, cursors stay in `[0, 2C)`, no ring holds more than `C` elements, every storage keeps
its slots; and the command buffer stays incomplete. -/
def Obligations.TableInvariantIsKept : Prop :=
  ∀ (s t : State), s.TableOk → s.BufferOk → step s = .next t → t.TableOk ∧ t.BufferOk ∧
    t.fClk = s.fClk ∧ t.ch.map (fun c => (c.rx.cap, c.tx.cap, c.ts.cap)) =
      s.ch.map (fun c => (c.rx.cap, c.tx.cap, c.ts.cap))

/-- R171: every step keeps "no byte is left in the TX ring with the transmitter idle". -/
def Obligations.NoLostWakeupIsKept : Prop :=
  ∀ (s t : State), s.TableOk → (∀ c ∈ s.ch, c.NoLostWakeup) → step s = .next t →
    ∀ c ∈ t.ch, c.NoLostWakeup

/-- R171: every step keeps "the enable pairs and the disable pairs of an instance alternate, starting with
an enable pair", with `tx_armed` showing which came last. -/
def Obligations.ArmingAlternatesIsKept : Prop :=
  ∀ (s t : State), (∀ k c, s.ch[k]? = some c → ArmingAlternates k c s.drvTrace) →
    step s = .next t → ∀ k c, t.ch[k]? = some c → ArmingAlternates k c t.drvTrace

/-- R132, R135, R147, R248, R160, R146, R164, R166: every step keeps the record-level invariants of a
channel: a channel that is not Ready is as reset left it but for its status, one byte at most and no
overflow under DRAIN_WHEN_EMPTY, nothing timestamped while the switch is off, flag and counter in
agreement, every pending record well formed. -/
def Obligations.ChannelInvariantsAreKept : Prop :=
  ∀ (s t : State), s.TableOk →
    (∀ c ∈ s.ch, c.QuietUntilReady ∧ c.OneByteWhenEmptyPolicy ∧ c.NoTimestampsWhenOff ∧
      c.OverflowConsistent ∧ c.RecordsOk) → step s = .next t →
    ∀ c ∈ t.ch, c.QuietUntilReady ∧ c.OneByteWhenEmptyPolicy ∧ c.NoTimestampsWhenOff ∧
      c.OverflowConsistent ∧ c.RecordsOk

/-- R248: under DRAIN_WHEN_EMPTY, where the ring holds at most one byte, `READ_BYTES` of two or more
answers Underflow. -/
def Obligations.TwoByteReadUnderflowsWhenEmptyPolicy : Prop :=
  ∀ (s : State) (ch : Byte) (n : Half) (c : Channel), s.ch[ch.toNat]? = some c →
    c.status = .ready → c.policy = .drainWhenEmpty → c.OneByteWhenEmptyPolicy → 2 ≤ n.toNat →
    FailsWith (.readBytes ch n) s ch .underflow

/-- R167: whatever arrives at the ports, as long as the foreground takes no byte of the channel with
`READ_BYTE` or `READ_BYTES` and no record is lost, the RX ring holds exactly the runs of the pending
records, each closed by the marker, and then the unfinished run. -/
def Obligations.PairingIsKept : Prop :=
  ∀ (s t : State) (i : Instr), s.TableOk → (∀ c ∈ s.ch, c.PairingApplies → c.Paired) →
    i.requestable = true → (∀ ch, i ≠ .readByte ch) → (∀ ch n, i ≠ .readBytes ch n) →
    exec i s = .next t → ∀ c ∈ t.ch, c.PairingApplies → c.Paired

/-- R167: what the pairing gives: the occupied count is the sum of the pending lengths plus the run in
progress, every length is between 1 and `C_RX`, there are at most as many records as bytes, and
`TS_READ` with a record pending does not fail. -/
def Obligations.PairingMakesTimestampReadsSucceed : Prop :=
  ∀ (s : State) (ch : Byte) (c : Channel), s.ch[ch.toNat]? = some c → c.status = .ready →
    c.RingsOk → c.PairingApplies → c.Paired →
    c.rx.occ = (c.ts.contents.map fun r => r.length.toNat).sum + c.runLength.toNat ∧
      (∀ r ∈ c.ts.contents, 1 ≤ r.length.toNat ∧ r.length.toNat ≤ c.rx.cap) ∧
      c.ts.occ ≤ c.rx.occ ∧
      (c.ts.occ ≠ 0 → ∃ t r, exec (.tsRead ch) s = .next t ∧ t.responses = s.responses ++ [r] ∧
        r.code = .ok ∧ r.ch = ch)

/-- R255: after an `AVAILABLE` that answered `n`, whatever events occur, a read of at most `n` bytes
cannot answer Underflow; after a `TS_AVAILABLE` that answered 1, `TS_READ` cannot answer
TimestampUnavailable. -/
def Obligations.AnswersStayValidUnderEvents : Prop :=
  ∀ (s u : State) (ch : Byte) (ids : List Byte) (a : Response), s.TableOk →
    (exec (.available ch) s = .next u → u.responses = s.responses ++ [a] → a.code = .ok →
      ∀ m : Half, m.toNat ≤ a.value.toNat → ∃ t r, exec (.readBytes ch m) (runEvents ids u) = .next t ∧
        t.responses = u.responses ++ [r] ∧ r.code = .ok) ∧
    (exec (.tsAvailable ch) s = .next u → u.responses = s.responses ++ [a] → a.code = .ok →
      a.value = 1 → ∃ t r, exec (.tsRead ch) (runEvents ids u) = .next t ∧
        t.responses = u.responses ++ [r] ∧ r.code ≠ .timestampUnavailable)
end

