-- ==== Sys2Proof/Laws/Decode.lean ====
section
/-!
SUPPORT. The bit level of decode and encode: each packed word bit by bit, and the fields read back from
what was packed (R54, R81, R84, R87, R90).
-/

namespace Sys2Proof

/-- A header word, bit by bit (R81). -/
theorem getLsbD_headerWord (op ch : Byte) (arg : Half) (i : Nat) :
    (headerWord op ch arg).getLsbD i =
      if i < 16 then arg.getLsbD i else if i < 24 then ch.getLsbD (i - 16) else op.getLsbD (i - 24) := by
  change BitVec.getLsbD (w := 8 + 8 + 16) (op ++ ch ++ arg) i = _
  simp only [BitVec.getLsbD_append]
  split
  · rfl
  · split
    · rw [if_pos (by omega)]
    · rw [if_neg (by omega)]; congr 1

/-- A payload word, bit by bit (R54). -/
theorem getLsbD_wordOfBytes (b0 b1 b2 b3 : Byte) (i : Nat) :
    (wordOfBytes b0 b1 b2 b3).getLsbD i =
      if i < 8 then b0.getLsbD i else if i < 16 then b1.getLsbD (i - 8)
      else if i < 24 then b2.getLsbD (i - 16) else b3.getLsbD (i - 24) := by
  change BitVec.getLsbD (w := 8 + 8 + 8 + 8) (b3 ++ b2 ++ b1 ++ b0) i = _
  simp only [BitVec.getLsbD_append]
  split
  · rfl
  · split
    · rw [if_pos (by omega)]
    · split
      · rw [if_neg (by omega), if_pos (by omega)]; congr 1
      · rw [if_neg (by omega), if_neg (by omega)]; congr 1

/-- The fields read back from a header word are the ones put in. -/
theorem headerOp_headerWord (op ch : Byte) (arg : Half) : headerOp (headerWord op ch arg) = op := by
  apply BitVec.eq_of_getLsbD_eq
  intro i hi
  simp only [headerOp, BitVec.getLsbD_extractLsb', getLsbD_headerWord]
  simp [hi, show ¬ (24 + i < 16) by omega]

theorem headerCh_headerWord (op ch : Byte) (arg : Half) : headerCh (headerWord op ch arg) = ch := by
  apply BitVec.eq_of_getLsbD_eq
  intro i hi
  simp only [headerCh, BitVec.getLsbD_extractLsb', getLsbD_headerWord]
  simp [hi, show 16 + i < 24 by omega]

theorem headerArg_headerWord (op ch : Byte) (arg : Half) : headerArg (headerWord op ch arg) = arg := by
  apply BitVec.eq_of_getLsbD_eq
  intro i hi
  simp only [headerArg, BitVec.getLsbD_extractLsb', getLsbD_headerWord]
  simp [hi]

/-- A word is the header word of its own fields. -/
theorem headerWord_fields (h : Word) : headerWord (headerOp h) (headerCh h) (headerArg h) = h := by
  apply BitVec.eq_of_getLsbD_eq
  intro i hi
  simp only [getLsbD_headerWord, headerOp, headerCh, headerArg, BitVec.getLsbD_extractLsb']
  split
  · simp [*]
  · split
    · simp [show i - 16 < 8 by omega, show 16 + (i - 16) = i by omega]
    · simp [show i - 24 < 8 by omega, show 24 + (i - 24) = i by omega]

/-- The bytes of a payload word are the ones put in. -/
theorem bytesOfWord_wordOfBytes (a b c d : Byte) : bytesOfWord (wordOfBytes a b c d) = [a,b,c,d] := by
  simp only [bytesOfWord, List.cons.injEq, and_true]
  refine ⟨?_, ?_, ?_, ?_⟩ <;> apply BitVec.eq_of_getLsbD_eq <;> intro i hi <;>
    simp only [BitVec.getLsbD_extractLsb', getLsbD_wordOfBytes, hi, decide_true, Bool.true_and]
  · simp [hi]
  · simp [show ¬ (8 + i < 8) by omega, show 8 + i < 16 by omega]
  · simp [show ¬ (16 + i < 8) by omega, show 16 + i < 24 by omega]
  · simp [show ¬ (24 + i < 8) by omega, show ¬ (24 + i < 16) by omega]

/-- `n` bytes take `ceil(n / 4)` words (R90). -/
theorem packBytes_length (bs : List Byte) : (packBytes bs).length = payloadWords bs.length := by
  induction bs using packBytes.induct with
  | case5 a b c d rest ih => simp only [packBytes, List.length_cons, ih, payloadWords]; omega
  | _ => simp [packBytes, payloadWords]

/-- Unpacking what was packed gives the bytes back (R90). -/
theorem unpack_pack (bs : List Byte) : unpackBytes bs.length (packBytes bs) = bs := by
  unfold unpackBytes
  induction bs using packBytes.induct with
  | case1 => rfl
  | case2 => simp [packBytes, bytesOfWord_wordOfBytes]
  | case3 => simp [packBytes, bytesOfWord_wordOfBytes]
  | case4 => simp [packBytes, bytesOfWord_wordOfBytes]
  | case5 a b c d rest ih => simpa [packBytes, bytesOfWord_wordOfBytes] using ih

/-- `INIT`'s `arg`, bit by bit (R84). -/
theorem getLsbD_initArg (o : InitOptions) (i : Nat) : (initArg o).getLsbD i =
    if i < 1 then (policyBit o.policy).getLsbD i else if i < 2 then o.tsEnable
    else if i < 8 then false else o.marker.getLsbD (i - 8) := by
  change BitVec.getLsbD (w := 8 + 6 + 1 + 1) (o.marker ++ 0#6 ++ BitVec.ofBool o.tsEnable ++ policyBit o.policy) i = _
  simp only [BitVec.getLsbD_append, Nat.sub_sub]
  split_ifs <;> first | rfl | (exfalso; omega) | skip
  · obtain rfl : i = 1 := by omega
    simp
  · simp

/-- `INIT`'s payload word 2, bit by bit (R87). -/
theorem getLsbD_initWord2 (o : InitOptions) (i : Nat) : (initWord2 o).getLsbD i =
    if i < 4 then o.charLength.getLsbD i else if i < 7 then o.parity.getLsbD (i - 4)
    else if i < 8 then false else if i < 10 then o.stopBits.getLsbD (i - 8) else false := by
  change BitVec.getLsbD (w := 22 + 2 + 1 + 3 + 4) (0#22 ++ o.stopBits ++ 0#1 ++ o.parity ++ o.charLength) i = _
  simp only [BitVec.getLsbD_append, Nat.sub_sub]
  split_ifs <;> first | rfl | (exfalso; omega) | simp

/-- The options read back from an encoded `INIT` are the ones put in. -/
theorem initOptions_encoded (o : InitOptions) : initOptions (initArg o) o.baud (initWord2 o) = o := by
  cases o with
  | mk policy ts marker baud cl pa sb =>
    simp only [initOptions, InitOptions.mk.injEq, true_and]
    refine ⟨?_, ?_, ?_, ?_, ?_, ?_⟩
    · have h : (initArg ⟨policy, ts, marker, baud, cl, pa, sb⟩).extractLsb' 0 1 = policyBit policy := by
        apply BitVec.eq_of_getLsbD_eq
        intro i hi
        simp [getLsbD_initArg, hi]
      rw [h]; cases policy <;> rfl
    · rw [getLsbD_initArg]; rfl
    · apply BitVec.eq_of_getLsbD_eq
      intro i hi
      simp [getLsbD_initArg, hi, show ¬ (8 + i < 1) by omega, show ¬ (8 + i < 2) by omega]
    · apply BitVec.eq_of_getLsbD_eq
      intro i hi
      simp [getLsbD_initWord2, hi]
    · apply BitVec.eq_of_getLsbD_eq
      intro i hi
      simp [getLsbD_initWord2, hi, show (4 + i < 7) by omega]
    · apply BitVec.eq_of_getLsbD_eq
      intro i hi
      simp [getLsbD_initWord2, hi, show ¬ (8 + i < 4) by omega, show ¬ (8 + i < 7) by omega, show (8 + i < 10) by omega]

/-- An encoded `INIT` has its reserved fields 0 (R84, R87). -/
theorem initReserved_zero (o : InitOptions) : initArgReserved (initArg o) = 0 ∧
    initWordReserved7 (initWord2 o) = 0 ∧ initWordReserved31 (initWord2 o) = 0 := by
  refine ⟨?_, ?_, ?_⟩ <;> apply BitVec.eq_of_getLsbD_eq <;> intro i hi
  · simp [initArgReserved, BitVec.getLsbD_extractLsb', getLsbD_initArg, show ¬ (2 + i < 1) by omega, show ¬ (2 + i < 2) by omega, show 2 + i < 8 by omega]
  · simp [initWordReserved7, BitVec.getLsbD_extractLsb', getLsbD_initWord2, show ¬ (7 + i < 4) by omega, show (7 + i < 8) by omega]
  · simp [initWordReserved31, BitVec.getLsbD_extractLsb', getLsbD_initWord2, show ¬ (10 + i < 4) by omega, show ¬ (10 + i < 7) by omega, show ¬ (10 + i < 8) by omega]

/-- A legal `arg` of `INIT` is the encoding of what it decodes to. -/
theorem initArg_initOptions (arg : Half) (baud w2 : Word) (h : initArgReserved arg = 0) :
    initArg (initOptions arg baud w2) = arg := by
  apply BitVec.eq_of_getLsbD_eq
  intro i hi
  rw [getLsbD_initArg]
  split
  · obtain rfl : i = 0 := by omega
    simp only [initOptions, policyOfBit]
    have : (BitVec.extractLsb' 0 1 arg).getLsbD 0 = arg.getLsbD 0 := by simp
    rw [← this]
    generalize BitVec.extractLsb' 0 1 arg = b
    revert b; decide
  · split
    · obtain rfl : i = 1 := by omega
      rfl
    · split
      · have := congrArg (fun v => v.getLsbD (i - 2)) h
        simp only [initArgReserved, BitVec.getLsbD_extractLsb'] at this
        simp [show i - 2 < 6 by omega, show 2 + (i - 2) = i by omega] at this
        exact this.symm
      · simp [initOptions, show i - 8 < 8 by omega, show 8 + (i - 8) = i by omega]

/-- A legal payload word 2 of `INIT` is the encoding of what it decodes to. -/
theorem initWord2_initOptions (arg : Half) (baud w2 : Word) (h7 : initWordReserved7 w2 = 0) (h31 : initWordReserved31 w2 = 0) :
    initWord2 (initOptions arg baud w2) = w2 := by
  apply BitVec.eq_of_getLsbD_eq
  intro i hi
  rw [getLsbD_initWord2]
  split
  · simp [initOptions, *]
  · split
    · simp [initOptions, show i - 4 < 3 by omega, show 4 + (i - 4) = i by omega]
    · split
      · have := congrArg (fun v => v.getLsbD (i - 7)) h7
        simp only [initWordReserved7, BitVec.getLsbD_extractLsb'] at this
        simp [show i - 7 < 1 by omega, show 7 + (i - 7) = i by omega] at this
        exact this.symm
      · split
        · simp [initOptions, show i - 8 < 2 by omega, show 8 + (i - 8) = i by omega]
        · have := congrArg (fun v => v.getLsbD (i - 10)) h31
          simp only [initWordReserved31, BitVec.getLsbD_extractLsb'] at this
          simp [show i - 10 < 22 by omega, show 10 + (i - 10) = i by omega] at this
          exact this.symm
end Sys2Proof
end

