-- ==== Sys2Proof/Laws/Ring.lean ====
section
/-!
SUPPORT. The ring primitives: what each can do, said once, over the cursors, the slots and the abstract
value.
-/

namespace Sys2Proof.Machine

variable {α : Type}

/-! ### Cursor arithmetic (R112) -/

/-- A cursor advanced by at most a lap, without the modulus. -/
theorem advance_cases {m c n : Nat} (hc : c < m) (hn : n ≤ m) :
    (c + n) % m = if c + n < m then c + n else c + n - m := by
  split
  · exact Nat.mod_eq_of_lt ‹_›
  · rw [Nat.mod_eq_sub_mod (by omega), Nat.mod_eq_of_lt (by omega)]

/-- Two offsets less than `C` apart reach different slots. -/
theorem slot_inj {m c a b : Nat} (ha : a < m) (hb : b < m) (h : (c + a) % m = (c + b) % m) :
    a = b := by
  have h' : a % m = b % m := Nat.ModEq.add_left_cancel' c h
  rwa [Nat.mod_eq_of_lt ha, Nat.mod_eq_of_lt hb] at h'

/-- The slot of an advanced cursor: the lap bit does not matter. -/
theorem slot_of_advance (c n m : Nat) : (c % (2 * m) + n) % m = (c + n) % m := by
  rw [Nat.add_mod, Nat.mod_mod_of_dvd c (Dvd.intro_left 2 rfl), ← Nat.add_mod]

/-- The occupied count without the modulus (R112 b). -/
theorem RingBuffer.occ_cases {q : RingBuffer α} (hr : q.rd < 2 * q.cap) (hw : q.wr < 2 * q.cap) :
    q.occ = if q.rd ≤ q.wr then q.wr - q.rd else q.wr + 2 * q.cap - q.rd := by
  unfold RingBuffer.occ
  split
  · rw [Int.emod_eq_of_lt (by omega) (by omega)]; omega
  · rw [← Int.add_emod_right, Int.emod_eq_of_lt (by omega) (by omega)]; omega

/-- The write cursor from the read cursor and the occupied count. -/
theorem RingBuffer.wr_eq {q : RingBuffer α} (hr : q.rd < 2 * q.cap) (hw : q.wr < 2 * q.cap) :
    q.wr = (q.rd + q.occ) % (2 * q.cap) := by
  have h := q.occ_cases hr hw
  rw [advance_cases hr (by split at h <;> omega)]
  split at h <;> split <;> omega

/-- A ring is empty iff it holds nothing (R118). -/
theorem RingBuffer.empty_iff {q : RingBuffer α} (hr : q.rd < 2 * q.cap) (hw : q.wr < 2 * q.cap) :
    q.empty = true ↔ q.occ = 0 := by
  have h := q.occ_cases hr hw
  simp only [RingBuffer.empty, decide_eq_true_eq]
  split at h <;> omega

/-- Publishing `n` more elements adds `n` to the occupied count. -/
theorem RingBuffer.occ_of_wr {q : RingBuffer α} {w n : Nat} (h : q.Ok) (hn : q.occ + n ≤ q.cap)
    (hw : w = (q.wr + n) % (2 * q.cap)) (st : List α) :
    ({ q with wr := w, store := st } : RingBuffer α).occ = q.occ + n := by
  obtain ⟨⟨h1, -⟩, hr, hw', -, -⟩ := h
  have ho := q.occ_cases hr hw'
  rw [advance_cases hw' (by omega)] at hw
  have hlt : w < 2 * q.cap := by split at hw <;> omega
  rw [RingBuffer.occ_cases (q := { q with wr := w, store := st }) hr hlt]
  simp only
  split at ho <;> split at hw <;> split <;> omega

/-- Publishing the removal of `n` elements takes `n` from the occupied count. -/
theorem RingBuffer.occ_of_rd {q : RingBuffer α} {r n : Nat} (h : q.Ok) (hn : n ≤ q.occ)
    (hr' : r = (q.rd + n) % (2 * q.cap)) :
    ({ q with rd := r } : RingBuffer α).occ = q.occ - n := by
  obtain ⟨⟨h1, -⟩, hr, hw, hle, -⟩ := h
  have ho := q.occ_cases hr hw
  rw [advance_cases hr (by omega)] at hr'
  have hlt : r < 2 * q.cap := by split at hr' <;> omega
  rw [RingBuffer.occ_cases (q := { q with rd := r }) hlt hw]
  simp only
  split at ho <;> split at hr' <;> split <;> omega

/-! ### Storage (R10) -/

@[simp] theorem RingBuffer.memWrite_cap (q : RingBuffer α) (c : Nat) (v : List α) :
    (q.memWrite c v).cap = q.cap := by
  induction v generalizing q c with
  | nil => rfl
  | cons x v ih => rw [RingBuffer.memWrite, ih]; rfl

@[simp] theorem RingBuffer.memWrite_rd (q : RingBuffer α) (c : Nat) (v : List α) :
    (q.memWrite c v).rd = q.rd := by
  induction v generalizing q c with
  | nil => rfl
  | cons x v ih => rw [RingBuffer.memWrite, ih]; rfl

@[simp] theorem RingBuffer.memWrite_wr (q : RingBuffer α) (c : Nat) (v : List α) :
    (q.memWrite c v).wr = q.wr := by
  induction v generalizing q c with
  | nil => rfl
  | cons x v ih => rw [RingBuffer.memWrite, ih]; rfl

@[simp] theorem RingBuffer.memWrite_length (q : RingBuffer α) (c : Nat) (v : List α) :
    (q.memWrite c v).store.length = q.store.length := by
  induction v generalizing q c with
  | nil => rfl
  | cons x v ih =>
    rw [RingBuffer.memWrite, ih]
    simp [RingBuffer.writeSlot]

/-- A bulk write changes only the slots it names. -/
theorem RingBuffer.memWrite_other (q : RingBuffer α) (c : Nat) (v : List α) (k : Nat)
    (h : ∀ j, j < v.length → k ≠ (c + j) % q.cap) :
    (q.memWrite c v).store[k]? = q.store[k]? := by
  induction v generalizing q c with
  | nil => rfl
  | cons x v ih =>
    rw [RingBuffer.memWrite, ih]
    · have h0 := h 0 (by simp)
      simp only [RingBuffer.writeSlot, RingBuffer.slot]
      rw [List.getElem?_set_ne (by simpa using h0.symm)]
    · intro j hj
      have := h (j + 1) (by simpa using hj)
      simpa [RingBuffer.writeSlot, Nat.add_assoc, Nat.add_comm 1 j] using this

/-- A bulk write of at most `C` elements puts element `j` into slot `(c + j) mod C`. -/
theorem RingBuffer.memWrite_slot (q : RingBuffer α) (c : Nat) (v : List α)
    (hl : q.store.length = q.cap) (hv : v.length ≤ q.cap) (j : Nat) (hj : j < v.length) :
    (q.memWrite c v).store[(c + j) % q.cap]? = v[j]? := by
  induction v generalizing q c j with
  | nil => simp at hj
  | cons x v ih =>
    simp only [List.length_cons] at hv hj
    have hpos : 0 < q.cap := by omega
    rw [RingBuffer.memWrite]
    cases j with
    | zero =>
      rw [RingBuffer.memWrite_other]
      · simp only [RingBuffer.writeSlot, RingBuffer.slot, Nat.add_zero, List.getElem?_cons_zero]
        rw [List.getElem?_set_self (by rw [hl]; exact Nat.mod_lt _ hpos)]
      · intro j' hj' he
        simp only [RingBuffer.writeSlot, Nat.add_assoc] at he
        have := slot_inj (by omega) (by omega) he
        omega
    | succ j =>
      have := ih (q.writeSlot c x) (c + 1) (by simpa [RingBuffer.writeSlot] using hl)
        (by simpa [RingBuffer.writeSlot] using by omega) j (by omega)
      simpa [RingBuffer.writeSlot, Nat.add_assoc, Nat.add_comm 1 j] using this

/-- Reading a slot, as the element the store holds there. -/
theorem RingBuffer.readSlot_eq [Inhabited α] {q : RingBuffer α} {c : Nat} {x : α}
    (h : q.store[c % q.cap]? = some x) : q.readSlot c = x := by
  simp [RingBuffer.readSlot, RingBuffer.slot, h]

/-- Every slot of a well-formed ring can be read. -/
theorem RingBuffer.slot_exists {q : RingBuffer α} (hc : 1 ≤ q.cap) (hl : q.store.length = q.cap)
    (c : Nat) : ∃ x, q.store[c % q.cap]? = some x :=
  ⟨_, List.getElem?_eq_getElem (by rw [hl]; exact Nat.mod_lt _ hc)⟩

@[simp] theorem RingBuffer.memRead_length [Inhabited α] (q : RingBuffer α) (c n : Nat) :
    (q.memRead c n).length = n := by simp [RingBuffer.memRead]

theorem RingBuffer.memRead_getElem? [Inhabited α] (q : RingBuffer α) (c n j : Nat) (h : j < n) :
    (q.memRead c n)[j]? = some (q.readSlot (c + j)) := by
  simp [RingBuffer.memRead, h]

@[simp] theorem RingBuffer.contents_length [Inhabited α] (q : RingBuffer α) :
    q.contents.length = q.occ := by simp [RingBuffer.contents]

theorem RingBuffer.contents_getElem? [Inhabited α] (q : RingBuffer α) (j : Nat) :
    q.contents[j]? = if j < q.occ then some (q.readSlot (q.rd + j)) else none := by
  split
  · exact q.memRead_getElem? _ _ _ ‹_›
  · exact List.getElem?_eq_none (by simp only [RingBuffer.contents_length]; omega)

theorem RingBuffer.memRead_split [Inhabited α] (q : RingBuffer α) (c a b : Nat) :
    q.memRead c (a + b) = q.memRead c a ++ q.memRead (c + a) b := by
  simp [RingBuffer.memRead, List.range_add, Nat.add_assoc]

theorem RingBuffer.memRead_cursor [Inhabited α] (q : RingBuffer α) (c n : Nat) :
    q.memRead (c % (2 * q.cap)) n = q.memRead c n := by
  simp only [RingBuffer.memRead, RingBuffer.readSlot, RingBuffer.slot, slot_of_advance]

theorem RingBuffer.memRead_congr [Inhabited α] {q q' : RingBuffer α} (hc : q'.cap = q.cap) {c n : Nat}
    (h : ∀ j, j < n → q'.store[(c + j) % q.cap]? = q.store[(c + j) % q.cap]?) :
    q'.memRead c n = q.memRead c n := by
  refine List.ext_getElem? fun j => ?_
  by_cases hj : j < n
  · rw [RingBuffer.memRead_getElem? _ _ _ _ hj, RingBuffer.memRead_getElem? _ _ _ _ hj]
    simp only [RingBuffer.readSlot, RingBuffer.slot, hc, List.getD_eq_getElem?_getD, h j hj]
  · rw [List.getElem?_eq_none (by simp; omega), List.getElem?_eq_none (by simp; omega)]

/-! ### Elements stored at the write cursor -/

/-- The result of a bulk write followed by its publication, as the spec words it (R115). -/
theorem RingBuffer.hasStored_pushed {q : RingBuffer α} (h : q.Ok) {v : List α}
    (hv : v.length ≤ q.cap - q.occ) :
    q.HasStored v ((q.memWrite q.wr v).publishWr v.length) := by
  obtain ⟨-, -, -, -, hl⟩ := h
  refine ⟨by simp [RingBuffer.publishWr], by simp [RingBuffer.publishWr],
    by simp [RingBuffer.publishWr, RingBuffer.advance], by simp [RingBuffer.publishWr], ?_, ?_⟩
  · intro j hj
    exact q.memWrite_slot _ _ hl (by omega) j hj
  · intro k hk
    exact q.memWrite_other _ _ _ hk

/-- Storing elements at the write cursor: well-formedness, occupied count and abstract value. -/
theorem RingBuffer.HasStored.spec [Inhabited α] {q q' : RingBuffer α} {v : List α} (h : q.Ok)
    (hv : v.length ≤ q.cap - q.occ) (hs : q.HasStored v q') :
    q'.Ok ∧ q'.occ = q.occ + v.length ∧ q'.contents = q.contents ++ v := by
  obtain ⟨hcap, hrd, hwr, hlen, hnew, hold⟩ := hs
  have hq := h
  obtain ⟨hc, hr, hw, hle, hl⟩ := hq
  have hc1 : 1 ≤ q.cap := hc.1
  have hocc : q'.occ = q.occ + v.length := by
    have := RingBuffer.occ_of_wr h (by omega) hwr q'.store
    rw [← this]
    simp [RingBuffer.occ, hcap, hrd]
  have hslot : ∀ j, (q.wr + j) % q.cap = (q.rd + (q.occ + j)) % q.cap := by
    intro j
    conv_lhs => rw [q.wr_eq hr hw]
    rw [slot_of_advance, Nat.add_assoc]
  refine ⟨⟨by rw [hcap]; exact hc, by rw [hcap, hrd]; exact hr, ?_, by omega, by omega⟩, hocc, ?_⟩
  · rw [hcap, hwr]; exact Nat.mod_lt _ (by omega)
  · unfold RingBuffer.contents
    rw [hocc, hrd, RingBuffer.memRead_split]
    congr 1
    · refine RingBuffer.memRead_congr hcap fun j hj => hold _ fun j' hj' he => ?_
      rw [hslot] at he
      have := slot_inj (by omega) (by omega) he
      omega
    · refine List.ext_getElem? fun j => ?_
      by_cases hj : j < v.length
      · rw [RingBuffer.memRead_getElem? _ _ _ _ hj]
        obtain ⟨x, hx⟩ : ∃ x, v[j]? = some x := ⟨_, List.getElem?_eq_getElem hj⟩
        rw [hx]
        congr 1
        apply RingBuffer.readSlot_eq
        rw [hcap, Nat.add_assoc, ← hslot, hnew j hj, hx]
      · rw [List.getElem?_eq_none (by simp; omega), List.getElem?_eq_none (by omega)]

/-- One stored element is a bulk of one. -/
theorem RingBuffer.hasStored_withPushed {q : RingBuffer α} (h : q.Ok) (x : α) :
    q.HasStored [x] (q.withPushed x) := by
  obtain ⟨hc, -, -, -, hl⟩ := h
  refine ⟨rfl, rfl, rfl, by simp [RingBuffer.withPushed], ?_, ?_⟩
  · intro j hj
    obtain rfl : j = 0 := by simpa using hj
    simp only [RingBuffer.withPushed, Nat.add_zero, List.getElem?_cons_zero]
    rw [List.getElem?_set_self (by rw [hl]; exact Nat.mod_lt _ (by omega))]
  · intro k hk
    have := hk 0 (by simp)
    simp only [RingBuffer.withPushed]
    rw [List.getElem?_set_ne (by simpa using this.symm)]

/-- Removing elements at the read cursor: well-formedness, occupied count and abstract value. -/
theorem RingBuffer.withRemoved_spec [Inhabited α] {q : RingBuffer α} (h : q.Ok) {n : Nat}
    (hn : n ≤ q.occ) :
    (q.withRemoved n).Ok ∧ (q.withRemoved n).occ = q.occ - n ∧
      (q.withRemoved n).contents = q.contents.drop n := by
  have hocc : (q.withRemoved n).occ = q.occ - n := RingBuffer.occ_of_rd h hn rfl
  obtain ⟨hc, hr, hw, hle, hl⟩ := h
  refine ⟨⟨hc, Nat.mod_lt _ (by omega), hw, by rw [hocc]; exact Nat.le_trans (Nat.sub_le _ _) hle, hl⟩,
    hocc, ?_⟩
  have hsplit : q.contents = q.memRead q.rd n ++ q.memRead (q.rd + n) (q.occ - n) := by
    rw [← RingBuffer.memRead_split, Nat.add_sub_cancel' hn]; rfl
  rw [hsplit, List.drop_left' (by simp)]
  unfold RingBuffer.contents
  rw [hocc, ← RingBuffer.memRead_cursor q (q.rd + n)]
  rfl

/-! ### The primitives, one lemma each: everything the primitive can do -/

/-- `PUSH` (R113). -/
theorem RingBuffer.push_cases (q : RingBuffer α) (x : α) :
    (q.occ = q.cap ∧ q.push x = (q, false)) ∨ (q.occ ≠ q.cap ∧ q.push x = (q.withPushed x, true)) := by
  unfold RingBuffer.push
  split
  · exact .inl ⟨‹_›, rfl⟩
  · exact .inr ⟨‹_›, rfl⟩

/-- `POP` (R114). -/
theorem RingBuffer.pop_cases [Inhabited α] (q : RingBuffer α) :
    (q.empty = true ∧ q.pop = (q, none)) ∨
      (q.empty = false ∧ q.pop = (q.withRemoved 1, some (q.readSlot q.rd))) := by
  unfold RingBuffer.pop
  cases h : q.empty
  · exact .inr ⟨rfl, rfl⟩
  · exact .inl ⟨rfl, rfl⟩

/-- `PUSH_BULK` (R115). -/
theorem RingBuffer.pushBulk_cases (q : RingBuffer α) (v : List α) :
    (q.cap - q.occ < v.length ∧ q.pushBulk v = (q, false)) ∨
      (v.length ≤ q.cap - q.occ ∧
        q.pushBulk v = ((q.memWrite q.wr v).publishWr v.length, true)) := by
  unfold RingBuffer.pushBulk
  split
  · exact .inl ⟨‹_›, rfl⟩
  · exact .inr ⟨by omega, rfl⟩

/-- `POP_BULK` (R116). -/
theorem RingBuffer.popBulk_cases [Inhabited α] (q : RingBuffer α) (n : Nat) :
    (q.occ < n ∧ q.popBulk n = (q, none)) ∨
      (n ≤ q.occ ∧ q.popBulk n = (q.withRemoved n, some (q.memRead q.rd n))) := by
  unfold RingBuffer.popBulk
  split
  · exact .inl ⟨‹_›, rfl⟩
  · exact .inr ⟨by omega, rfl⟩

/-- The elements a bulk read returns are the oldest of the abstract value. -/
theorem RingBuffer.memRead_rd [Inhabited α] (q : RingBuffer α) {n : Nat} (h : n ≤ q.occ) :
    q.memRead q.rd n = q.contents.take n := by
  have hsplit : q.contents = q.memRead q.rd n ++ q.memRead (q.rd + n) (q.occ - n) := by
    rw [← RingBuffer.memRead_split, Nat.add_sub_cancel' h]; rfl
  rw [hsplit, List.take_left' (by simp)]

/-- A bulk read of a well-formed ring, slot by slot (R10). -/
theorem RingBuffer.slotsAre_memRead [Inhabited α] {q : RingBuffer α} (h : q.Ok) (c n : Nat) :
    q.SlotsAre c n (q.memRead c n) := by
  refine ⟨by simp, fun j hj => ?_⟩
  obtain ⟨x, hx⟩ := RingBuffer.slot_exists h.1.1 h.2.2.2.2 (c + j)
  rw [RingBuffer.memRead_getElem? _ _ _ _ hj, hx, RingBuffer.readSlot_eq hx]

/-- An emptied ring: well formed and without contents (R134). -/
theorem RingBuffer.restart_spec [Inhabited α] {q : RingBuffer α} (h : q.Ok) :
    q.restart.Ok ∧ q.restart.occ = 0 ∧ q.restart.contents = [] := by
  obtain ⟨hc, hr, hw, hle, hl⟩ := h
  have hocc : q.restart.occ = 0 := by simp [RingBuffer.restart, RingBuffer.occ]
  refine ⟨⟨hc, by simp only [RingBuffer.restart]; omega, by simp only [RingBuffer.restart]; omega,
    by omega, hl⟩, hocc, ?_⟩
  exact List.length_eq_zero_iff.mp (by simp [hocc])

end Sys2Proof.Machine
end

