-- ==== Sys2Proof/Laws/State.lean ====
section
/-!
SUPPORT. The small lemmas of the state: one per field per update, and the few facts about channel access
from which every operation's effect on the whole state follows.
-/

namespace Sys2Proof.Machine

/-! ### One lemma per field per update -/

section fields
variable (s : State) (l : Lane) (i : Nat) (c : Channel) (calls : List DrvCall) (d : Draws)
  (ch : Byte) (r : Reply) (e : Code) (v : Half) (p : List Word) (o : OpReturn) (k : DrvCall)

@[simp] theorem State.commit_ch : (s.commit l).ch = s.ch.set l.inst l.chan := rfl
@[simp] theorem State.commit_env : (s.commit l).env = s.env.set l.inst l.draws := rfl
@[simp] theorem State.commit_drvTrace :
    (s.commit l).drvTrace = s.drvTrace ++ l.calls.map fun d => { inst := l.inst, call := d } := rfl
@[simp] theorem State.commit_fClk : (s.commit l).fClk = s.fClk := rfl
@[simp] theorem State.commit_cmdBuf : (s.commit l).cmdBuf = s.cmdBuf := rfl
@[simp] theorem State.commit_responses : (s.commit l).responses = s.responses := rfl
@[simp] theorem State.commit_stimulus : (s.commit l).stimulus = s.stimulus := rfl
@[simp] theorem State.commit_opReturns : (s.commit l).opReturns = s.opReturns := rfl

@[simp] theorem State.respond_ch : (s.respond ch r).ch = s.ch := rfl
@[simp] theorem State.respond_env : (s.respond ch r).env = s.env := rfl
@[simp] theorem State.respond_drvTrace : (s.respond ch r).drvTrace = s.drvTrace := rfl
@[simp] theorem State.respond_fClk : (s.respond ch r).fClk = s.fClk := rfl
@[simp] theorem State.respond_cmdBuf : (s.respond ch r).cmdBuf = s.cmdBuf := rfl
@[simp] theorem State.respond_responses : (s.respond ch r).responses =
    s.responses ++ [{ code := r.code, ch := ch, value := r.value, payload := r.payload }] := rfl
@[simp] theorem State.respond_stimulus : (s.respond ch r).stimulus = s.stimulus := rfl
@[simp] theorem State.respond_opReturns : (s.respond ch r).opReturns = s.opReturns := rfl

@[simp] theorem State.updated_ch : (s.updated i c calls).ch = s.ch.set i c := rfl
@[simp] theorem State.updated_env : (s.updated i c calls).env = s.env := rfl
@[simp] theorem State.updated_drvTrace : (s.updated i c calls).drvTrace =
    s.drvTrace ++ calls.map fun d => { inst := i, call := d } := rfl
@[simp] theorem State.updated_fClk : (s.updated i c calls).fClk = s.fClk := rfl
@[simp] theorem State.updated_cmdBuf : (s.updated i c calls).cmdBuf = s.cmdBuf := rfl
@[simp] theorem State.updated_responses : (s.updated i c calls).responses = s.responses := rfl
@[simp] theorem State.updated_stimulus : (s.updated i c calls).stimulus = s.stimulus := rfl
@[simp] theorem State.updated_opReturns : (s.updated i c calls).opReturns = s.opReturns := rfl

@[simp] theorem State.withDraws_ch : (s.withDraws i d).ch = s.ch := rfl
@[simp] theorem State.withDraws_env : (s.withDraws i d).env = s.env.set i d := rfl
@[simp] theorem State.withDraws_drvTrace : (s.withDraws i d).drvTrace = s.drvTrace := rfl
@[simp] theorem State.withDraws_fClk : (s.withDraws i d).fClk = s.fClk := rfl
@[simp] theorem State.withDraws_cmdBuf : (s.withDraws i d).cmdBuf = s.cmdBuf := rfl
@[simp] theorem State.withDraws_responses : (s.withDraws i d).responses = s.responses := rfl
@[simp] theorem State.withDraws_stimulus : (s.withDraws i d).stimulus = s.stimulus := rfl
@[simp] theorem State.withDraws_opReturns : (s.withDraws i d).opReturns = s.opReturns := rfl

@[simp] theorem State.answered_ch : (s.answered ch e v p).ch = s.ch := rfl
@[simp] theorem State.answered_env : (s.answered ch e v p).env = s.env := rfl
@[simp] theorem State.answered_drvTrace : (s.answered ch e v p).drvTrace = s.drvTrace := rfl
@[simp] theorem State.answered_fClk : (s.answered ch e v p).fClk = s.fClk := rfl
@[simp] theorem State.answered_cmdBuf : (s.answered ch e v p).cmdBuf = s.cmdBuf := rfl
@[simp] theorem State.answered_responses : (s.answered ch e v p).responses =
    s.responses ++ [{ code := e, ch := ch, value := v, payload := p }] := rfl
@[simp] theorem State.answered_stimulus : (s.answered ch e v p).stimulus = s.stimulus := rfl
@[simp] theorem State.answered_opReturns : (s.answered ch e v p).opReturns = s.opReturns := rfl

@[simp] theorem State.returned_ch : (s.returned o).ch = s.ch := rfl
@[simp] theorem State.returned_env : (s.returned o).env = s.env := rfl
@[simp] theorem State.returned_drvTrace : (s.returned o).drvTrace = s.drvTrace := rfl
@[simp] theorem State.returned_fClk : (s.returned o).fClk = s.fClk := rfl
@[simp] theorem State.returned_cmdBuf : (s.returned o).cmdBuf = s.cmdBuf := rfl
@[simp] theorem State.returned_responses : (s.returned o).responses = s.responses := rfl
@[simp] theorem State.returned_stimulus : (s.returned o).stimulus = s.stimulus := rfl
@[simp] theorem State.returned_opReturns : (s.returned o).opReturns = s.opReturns ++ [o] := rfl

@[simp] theorem Lane.call_inst : (l.call k).inst = l.inst := rfl
@[simp] theorem Lane.call_chan : (l.call k).chan = l.chan := rfl
@[simp] theorem Lane.call_draws : (l.call k).draws = l.draws := rfl
@[simp] theorem Lane.call_calls : (l.call k).calls = l.calls ++ [k] := rfl

end fields

/-! ### Lists -/

/-- Writing back what was read changes nothing. -/
theorem set_getD_self {α : Type} (xs : List α) (i : Nat) (d : α) : xs.set i (xs.getD i d) = xs := by
  refine List.ext_getElem? fun j => ?_
  by_cases h : i = j
  · subst h
    by_cases hi : i < xs.length
    · simp [List.getD, List.getElem?_eq_getElem hi]
    · rw [List.getElem?_eq_none (by simpa using hi), List.getElem?_eq_none (by simpa using hi)]
  · rw [List.getElem?_set_ne h]

/-- Writing back the element that stands there changes nothing. -/
theorem set_getElem?_self {α : Type} {xs : List α} {i : Nat} {x : α} (h : xs[i]? = some x) :
    xs.set i x = xs := by
  have : xs.getD i x = x := by simp [h]
  conv_lhs => rw [← this]
  exact set_getD_self xs i x

/-! ### Channel access -/

/-- The lane of a channel of the table. -/
theorem State.lane_of_channel {s : State} {i : Nat} {c : Channel} (h : s.ch[i]? = some c) :
    s.lane i = some { inst := i, chan := c, draws := s.drawsAt i, calls := [] } := by
  simp [State.lane, State.drawsAt, h]

/-- No channel, no lane. -/
theorem State.lane_of_absent {s : State} {i : Nat} (h : s.ch.length ≤ i) : s.lane i = none := by
  simp [State.lane, List.getElem?_eq_none h]

/-- A lane is the channel's record, the instance's draws and no calls yet. -/
theorem State.lane_cases (s : State) (i : Nat) :
    (s.ch[i]? = none ∧ s.ch.length ≤ i ∧ s.lane i = none) ∨
      ∃ c, s.ch[i]? = some c ∧ i < s.ch.length ∧
        s.lane i = some { inst := i, chan := c, draws := s.drawsAt i, calls := [] } := by
  cases h : s.ch[i]? with
  | none => exact .inl ⟨rfl, by simpa using h, State.lane_of_absent (by simpa using h)⟩
  | some c =>
    refine .inr ⟨c, rfl, ?_, State.lane_of_channel h⟩
    exact (List.getElem?_eq_some_iff.mp h).1

/-- A commit as replaced draws, a replaced record and added calls. -/
theorem State.commit_eq (s : State) (l : Lane) :
    s.commit l = (s.withDraws l.inst l.draws).updated l.inst l.chan l.calls := rfl

@[simp] theorem State.withDraws_self (s : State) (i : Nat) : s.withDraws i (s.drawsAt i) = s := by
  have h := set_getD_self s.env i Draws.fresh
  unfold State.withDraws State.drawsAt
  rw [h]

/-- A record replaced by itself with no call is no change. -/
theorem State.updated_self {s : State} {i : Nat} {c : Channel} (h : s.ch[i]? = some c) :
    s.updated i c [] = s := by
  simp [State.updated, set_getElem?_self h]

/-- A lane committed as it was taken is no change. -/
theorem State.commit_self {s : State} {i : Nat} {c : Channel} (h : s.ch[i]? = some c) :
    s.commit { inst := i, chan := c, draws := s.drawsAt i, calls := [] } = s := by
  rw [State.commit_eq, State.withDraws_self, State.updated_self h]

/-- The record a commit leaves at its own channel. -/
theorem State.commit_ch_self {s : State} {l : Lane} (h : l.inst < s.ch.length) :
    (s.commit l).ch[l.inst]? = some l.chan := by
  simp [h]

/-- A commit leaves every other channel's record. -/
theorem State.commit_ch_ne {s : State} {l : Lane} {k : Nat} (h : k ≠ l.inst) :
    (s.commit l).ch[k]? = s.ch[k]? := by
  simp [List.getElem?_set_ne (Ne.symm h)]

/-- A commit leaves every other instance's draws. -/
theorem State.commit_env_ne {s : State} {l : Lane} {k : Nat} (h : k ≠ l.inst) :
    (s.commit l).env[k]? = s.env[k]? := by
  simp [List.getElem?_set_ne (Ne.symm h)]

/-- The calls a trace shows for an instance, over two stretches. -/
theorem callsOf_append (i : Nat) (a b : List DrvEntry) :
    callsOf i (a ++ b) = callsOf i a ++ callsOf i b := by
  simp [callsOf]

/-- Calls of one instance, seen for that instance. -/
theorem callsOf_self (i : Nat) (calls : List DrvCall) :
    callsOf i (calls.map fun d => { inst := i, call := d }) = calls := by
  induction calls with
  | nil => rfl
  | cons d ds ih =>
    simp [callsOf] at ih ⊢
    exact ih

/-- Calls of one instance, seen for another. -/
theorem callsOf_other {i k : Nat} (h : k ≠ i) (calls : List DrvCall) :
    callsOf k (calls.map fun d => { inst := i, call := d }) = [] := by
  induction calls with
  | nil => rfl
  | cons d ds ih => simp [callsOf, Ne.symm h]

/-! ### How commands and internal operations end: everything they can do -/

/-- A command on one channel (R92, R95 c). -/
theorem State.command_cases (s : State) (ch : Byte) (body : Lane → Lane × Reply) :
    (s.ch.length ≤ ch.toNat ∧ s.command ch body = s.answered ch .illegalCommand 0 []) ∨
      ∃ c, s.ch[ch.toNat]? = some c ∧
        ∀ l, l = ({ inst := ch.toNat, chan := c, draws := s.drawsAt ch.toNat, calls := [] } : Lane) →
          s.command ch body = (s.commit (body l).1).answered ch (body l).2.code (body l).2.value
            (body l).2.payload := by
  rcases s.lane_cases ch.toNat with ⟨-, hlen, hl⟩ | ⟨c, hc, -, hl⟩
  · exact .inl ⟨hlen, by unfold State.command; rw [hl]; rfl⟩
  · refine .inr ⟨c, hc, ?_⟩
    rintro l rfl
    unfold State.command
    rw [hl]
    rfl

/-- A command on a channel of the table. -/
theorem State.command_of_channel {s : State} {ch : Byte} {c : Channel} (h : s.ch[ch.toNat]? = some c)
    (body : Lane → Lane × Reply) :
    s.command ch body =
      (s.commit (body { inst := ch.toNat, chan := c, draws := s.drawsAt ch.toNat, calls := [] }).1).respond
        ch (body { inst := ch.toNat, chan := c, draws := s.drawsAt ch.toNat, calls := [] }).2 := by
  unfold State.command
  rw [State.lane_of_channel h]

/-- A command on a channel that the table does not have. -/
theorem State.command_of_absent {s : State} {ch : Byte} (h : s.ch.length ≤ ch.toNat)
    (body : Lane → Lane × Reply) : s.command ch body = s.answered ch .illegalCommand 0 [] := by
  unfold State.command
  rw [State.lane_of_absent h]
  rfl

/-- A body behind the Ready check (R132, R170). -/
theorem whenReady_of_ready {l : Lane} (h : l.chan.status = .ready) (body : Lane → Lane × Reply) :
    whenReady body l = body l := if_pos h

theorem whenReady_of_not {l : Lane} (h : l.chan.status ≠ .ready) (body : Lane → Lane × Reply) :
    whenReady body l = (l, .raise .notReady) := if_neg h

/-- A body that leaves its lane answers and changes nothing else. -/
theorem State.command_only_answers {s : State} {ch : Byte} {c : Channel}
    (h : s.ch[ch.toNat]? = some c) {body : Lane → Lane × Reply} {r : Reply}
    (hb : body { inst := ch.toNat, chan := c, draws := s.drawsAt ch.toNat, calls := [] } =
      ({ inst := ch.toNat, chan := c, draws := s.drawsAt ch.toNat, calls := [] }, r)) :
    s.command ch body = s.answered ch r.code r.value r.payload := by
  rw [State.command_of_channel h, hb]
  simp only [State.commit_self h]
  rfl

/-- An internal operation executed by itself on a channel of the table. -/
theorem State.internal_of_channel {s : State} {ch : Byte} {c : Channel}
    (h : s.ch[ch.toNat]? = some c) (body : Lane → Lane) :
    s.internal ch body =
      .next (s.commit
        (body { inst := ch.toNat, chan := c, draws := s.drawsAt ch.toNat, calls := [] })) := by
  unfold State.internal
  rw [State.lane_of_channel h]

/-- An internal operation with a value, executed by itself on a channel of the table. -/
theorem State.internalReturning_of_channel {s : State} {ch : Byte} {c : Channel}
    (h : s.ch[ch.toNat]? = some c) (body : Lane → Lane × OpReturn) :
    s.internalReturning ch body =
      .next ((s.commit
        (body { inst := ch.toNat, chan := c, draws := s.drawsAt ch.toNat, calls := [] }).1).returned
        (body { inst := ch.toNat, chan := c, draws := s.drawsAt ch.toNat, calls := [] }).2) := by
  unfold State.internalReturning
  rw [State.lane_of_channel h]
  rfl

end Sys2Proof.Machine
end

