-- ==== Sys2Proof/Laws/Lane.lean ====
section
/-!
SUPPORT. What each operation on one channel does to the lane, said once in the spec's own terms: the
record, the draws, the calls.
-/

namespace Sys2Proof.Machine

/-- The saturating increment, by cases (R8). -/
theorem satInc_eq (v : Half) : satInc v = if v = 0xFFFF then 0xFFFF else v + 1 := by
  unfold satInc
  by_cases h : v = 0xFFFF
  · subst h; rfl
  · rw [if_neg h, if_pos]
    have : v.toNat ≠ 65535 := fun e => h (BitVec.eq_of_toNat_eq e)
    omega

/-- The saturating increment never answers 0 (R166). -/
theorem satInc_ne_zero (v : Half) : satInc v ≠ 0 := by
  rw [satInc_eq]
  split
  · decide
  · rename_i h
    intro e
    have := congrArg BitVec.toNat e
    have hv : v.toNat ≠ 65535 := fun e => h (BitVec.eq_of_toNat_eq e)
    have hlt := v.isLt
    simp only [BitVec.toNat_add, BitVec.ofNat_eq_ofNat, BitVec.toNat_ofNat] at this
    omega

/-! ### Draws -/

/-- The value and the lane of each environment access. -/
theorem Lane.readStatusFlags_eq (l : Lane) : l.readStatusFlags =
    ((l.draws.flags.draw (Config.freeFlags l.inst)).1,
      { l with draws := l.draws.tookFlags l.inst
               calls := l.calls ++
                 [.readStatusFlags (l.draws.flags.draw (Config.freeFlags l.inst)).1] }) := rfl

theorem Lane.readDataRegister_eq (l : Lane) : l.readDataRegister =
    ((l.draws.data.draw (Config.freeData l.inst)).1,
      { l with draws := l.draws.tookData l.inst
               calls := l.calls ++
                 [.readDataRegister (l.draws.data.draw (Config.freeData l.inst)).1] }) := rfl

theorem Lane.configure_eq (l : Lane) (o : InitOptions) (f : Word) : l.configure o f =
    ((l.draws.config.draw (Config.freeConfigure l.inst)).1,
      { l with draws := l.draws.tookConfigure l.inst
               calls := l.calls ++ [.configure o.baud o.charLength o.parity o.stopBits f
                 (l.draws.config.draw (Config.freeConfigure l.inst)).1] }) := rfl

theorem Lane.timeNow_eq (l : Lane) : l.timeNow =
    ((l.draws.time.draw (Config.freeTime l.inst)).1,
      { l with draws := l.draws.tookTime l.inst }) := rfl

/-- The time the next `Time.now()` on the lane answers. -/
def Lane.now (l : Lane) : Word := (l.draws.time.draw (Config.freeTime l.inst)).1

/-- The byte the next data-register read on the lane answers. -/
def Lane.data (l : Lane) : Byte := (l.draws.data.draw (Config.freeData l.inst)).1

/-- The flags the next status read on the lane answers. -/
def Lane.flags (l : Lane) : Word := (l.draws.flags.draw (Config.freeFlags l.inst)).1

/-! ### The correlator (R161) -/

theorem accumulate_eq (l : Lane) : accumulate l =
    { l with chan := { l.chan with runStart := l.chan.nextRunStart l.now
                                   runLength := l.chan.nextRunLength }
             draws := l.chan.observeDraws l.inst l.draws } := by
  unfold accumulate Channel.nextRunStart Channel.nextRunLength Channel.observeDraws
  by_cases h : l.chan.runLength = 0
  · simp only [h, if_pos]
    rfl
  · simp only [h, if_false, satInc_eq]

/-- `OBSERVE` on a lane: everything it can do. -/
theorem observe_eq (b : Byte) (l : Lane) : observe b l =
    { l with chan := l.chan.observed b l.now
             draws := l.chan.observeDraws l.inst l.draws } := by
  unfold observe
  rw [accumulate_eq]
  unfold Channel.observed
  by_cases h : b = l.chan.marker
  · simp only [h, if_pos, ne_eq, not_true_eq_false, if_false, closeRun, closingRecord]
    rcases l.chan.ts.push_cases (closingRecord
        { l.chan with runStart := l.chan.nextRunStart l.now, runLength := l.chan.nextRunLength }) with
      ⟨hf, hp⟩ | ⟨hf, hp⟩
    · simp only [closingRecord] at hp
      simp only [hf, if_pos, hp, Bool.not_false, Bool.or_true]
    · simp only [closingRecord] at hp
      simp only [hf, if_false, hp, Bool.not_true, Bool.or_false]
      rfl
  · simp only [h, if_false, ne_eq, not_false_eq_true, if_pos]

/-! ### The receive side (R144 to R147) -/

theorem overflow_eq (l : Lane) : overflow l = { l with chan := l.chan.overflowed } := by
  simp only [overflow, Channel.overflowed, satInc_eq]

/-- A byte accepted on a lane with room. -/
theorem acceptByte_eq {l : Lane} (b : Byte) (h : l.chan.rx.occ ≠ l.chan.rx.cap) :
    acceptByte b l =
      { l with chan := l.chan.accepted b l.now, draws := l.chan.acceptDraws l.inst l.draws } := by
  rcases l.chan.rx.push_cases b with ⟨hf, -⟩ | ⟨-, hp⟩
  · exact absurd hf h
  · unfold acceptByte Channel.accepted Channel.acceptDraws
    simp only [hp]
    by_cases ht : l.chan.tsEnable = true
    · simp only [ht, if_pos, observe_eq]
      rfl
    · simp only [ht]
      rfl

/-- `RX_PUMP` under ALWAYS_DRAIN on a lane: everything it can do. -/
theorem rxPumpAlwaysDrain_eq (l : Lane) : rxPumpAlwaysDrain l =
    { l with
      chan := if l.chan.rx.occ = l.chan.rx.cap then l.chan.overflowed
              else l.chan.accepted l.data l.now
      draws := if l.chan.rx.occ = l.chan.rx.cap then l.draws.tookData l.inst
               else l.chan.acceptDraws l.inst (l.draws.tookData l.inst)
      calls := l.calls ++ [.readDataRegister l.data] } := by
  unfold rxPumpAlwaysDrain
  rw [Lane.readDataRegister_eq]
  simp only
  rcases l.chan.rx.push_cases l.data with ⟨hf, hp⟩ | ⟨hf, hp⟩ <;> unfold Lane.data at hp <;>
    simp only [hp, hf, if_pos, if_false, Bool.false_eq_true]
  · rw [overflow_eq]
    rfl
  · rw [acceptByte_eq _ (by exact hf)]
    rfl

/-- `RX_PUMP` under DRAIN_WHEN_EMPTY on a lane: everything it can do. -/
theorem rxPumpDrainWhenEmpty_eq {l : Lane} (h : l.chan.rx.Ok) : rxPumpDrainWhenEmpty l =
    if l.chan.rx.occ = 0 then
      { l with
        chan := l.chan.accepted l.data l.now
        draws := l.chan.acceptDraws l.inst (l.draws.tookData l.inst)
        calls := l.calls ++ [.readDataRegister l.data] }
    else l := by
  unfold rxPumpDrainWhenEmpty
  have he := RingBuffer.empty_iff h.2.1 h.2.2.1
  by_cases h0 : l.chan.rx.occ = 0
  · rw [if_pos (he.mpr h0), if_pos h0, Lane.readDataRegister_eq]
    simp only
    rw [acceptByte_eq _ (by simp only; omega)]
    rfl
  · rw [if_neg (fun hc => h0 (he.mp hc)), if_neg h0]

/-- `RX_PUMP` of the channel's policy on a lane: everything it can do. -/
theorem rxPump_eq {l : Lane} (h : l.chan.rx.Ok) : rxPump l =
    { l with
      chan := l.chan.received l.data l.now
      draws := l.chan.receiveDraws l.inst l.draws
      calls := l.calls ++ l.chan.receiveCalls l.data } := by
  unfold rxPump Channel.received Channel.receiveDraws Channel.receiveCalls
  cases hp : l.chan.policy
  · simp only [rxPumpAlwaysDrain_eq, reduceCtorEq, false_and, if_false]
  · simp only [rxPumpDrainWhenEmpty_eq h, true_and]
    by_cases h0 : l.chan.rx.occ = 0
    · simp [h0]
    · simp [h0]

/-! ### The transmit side (R143, R171) -/

/-- `TX_PUMP` on a lane: everything it can do. -/
theorem txPump_eq {l : Lane} (h : l.chan.tx.Ok) : txPump l =
    { l with
      chan := l.chan.transmitted
      calls := l.calls ++ l.chan.transmitCalls (l.chan.tx.readSlot l.chan.tx.rd) } := by
  have he := RingBuffer.empty_iff h.2.1 h.2.2.1
  unfold txPump Channel.transmitted Channel.transmitCalls
  rcases l.chan.tx.pop_cases with ⟨hf, hp⟩ | ⟨hf, hp⟩
  · simp [hp, he.mp hf, Lane.call]
  · have h0 : l.chan.tx.occ ≠ 0 := fun h0 => by simp [he.mpr h0] at hf
    simp [hp, h0, Lane.call]

/-- `ARM_TX` on a lane: everything it can do. -/
theorem armTx_eq (l : Lane) : armTx l =
    { l with chan := { l.chan with txArmed := true }, calls := l.calls ++ l.chan.armCalls } := by
  unfold armTx Channel.armCalls
  cases h : l.chan.txArmed
  · simp [Lane.call]
  · cases l with
    | mk inst chan draws calls =>
      cases chan
      simp_all

/-! ### The event (R140) -/

/-- `DISPATCH` on the lane of a Ready channel: everything it can do. -/
theorem dispatchReady_eq {l : Lane} (hr : l.chan.rx.Ok) (ht : l.chan.tx.Ok) : dispatchReady l =
    let transmit := l.flags.getLsbD 1 = true ∧ l.chan.txArmed = true
    let c1 := if transmit then l.chan.transmitted else l.chan
    let d := l.draws.tookFlags l.inst
    { l with
      chan := if l.flags.getLsbD 0 = true then c1.received l.data l.now else c1
      draws := if l.flags.getLsbD 0 = true then l.chan.receiveDraws l.inst d else d
      calls := l.calls ++ ([.readStatusFlags l.flags] ++
        (if transmit then l.chan.transmitCalls (l.chan.tx.readSlot l.chan.tx.rd) else []) ++
        if l.flags.getLsbD 0 = true then l.chan.receiveCalls l.data else []) } := by
  have hrx : l.chan.transmitted.rx = l.chan.rx := by unfold Channel.transmitted; split <;> rfl
  have hpo : l.chan.transmitted.policy = l.chan.policy := by
    unfold Channel.transmitted; split <;> rfl
  have hte : l.chan.transmitted.tsEnable = l.chan.tsEnable := by
    unfold Channel.transmitted; split <;> rfl
  have hrl : l.chan.transmitted.runLength = l.chan.runLength := by
    unfold Channel.transmitted; split <;> rfl
  unfold dispatchReady
  rw [Lane.readStatusFlags_eq]
  simp only [txReady, rxReady, Bool.and_eq_true]
  change (if l.flags.getLsbD 0 = true then
      rxPump (if l.flags.getLsbD 1 = true ∧ l.chan.txArmed = true then _ else _)
    else if l.flags.getLsbD 1 = true ∧ l.chan.txArmed = true then _ else _) = _
  by_cases hx : l.flags.getLsbD 1 = true ∧ l.chan.txArmed = true
  · simp only [if_pos hx]
    rw [txPump_eq (by exact ht)]
    by_cases hf : l.flags.getLsbD 0 = true
    · simp only [if_pos hf]
      rw [rxPump_eq (by rw [hrx]; exact hr)]
      simp only [Channel.receiveDraws, Channel.receiveCalls, Channel.acceptDraws,
        Channel.observeDraws, hrx, hpo, hte, hrl, List.append_assoc]
      rfl
    · simp only [if_neg hf, List.append_nil, List.append_assoc]
      rfl
  · simp only [if_neg hx]
    by_cases hf : l.flags.getLsbD 0 = true
    · simp only [if_pos hf]
      rw [rxPump_eq (by exact hr)]
      simp only [List.append_nil, List.append_assoc]
      rfl
    · simp only [if_neg hf, List.append_nil]
      rfl

end Sys2Proof.Machine
end

