-- ==== Sys2Proof/Laws/Exec.lean ====
section
/-!
SUPPORT. What `exec` can do, said once for every operation that names a channel: it acts on that
channel's lane, may answer, may return a value, and does nothing else.
-/

namespace Sys2Proof.Machine

/-- What an operation does to the lane of its channel, with its answer and its returned value. -/
def laneOp (fClk : Word) (i : Instr) (l : Lane) : Lane × Option Reply × Option OpReturn :=
  let answering (r : Lane × Reply) : Lane × Option Reply × Option OpReturn := (r.1, some r.2, none)
  let returning (r : Lane × OpReturn) : Lane × Option Reply × Option OpReturn := (r.1, none, some r.2)
  match i with
  | .init _ o => answering (initBody o fClk l)
  | .sendByte _ b => answering (whenReady (sendByteBody b) l)
  | .sendBytes _ v => answering (whenReady (sendBytesBody v) l)
  | .available _ => answering (whenReady availableBody l)
  | .readByte _ => answering (whenReady readByteBody l)
  | .readBytes _ n => answering (whenReady (readBytesBody n) l)
  | .tsAvailable _ => answering (whenReady tsAvailableBody l)
  | .tsAvailableAll => (l, none, none)
  | .tsRead _ => answering (whenReady tsReadBody l)
  | .status _ => answering (statusBody l)
  | .dispatch _ => (if l.chan.status = .ready then dispatchReady l else l, none, none)
  | .txPump _ => (txPump l, none, none)
  | .rxPumpAlwaysDrain _ => (rxPumpAlwaysDrain l, none, none)
  | .rxPumpDrainWhenEmpty _ => (rxPumpDrainWhenEmpty l, none, none)
  | .overflow _ => (overflow l, none, none)
  | .observe _ b => (observe b l, none, none)
  | .armTx _ => (armTx l, none, none)
  | .push _ item => returning (pushOn item l)
  | .pop _ ring => returning (popOn ring l)
  | .pushBulk _ items => returning (pushBulkOn items l)
  | .popBulk _ ring n => returning (popBulkOn ring n l)
  | .occupiedCount _ ring => returning (occupiedCountOn ring l)
  | .isEmpty _ ring => returning (isEmptyOn ring l)
  | .peek _ ring => returning (peekOn ring l)

/-- The state after an operation on one channel: the lane committed, the answer and the returned value
appended. -/
def State.finish (s : State) (ch : Byte) (r : Lane × Option Reply × Option OpReturn) : State :=
  { s.commit r.1 with
    responses := s.responses ++ (r.2.1.map fun a =>
      ({ code := a.code, ch := ch, value := a.value, payload := a.payload } : Response)).toList
    opReturns := s.opReturns ++ r.2.2.toList }

/-- The lane of a channel record before the operation. -/
abbrev State.laneOf (s : State) (ch : Byte) (c : Channel) : Lane :=
  { inst := ch.toNat, chan := c, draws := s.drawsAt ch.toNat, calls := [] }

theorem State.finish_answering (s : State) (ch : Byte) (l : Lane) (r : Reply) :
    s.finish ch (l, some r, none) = (s.commit l).respond ch r := by
  simp [State.finish, State.commit, State.respond]

theorem State.finish_returning (s : State) (ch : Byte) (l : Lane) (r : OpReturn) :
    s.finish ch (l, none, some r) = (s.commit l).returned r := by
  simp [State.finish, State.commit, State.returned]

theorem State.finish_silent (s : State) (ch : Byte) (l : Lane) :
    s.finish ch (l, none, none) = s.commit l := by
  simp [State.finish, State.commit]

/-- Every operation that names a channel of the table completes, and this is what it does. -/
theorem exec_of_channel {s : State} {i : Instr} {ch : Byte} {c : Channel} (hi : i.channel = some ch)
    (h : s.ch[ch.toNat]? = some c) :
    exec i s = .next (s.finish ch (laneOp s.fClk i (s.laneOf ch c))) := by
  cases i <;> simp only [Instr.channel, Option.some.injEq, reduceCtorEq] at hi
  case dispatch id =>
    subst hi
    simp only [exec, execDispatch, dispatch, State.lane_of_channel h, laneOp, State.finish_silent]
    split
    · rfl
    · rw [State.commit_self h]
  all_goals
    subst hi
    simp only [exec, execInit, execSendByte, execSendBytes, execAvailable, execReadByte, execReadBytes,
      execTsAvailable, execTsRead, execStatus, execTxPump, execRxPumpAlwaysDrain,
      execRxPumpDrainWhenEmpty, execOverflow, execObserve, execArmTx, execPush, execPop, execPushBulk,
      execPopBulk, execOccupiedCount, execIsEmpty, execPeek, State.command_of_channel h,
      State.internal_of_channel h, State.internalReturning_of_channel h, laneOp,
      State.finish_answering, State.finish_returning, State.finish_silent]

/-- An operation that names a channel the table does not have: a command is answered IllegalCommand, an
event does nothing, an internal operation stops. -/
theorem exec_of_absent {s : State} {i : Instr} {ch : Byte} (hi : i.channel = some ch)
    (h : s.ch.length ≤ ch.toNat) :
    exec i s = if i.isCommand then .next (s.answered ch .illegalCommand 0 [])
      else if i.requestable then .next s else .fault (.noSuchChannel ch) := by
  have hl := State.lane_of_absent h
  cases i <;> simp only [Instr.channel, Option.some.injEq, reduceCtorEq] at hi
  case dispatch id =>
    subst hi
    simp [exec, execDispatch, dispatch, hl, Instr.isCommand, Instr.requestable]
  all_goals
    subst hi
    simp only [exec, execInit, execSendByte, execSendBytes, execAvailable, execReadByte, execReadBytes,
      execTsAvailable, execTsRead, execStatus, execTxPump, execRxPumpAlwaysDrain,
      execRxPumpDrainWhenEmpty, execOverflow, execObserve, execArmTx, execPush, execPop, execPushBulk,
      execPopBulk, execOccupiedCount, execIsEmpty, execPeek, State.command_of_absent h,
      State.internal, State.internalReturning, hl, Instr.isCommand, Instr.requestable, if_true, if_false,
      Bool.false_eq_true]

/-- What an operation that answers a next state has done: its work on a channel's lane, or, for a
command, one response and nothing else, or, for an event, nothing. -/
theorem exec_cases {s t : State} {i : Instr} (h : exec i s = .next t) :
    (∃ ch c, i.channel = some ch ∧ s.ch[ch.toNat]? = some c ∧
        t = s.finish ch (laneOp s.fClk i (s.laneOf ch c))) ∨
      (i.isCommand = true ∧ ∃ r, t = { s with responses := s.responses ++ [r] }) ∨ t = s := by
  cases hi : i.channel with
  | none =>
    cases i <;> simp only [Instr.channel, reduceCtorEq] at hi
    simp only [exec, execTsAvailableAll, Host.Outcome.next.injEq] at h
    exact .inr (.inl ⟨rfl, _, h.symm⟩)
  | some ch =>
    rcases s.lane_cases ch.toNat with ⟨-, hl, -⟩ | ⟨c, hc, -, -⟩
    · rw [exec_of_absent hi hl] at h
      split at h
      · cases h
        exact .inr (.inl ⟨‹_›, _, rfl⟩)
      · split at h
        · cases h
          exact .inr (.inr rfl)
        · cases h
    · rw [exec_of_channel hi hc] at h
      cases h
      exact .inl ⟨ch, c, rfl, hc, rfl⟩

end Sys2Proof.Machine
end

