-- ==== Sys2Proof/Laws/Step.lean ====
section
/-!
SUPPORT. What a step can do: how arriving words collect into a command (R80, R83), and the three kinds of
transition.
-/

namespace Sys2Proof.Machine

/-! ### Collecting words -/

theorem takeWords_zero (items : List PortItem) : takeWords 0 items = ([], items) := by
  cases items <;> rfl

/-- As many words as are wanted are there. -/
theorem takeWords_all (ws : List Word) (rest : List PortItem) :
    takeWords ws.length (ws.map .word ++ rest) = (ws, rest) := by
  induction ws with
  | nil => simp [takeWords]
  | cons w ws ih => simp [takeWords, ih]

/-- Fewer words than are wanted are there before an event or the end. -/
theorem takeWords_short {k : Nat} {ws : List Word} {rest : List PortItem} (h : ws.length ≤ k)
    (hr : ∀ w later, rest ≠ .word w :: later) : takeWords k (ws.map .word ++ rest) = (ws, rest) := by
  induction ws generalizing k with
  | nil =>
    cases k with
    | zero => simp [takeWords]
    | succ k =>
      cases rest with
      | nil => rfl
      | cons x later =>
        cases x with
        | word w => exact absurd rfl (hr w later)
        | event id => rfl
  | cons w ws ih =>
    obtain ⟨k, rfl⟩ : ∃ j, k = j + 1 := ⟨k - 1, by simp at h; omega⟩
    simp [takeWords, ih (by simpa using h)]

/-- Taking words in leaves every arrival where it was in the order. -/
theorem takeWords_split (k : Nat) (items : List PortItem) :
    (takeWords k items).1.map .word ++ (takeWords k items).2 = items := by
  induction k generalizing items with
  | zero => simp [takeWords_zero]
  | succ k ih =>
    cases items with
    | nil => rfl
    | cons x rest =>
      cases x with
      | event id => rfl
      | word w => simp [takeWords, ih]

/-- At most `k` words are taken in. -/
theorem takeWords_length (k : Nat) (items : List PortItem) : (takeWords k items).1.length ≤ k := by
  induction k generalizing items with
  | zero => simp [takeWords_zero]
  | succ k ih =>
    cases items with
    | nil => simp [takeWords]
    | cons x rest =>
      cases x with
      | event id => simp [takeWords]
      | word w => simpa [takeWords] using ih rest

/-- Where fewer words than wanted were taken in, no word comes next. -/
theorem takeWords_stops {k : Nat} {items : List PortItem} (h : (takeWords k items).1.length < k)
    (w : Word) (later : List PortItem) : (takeWords k items).2 ≠ .word w :: later := by
  induction k generalizing items with
  | zero => simp at h
  | succ k ih =>
    cases items with
    | nil => simp [takeWords]
    | cons x rest =>
      cases x with
      | event id => simp [takeWords]
      | word w' =>
        simp only [takeWords]
        exact ih (by simpa [takeWords] using h)

/-- Every command has at least its header (R83). -/
theorem commandLength_pos (h : Word) : 1 ≤ commandLength h := by
  unfold commandLength
  split <;> omega

/-- `commandComplete` in the spec's terms (R83). -/
theorem incomplete_iff (words : List Word) : commandComplete words = false ↔ IsIncomplete words := by
  unfold IsIncomplete
  cases words <;> simp [commandComplete]

/-! ### The three kinds of step -/

/-- The legal commands are the ten of R86. -/
theorem isCommand_of_decode {nCh : Nat} {words : List Word} {i : Instr}
    (h : decodeCommand nCh words = .ok i) : i.isCommand = true := by
  unfold decodeCommand at h
  split at h
  · cases h
  · split at h
    · cases h
    · split at h
      · cases h
      · unfold decodeFields at h
        split at h <;>
          (try simp only [decodeInit, decodeSendByte, noArg, onChannel, decodeTsAvailableAll] at h) <;>
          (repeat' split at h) <;> cases h <;> rfl

/-- Everything a step can do: run a decoded command, answer an illegal one, serve an event, or wait. The
buffer then holds no whole command. -/
theorem step_cases {s t : State} (h : step s = .next t) :
    (∃ buf rest i, IsIncomplete buf ∧ i.requestable = true ∧
        exec i { s with cmdBuf := buf, stimulus := rest } = .next t) ∨
      ∃ buf rest responses, IsIncomplete buf ∧
        t = { s with cmdBuf := buf, stimulus := rest, responses := responses } := by
  unfold step nextArrival at h
  generalize hcol : collect s.cmdBuf s.stimulus = p at h
  obtain ⟨words, rest⟩ := p
  simp only at h
  by_cases hc : commandComplete words = true
  · simp only [hc, if_true, runCommand] at h
    cases hd : decodeCommand s.ch.length words with
    | ok i =>
      simp only [hd] at h
      refine .inl ⟨[], rest, i, .inl rfl, ?_, h⟩
      have := isCommand_of_decode hd
      revert this
      cases i <;> simp [Instr.isCommand, Instr.requestable]
    | error e =>
      simp only [hd, Host.Outcome.next.injEq] at h
      exact .inr ⟨[], rest, _, .inl rfl, h.symm⟩
  · simp only [hc, Bool.false_eq_true, if_false] at h
    have hi : IsIncomplete words := (incomplete_iff _).mp (by simpa using hc)
    cases rest with
    | nil =>
      cases h
      exact .inr ⟨words, [], s.responses, hi, rfl⟩
    | cons x later =>
      cases x with
      | word w =>
        cases h
        exact .inr ⟨words, [], s.responses, hi, rfl⟩
      | event id => exact .inl ⟨words, later, .dispatch id, hi, rfl, h⟩

end Sys2Proof.Machine
end

