-- ==== Sys2Proof/Laws/Memory.lean ====
section
/-!
SUPPORT. The engine's storage keeps its one form: every operation leaves every ring with as many slots as
its capacity, and the capacity as it was (R23, R50); the state after reset has that form.
-/

namespace Sys2Proof.Machine

variable {α : Type}

/-- A ring's storage has its form: as many slots as the capacity says (R50). -/
abbrev RingBuffer.Stored (q : RingBuffer α) : Prop := q.store.length = q.cap

/-- `q'` has the capacity of `q`, and its storage has its form if that of `q` has. -/
abbrev RingBuffer.Keeps (q q' : RingBuffer α) : Prop :=
  q'.cap = q.cap ∧ (q.Stored → q'.Stored)

/-! ### Every operation on a ring -/

theorem RingBuffer.keeps_refl (q : RingBuffer α) : q.Keeps q := ⟨rfl, id⟩

theorem RingBuffer.keeps_writeSlot (q : RingBuffer α) (c : Nat) (x : α) :
    q.Keeps (q.writeSlot c x) := ⟨rfl, by simp [RingBuffer.Stored, RingBuffer.writeSlot]⟩

theorem RingBuffer.keeps_memWrite (q : RingBuffer α) (c : Nat) (v : List α) :
    q.Keeps (q.memWrite c v) := ⟨by simp, by simp [RingBuffer.Stored]⟩

theorem RingBuffer.keeps_publishWr (q : RingBuffer α) (n : Nat) : q.Keeps (q.publishWr n) :=
  ⟨rfl, id⟩

theorem RingBuffer.keeps_publishRd (q : RingBuffer α) (n : Nat) : q.Keeps (q.publishRd n) :=
  ⟨rfl, id⟩

theorem RingBuffer.keeps_restart (q : RingBuffer α) : q.Keeps q.restart := ⟨rfl, id⟩

theorem RingBuffer.keeps_withPushed (q : RingBuffer α) (x : α) : q.Keeps (q.withPushed x) :=
  ⟨rfl, by simp [RingBuffer.Stored, RingBuffer.withPushed]⟩

theorem RingBuffer.keeps_push (q : RingBuffer α) (x : α) : q.Keeps (q.push x).1 := by
  rcases q.push_cases x with ⟨-, h⟩ | ⟨-, h⟩ <;> rw [h]
  · exact q.keeps_refl
  · exact q.keeps_withPushed x

theorem RingBuffer.keeps_pop [Inhabited α] (q : RingBuffer α) : q.Keeps q.pop.1 := by
  rcases q.pop_cases with ⟨-, h⟩ | ⟨-, h⟩ <;> rw [h]
  · exact q.keeps_refl
  · exact ⟨rfl, id⟩

theorem RingBuffer.keeps_pushBulk (q : RingBuffer α) (v : List α) : q.Keeps (q.pushBulk v).1 := by
  rcases q.pushBulk_cases v with ⟨-, h⟩ | ⟨-, h⟩ <;> rw [h]
  · exact q.keeps_refl
  · exact q.keeps_memWrite _ _

theorem RingBuffer.keeps_popBulk [Inhabited α] (q : RingBuffer α) (n : Nat) :
    q.Keeps (q.popBulk n).1 := by
  rcases q.popBulk_cases n with ⟨-, h⟩ | ⟨-, h⟩ <;> rw [h]
  · exact q.keeps_refl
  · exact ⟨rfl, id⟩

/-! ### Every operation on a channel -/

/-- The three rings of `c'` keep the form of those of `c`. -/
abbrev Channel.Keeps (c c' : Channel) : Prop :=
  c.rx.Keeps c'.rx ∧ c.tx.Keeps c'.tx ∧ c.ts.Keeps c'.ts

theorem Channel.keeps_refl (c : Channel) : c.Keeps c :=
  ⟨c.rx.keeps_refl, c.tx.keeps_refl, c.ts.keeps_refl⟩

theorem Channel.Keeps.trans {a b c : Channel} (h : a.Keeps b) (h' : b.Keeps c) : a.Keeps c := by
  obtain ⟨⟨h1, h2⟩, ⟨h3, h4⟩, h5, h6⟩ := h
  obtain ⟨⟨k1, k2⟩, ⟨k3, k4⟩, k5, k6⟩ := h'
  exact ⟨⟨k1.trans h1, k2 ∘ h2⟩, ⟨k3.trans h3, k4 ∘ h4⟩, ⟨k5.trans h5, k6 ∘ h6⟩⟩

theorem Channel.keeps_closeRun (c : Channel) : c.Keeps (closeRun c) :=
  ⟨c.rx.keeps_refl, c.tx.keeps_refl, c.ts.keeps_push _⟩

theorem accumulate_keeps (l : Lane) : l.chan.Keeps (accumulate l).chan := by
  unfold accumulate
  split <;> exact l.chan.keeps_refl

theorem observe_keeps (b : Byte) (l : Lane) : l.chan.Keeps (observe b l).chan := by
  unfold observe
  split
  · exact (accumulate_keeps l).trans (Channel.keeps_closeRun _)
  · exact accumulate_keeps l

theorem acceptByte_keeps (b : Byte) (l : Lane) : l.chan.Keeps (acceptByte b l).chan := by
  have hp : l.chan.Keeps { l.chan with rx := (l.chan.rx.push b).1 } :=
    ⟨l.chan.rx.keeps_push b, l.chan.tx.keeps_refl, l.chan.ts.keeps_refl⟩
  unfold acceptByte
  dsimp only
  split
  · exact hp.trans (observe_keeps b _)
  · exact hp

theorem rxPumpAlwaysDrain_keeps (l : Lane) : l.chan.Keeps (rxPumpAlwaysDrain l).chan := by
  unfold rxPumpAlwaysDrain
  dsimp only
  split
  · exact acceptByte_keeps _ l.readDataRegister.2
  · exact l.chan.keeps_refl

theorem rxPumpDrainWhenEmpty_keeps (l : Lane) : l.chan.Keeps (rxPumpDrainWhenEmpty l).chan := by
  unfold rxPumpDrainWhenEmpty
  split
  · exact acceptByte_keeps _ l.readDataRegister.2
  · exact l.chan.keeps_refl

theorem rxPump_keeps (l : Lane) : l.chan.Keeps (rxPump l).chan := by
  unfold rxPump
  split
  · exact rxPumpAlwaysDrain_keeps l
  · exact rxPumpDrainWhenEmpty_keeps l

theorem txPump_keeps (l : Lane) : l.chan.Keeps (txPump l).chan := by
  unfold txPump
  split
  · exact ⟨l.chan.rx.keeps_refl, l.chan.tx.keeps_pop, l.chan.ts.keeps_refl⟩
  · exact l.chan.keeps_refl

theorem armTx_keeps (l : Lane) : l.chan.Keeps (armTx l).chan := by
  unfold armTx
  split <;> exact l.chan.keeps_refl

theorem dispatchReady_keeps (l : Lane) : l.chan.Keeps (dispatchReady l).chan := by
  have ht : l.chan.Keeps (if txReady l.readStatusFlags.1 && l.readStatusFlags.2.chan.txArmed then
      txPump l.readStatusFlags.2 else l.readStatusFlags.2).chan := by
    split
    · exact txPump_keeps l.readStatusFlags.2
    · exact l.chan.keeps_refl
  unfold dispatchReady
  dsimp only
  by_cases h : rxReady l.readStatusFlags.1 = true
  · rw [if_pos h]
    exact ht.trans (rxPump_keeps _)
  · rw [if_neg h]
    exact ht

theorem initBody_keeps (o : InitOptions) (f : Word) (l : Lane) :
    l.chan.Keeps (initBody o f l).1.chan := by
  unfold initBody
  split
  · exact l.chan.keeps_refl
  · exact l.chan.keeps_refl
  · unfold initConfigured
    split
    · exact ⟨l.chan.rx.keeps_restart, l.chan.tx.keeps_restart, l.chan.ts.keeps_restart⟩
    · exact l.chan.keeps_refl
    · exact l.chan.keeps_refl
  · unfold initConfigured
    split
    · exact ⟨l.chan.rx.keeps_restart, l.chan.tx.keeps_restart, l.chan.ts.keeps_restart⟩
    · exact l.chan.keeps_refl
    · exact l.chan.keeps_refl

theorem whenReady_keeps {body : Lane → Lane × Reply} (h : ∀ l : Lane, l.chan.Keeps (body l).1.chan)
    (l : Lane) : l.chan.Keeps (whenReady body l).1.chan := by
  unfold whenReady
  split
  · exact h l
  · exact l.chan.keeps_refl

theorem sendByteBody_keeps (b : Byte) (l : Lane) : l.chan.Keeps (sendByteBody b l).1.chan := by
  unfold sendByteBody
  split
  · exact Channel.Keeps.trans (b := { l.chan with tx := (l.chan.tx.push b).1 })
      ⟨l.chan.rx.keeps_refl, l.chan.tx.keeps_push b, l.chan.ts.keeps_refl⟩ (armTx_keeps _)
  · exact l.chan.keeps_refl

theorem sendBytesBody_keeps (v : List Byte) (l : Lane) :
    l.chan.Keeps (sendBytesBody v l).1.chan := by
  have hp : l.chan.Keeps { l.chan with tx := (l.chan.tx.pushBulk v).1 } :=
    ⟨l.chan.rx.keeps_refl, l.chan.tx.keeps_pushBulk v, l.chan.ts.keeps_refl⟩
  unfold sendBytesBody
  split
  · dsimp only
    split
    · exact hp.trans (armTx_keeps _)
    · exact hp
  · exact l.chan.keeps_refl

theorem readByteBody_keeps (l : Lane) : l.chan.Keeps (readByteBody l).1.chan := by
  unfold readByteBody
  split
  · exact ⟨l.chan.rx.keeps_pop, l.chan.tx.keeps_refl, l.chan.ts.keeps_refl⟩
  · exact l.chan.keeps_refl

theorem readBytesBody_keeps (n : Half) (l : Lane) : l.chan.Keeps (readBytesBody n l).1.chan := by
  unfold readBytesBody
  split
  · exact ⟨l.chan.rx.keeps_popBulk _, l.chan.tx.keeps_refl, l.chan.ts.keeps_refl⟩
  · exact l.chan.keeps_refl

theorem tsReadBody_keeps (l : Lane) : l.chan.Keeps (tsReadBody l).1.chan := by
  unfold tsReadBody
  split
  · split
    · unfold tsReadRecord
      split
      · exact ⟨l.chan.rx.keeps_popBulk _, l.chan.tx.keeps_refl, l.chan.ts.keeps_pop⟩
      · exact l.chan.keeps_refl
    · exact l.chan.keeps_refl
  · exact l.chan.keeps_refl

/-- Every operation on a channel keeps the form of its storage. -/
theorem laneOp_keeps (f : Word) (i : Instr) (l : Lane) : l.chan.Keeps (laneOp f i l).1.chan := by
  cases i with
  | init ch o => exact initBody_keeps o f l
  | sendByte ch b => exact whenReady_keeps (sendByteBody_keeps b) l
  | sendBytes ch v => exact whenReady_keeps (sendBytesBody_keeps v) l
  | available ch => exact whenReady_keeps (body := availableBody) (fun l => l.chan.keeps_refl) l
  | readByte ch => exact whenReady_keeps readByteBody_keeps l
  | readBytes ch n => exact whenReady_keeps (readBytesBody_keeps n) l
  | tsAvailable ch => exact whenReady_keeps (body := tsAvailableBody) (fun l => l.chan.keeps_refl) l
  | tsAvailableAll => exact l.chan.keeps_refl
  | tsRead ch => exact whenReady_keeps tsReadBody_keeps l
  | status ch => exact l.chan.keeps_refl
  | dispatch ch =>
    simp only [laneOp]
    split
    · exact dispatchReady_keeps l
    · exact l.chan.keeps_refl
  | txPump ch => exact txPump_keeps l
  | rxPumpAlwaysDrain ch => exact rxPumpAlwaysDrain_keeps l
  | rxPumpDrainWhenEmpty ch => exact rxPumpDrainWhenEmpty_keeps l
  | overflow ch => exact l.chan.keeps_refl
  | observe ch b => exact observe_keeps b l
  | armTx ch => exact armTx_keeps l
  | push ch item =>
    cases item with
    | rx b => exact ⟨l.chan.rx.keeps_push b, l.chan.tx.keeps_refl, l.chan.ts.keeps_refl⟩
    | tx b => exact ⟨l.chan.rx.keeps_refl, l.chan.tx.keeps_push b, l.chan.ts.keeps_refl⟩
    | ts r => exact ⟨l.chan.rx.keeps_refl, l.chan.tx.keeps_refl, l.chan.ts.keeps_push r⟩
  | pop ch ring =>
    cases ring with
    | rx => exact ⟨l.chan.rx.keeps_pop, l.chan.tx.keeps_refl, l.chan.ts.keeps_refl⟩
    | tx => exact ⟨l.chan.rx.keeps_refl, l.chan.tx.keeps_pop, l.chan.ts.keeps_refl⟩
    | ts => exact ⟨l.chan.rx.keeps_refl, l.chan.tx.keeps_refl, l.chan.ts.keeps_pop⟩
  | pushBulk ch items =>
    cases items with
    | rx v => exact ⟨l.chan.rx.keeps_pushBulk v, l.chan.tx.keeps_refl, l.chan.ts.keeps_refl⟩
    | tx v => exact ⟨l.chan.rx.keeps_refl, l.chan.tx.keeps_pushBulk v, l.chan.ts.keeps_refl⟩
    | ts v => exact ⟨l.chan.rx.keeps_refl, l.chan.tx.keeps_refl, l.chan.ts.keeps_pushBulk v⟩
  | popBulk ch ring n =>
    cases ring with
    | rx => exact ⟨l.chan.rx.keeps_popBulk n, l.chan.tx.keeps_refl, l.chan.ts.keeps_refl⟩
    | tx => exact ⟨l.chan.rx.keeps_refl, l.chan.tx.keeps_popBulk n, l.chan.ts.keeps_refl⟩
    | ts => exact ⟨l.chan.rx.keeps_refl, l.chan.tx.keeps_refl, l.chan.ts.keeps_popBulk n⟩
  | occupiedCount ch ring => cases ring <;> exact l.chan.keeps_refl
  | isEmpty ch ring => cases ring <;> exact l.chan.keeps_refl
  | peek ch ring => cases ring <;> exact l.chan.keeps_refl

/-! ### The whole storage -/

/-- Every operation keeps the storage of the engine in its form. -/
theorem Memory.wf_exec {s t : State} {i : Instr} (hs : Memory.wf s) (h : exec i s = .next t) :
    Memory.wf t := by
  rcases exec_cases h with ⟨ch, c, -, hc, rfl⟩ | ⟨-, r, rfl⟩ | rfl
  · intro d hd
    obtain ⟨h1, h2, h3⟩ := laneOp_keeps s.fClk i (s.laneOf ch c)
    rcases List.mem_or_eq_of_mem_set hd with hd | rfl
    · exact hs d hd
    · obtain ⟨k1, k2, k3⟩ := hs c (List.mem_of_getElem? hc)
      exact ⟨h1.2 k1, h2.2 k2, h3.2 k3⟩
  · exact hs
  · exact hs

/-- Every step keeps the storage of the engine in its form. -/
theorem Memory.wf_step {s t : State} (hs : Memory.wf s) (h : step s = .next t) : Memory.wf t := by
  rcases step_cases h with ⟨buf, rest, i, -, -, he⟩ | ⟨buf, rest, rs, -, rfl⟩
  · exact Memory.wf_exec (s := { s with cmdBuf := buf, stimulus := rest }) hs he
  · exact hs

/-- The storage right after reset has its form. -/
theorem Memory.wf_reset : Memory.wf State.reset := by decide

end Sys2Proof.Machine
end

