-- ==== Sys2Proof/Laws/Micro.lean ====
section
/-!
SUPPORT. The small lemmas of the micro-step level: moves and runs, what the check of a command can do, and
what an event at that level leaves to the foreground.
-/

namespace Sys2Proof.Machine

/-! ### Runs -/

section runs
variable (m : Micro) (s t : State) (id : Byte) (rest moves : List Move) (order more : List Transition)

@[simp] theorem nextOr_next : nextOr s (.next t) = t := rfl

@[simp] theorem Micro.ofCommands_waiting (w : List (List Word)) : (Micro.ofCommands w s).waiting = w := rfl
@[simp] theorem Micro.ofCommands_fg (w : List (List Word)) : (Micro.ofCommands w s).fg = .done := rfl
@[simp] theorem Micro.ofCommands_st (w : List (List Word)) : (Micro.ofCommands w s).st = s := rfl

@[simp] theorem Micro.advance_waiting : m.advance.waiting = m.waiting := rfl
@[simp] theorem Micro.advance_current : m.advance.current = m.current := rfl
@[simp] theorem Micro.advance_fg : m.advance.fg = (foregroundStep m.fg m.st).1 := rfl
@[simp] theorem Micro.advance_st : m.advance.st = (foregroundStep m.fg m.st).2 := rfl

@[simp] theorem microMove_event_waiting : (microMove m (.event id)).waiting = m.waiting := rfl
@[simp] theorem microMove_event_current : (microMove m (.event id)).current = m.current := rfl
@[simp] theorem microMove_event_fg : (microMove m (.event id)).fg = m.fg := rfl
@[simp] theorem microMove_event_st : (microMove m (.event id)).st = dispatch id m.st := rfl
@[simp] theorem microMove_foreground : microMove m .foreground = m.present.advance := rfl

/-- The next command stands at its check. -/
theorem Micro.present_next {words : List Word} {later : List (List Word)} (hf : m.fg = .done)
    (hw : m.waiting = words :: later) :
    m.present = { m with waiting := later, current := words, fg := .check words } := by
  unfold Micro.present
  rw [hf, hw]

/-- A command in progress is left to go on. -/
theorem Micro.present_busy (h : m.fg ≠ .done) : m.present = m := by
  unfold Micro.present
  split
  · rename_i hf _
    exact absurd hf h
  · rfl

/-- Where every command has responded, the foreground's moves change nothing. -/
theorem Micro.present_finished (h : m.Finished) : m.present = m := by
  unfold Micro.present
  rw [h.1, h.2]

theorem Micro.advance_finished (h : m.fg = .done) : m.advance = m := by
  cases m
  cases h
  rfl

@[simp] theorem Micro.present_st : m.present.st = m.st := by
  unfold Micro.present
  split <;> rfl

@[simp] theorem microRun_nil : microRun m [] = m := rfl
@[simp] theorem microRun_cons (x : Move) : microRun m (x :: rest) = microRun (microMove m x) rest := rfl
theorem microRun_append : microRun m (moves ++ rest) = microRun (microRun m moves) rest :=
  List.foldl_append

@[simp] theorem atomicRun_nil : atomicRun s [] = s := rfl
@[simp] theorem atomicRun_cons (x : Transition) : atomicRun s (x :: order) = atomicRun (transition s x) order :=
  rfl
theorem atomicRun_append : atomicRun s (order ++ more) = atomicRun (atomicRun s order) more :=
  List.foldl_append

@[simp] theorem transition_event : transition s (.event id) = dispatch id s := rfl
@[simp] theorem transition_command (words : List Word) :
    transition s (.command words) = nextOr s (runCommand words s) := rfl

@[simp] theorem Micro.linearize_nil : m.linearize [] = [] := rfl
@[simp] theorem Micro.linearize_event :
    m.linearize (.event id :: rest) = .event id :: (microMove m (.event id)).linearize rest := rfl
@[simp] theorem Micro.linearize_foreground :
    m.linearize (.foreground :: rest) =
      m.present.linearizes (.foreground :: rest) ++ m.present.advance.linearize rest := rfl

/-- Where no command is in progress, no micro-step is a linearization point. -/
theorem Micro.linearizes_done (h : m.fg = .done) : m.linearizes moves = [] :=
  if_neg fun hc => hc.2 h

end runs

/-! ### The foreground on its channel -/

section channel
variable {s : State} {ch : Byte} {c : Channel}

/-- An operation on a channel of the table. -/
theorem State.onLane_of_channel (h : s.ch[ch.toNat]? = some c) (f : Lane → Lane) :
    s.onLane ch f =
      s.commit (f { inst := ch.toNat, chan := c, draws := s.drawsAt ch.toNat, calls := [] }) := by
  unfold State.onLane
  rw [State.lane_of_channel h]

/-- A value read from a channel of the table. -/
theorem State.ofLane_of_channel {β : Type} (h : s.ch[ch.toNat]? = some c) (x : β) (f : Channel → β) :
    s.ofLane ch x f = f c := by
  unfold State.ofLane
  rw [State.lane_of_channel h]

/-- The check of a legal data command on a Ready channel goes on with what it read. -/
theorem checkReady_of_ready (h : s.ch[ch.toNat]? = some c) (hc : c.status = .ready)
    (go : Checked → Foreground) : checkReady ch go s = (go c.checked, s) := by
  unfold checkReady checkChannel
  rw [State.lane_of_channel h]
  exact if_pos hc

/-- The check of a legal data command on a channel that is not Ready answers NotReady (R132). -/
theorem checkReady_of_not (h : s.ch[ch.toNat]? = some c) (hc : c.status ≠ .ready)
    (go : Checked → Foreground) :
    checkReady ch go s = (.done, s.respond ch (.raise .notReady)) := by
  unfold checkReady checkChannel
  rw [State.lane_of_channel h]
  exact if_neg hc

/-- The check of an illegal command answers it, and so does the atomic command (R95). -/
theorem checkWords_illegal {words : List Word} {e : DecodeError}
    (h : decodeCommand s.ch.length words = .error e) :
    checkWords words s = (.done, s.raiseIllegal (echoedChannel words)) ∧
      runCommand words s = .next (s.raiseIllegal (echoedChannel words)) := by
  unfold checkWords runCommand
  rw [h]
  exact ⟨rfl, rfl⟩

/-- The check of a legal command, and the atomic command it is the check of. -/
theorem checkWords_legal {words : List Word} {i : Instr}
    (h : decodeCommand s.ch.length words = .ok i) :
    checkWords words s = checkInstr i s ∧ runCommand words s = exec i s := by
  unfold checkWords runCommand
  rw [h]
  exact ⟨rfl, rfl⟩

end channel

/-! ### Events -/

/-- An event keeps the number of channels. -/
@[simp] theorem dispatch_length (id : Byte) (s : State) : (dispatch id s).ch.length = s.ch.length := by
  unfold dispatch
  split
  · rfl
  · split <;> simp

/-- An event does not depend on the responses there are, and adds none: it commutes with a response. -/
theorem dispatch_respond (id ch : Byte) (r : Reply) (s : State) :
    dispatch id (s.respond ch r) = (dispatch id s).respond ch r := by
  have hl : (s.respond ch r).lane id.toNat = s.lane id.toNat := rfl
  unfold dispatch
  rw [hl]
  split
  · rfl
  · split <;> rfl

theorem runEvents_respond (ids : List Byte) (ch : Byte) (r : Reply) (s : State) :
    runEvents ids (s.respond ch r) = (runEvents ids s).respond ch r := by
  induction ids generalizing s with
  | nil => rfl
  | cons id ids ih => exact (congrArg (runEvents ids) (dispatch_respond id ch r s)).trans (ih _)

end Sys2Proof.Machine
end

