-- ==== Sys2Proof/Laws/PerInstr.lean ====
section
/-!
SUPPORT. Statements made for every operation, one lemma per constructor of `Instr`.

`EncodedLength`: what requests an operation at the command port is exactly as long as its header says
(R83), and an operation without an encoding presents nothing (R101).
-/

namespace Sys2Proof.Laws

/-- The number of words presented is the header's own length (R83). -/
def EncodedLength.lengthOk : Encoded → Prop
  | .command [] => False
  | .command (h :: payload) => commandLength h = payload.length + 1
  | .event _ => True
  | .internal => True

/-- An operation whose counts fit their fields is encoded in as many words as its header says. -/
def EncodedLength.Statement (i : Instr) : Prop :=
  i.countsOk = true → EncodedLength.lengthOk (encode i)

theorem EncodedLength.init (ch : Byte) (opts : InitOptions) :
    EncodedLength.Statement (.init ch opts) := by
  intro _
  simp [EncodedLength.lengthOk, encode, commandLength, headerOp_headerWord]

theorem EncodedLength.sendByte (ch : Byte) (b : Byte) :
    EncodedLength.Statement (.sendByte ch b) := by
  intro _
  simp [EncodedLength.lengthOk, encode, encodeHeader, commandLength, headerOp_headerWord]

theorem EncodedLength.sendBytes (ch : Byte) (bytes : List Byte) :
    EncodedLength.Statement (.sendBytes ch bytes) := by
  intro h
  have hl : bytes.length < 2 ^ 16 := by simpa [Instr.countsOk, countOk] using h
  simp only [EncodedLength.lengthOk, encode, commandLength, headerOp_headerWord, headerArg_headerWord,
    packBytes_length, BitVec.toNat_ofNat, Nat.mod_eq_of_lt hl]
  exact Nat.add_comm _ _

theorem EncodedLength.available (ch : Byte) :
    EncodedLength.Statement (.available ch) := by
  intro _
  simp [EncodedLength.lengthOk, encode, encodeHeader, commandLength, headerOp_headerWord]

theorem EncodedLength.readByte (ch : Byte) :
    EncodedLength.Statement (.readByte ch) := by
  intro _
  simp [EncodedLength.lengthOk, encode, encodeHeader, commandLength, headerOp_headerWord]

theorem EncodedLength.readBytes (ch : Byte) (n : Half) :
    EncodedLength.Statement (.readBytes ch n) := by
  intro _
  simp [EncodedLength.lengthOk, encode, encodeHeader, commandLength, headerOp_headerWord]

theorem EncodedLength.tsAvailable (ch : Byte) :
    EncodedLength.Statement (.tsAvailable ch) := by
  intro _
  simp [EncodedLength.lengthOk, encode, encodeHeader, commandLength, headerOp_headerWord]

theorem EncodedLength.tsAvailableAll :
    EncodedLength.Statement .tsAvailableAll := by
  intro _
  simp [EncodedLength.lengthOk, encode, encodeHeader, commandLength, headerOp_headerWord]

theorem EncodedLength.tsRead (ch : Byte) :
    EncodedLength.Statement (.tsRead ch) := by
  intro _
  simp [EncodedLength.lengthOk, encode, encodeHeader, commandLength, headerOp_headerWord]

theorem EncodedLength.status (ch : Byte) :
    EncodedLength.Statement (.status ch) := by
  intro _
  simp [EncodedLength.lengthOk, encode, encodeHeader, commandLength, headerOp_headerWord]

theorem EncodedLength.dispatch (evtId : Byte) :
    EncodedLength.Statement (.dispatch evtId) := fun _ => trivial

theorem EncodedLength.txPump (ch : Byte) :
    EncodedLength.Statement (.txPump ch) := fun _ => trivial

theorem EncodedLength.rxPumpAlwaysDrain (ch : Byte) :
    EncodedLength.Statement (.rxPumpAlwaysDrain ch) := fun _ => trivial

theorem EncodedLength.rxPumpDrainWhenEmpty (ch : Byte) :
    EncodedLength.Statement (.rxPumpDrainWhenEmpty ch) := fun _ => trivial

theorem EncodedLength.overflow (ch : Byte) :
    EncodedLength.Statement (.overflow ch) := fun _ => trivial

theorem EncodedLength.observe (ch : Byte) (b : Byte) :
    EncodedLength.Statement (.observe ch b) := fun _ => trivial

theorem EncodedLength.armTx (ch : Byte) :
    EncodedLength.Statement (.armTx ch) := fun _ => trivial

theorem EncodedLength.push (ch : Byte) (item : PushItem) :
    EncodedLength.Statement (.push ch item) := fun _ => trivial

theorem EncodedLength.pop (ch : Byte) (ring : RingName) :
    EncodedLength.Statement (.pop ch ring) := fun _ => trivial

theorem EncodedLength.pushBulk (ch : Byte) (items : BulkItems) :
    EncodedLength.Statement (.pushBulk ch items) := fun _ => trivial

theorem EncodedLength.popBulk (ch : Byte) (ring : RingName) (n : Nat) :
    EncodedLength.Statement (.popBulk ch ring n) := fun _ => trivial

theorem EncodedLength.occupiedCount (ch : Byte) (ring : RingName) :
    EncodedLength.Statement (.occupiedCount ch ring) := fun _ => trivial

theorem EncodedLength.isEmpty (ch : Byte) (ring : RingName) :
    EncodedLength.Statement (.isEmpty ch ring) := fun _ => trivial

theorem EncodedLength.peek (ch : Byte) (ring : RingName) :
    EncodedLength.Statement (.peek ch ring) := fun _ => trivial

end Sys2Proof.Laws
end

