-- ==== Sys2Proof/Tests/Slice0.lean ====
section
/-!
SUPPORT. Tests. Expected values come from spec/95_test_vectors.md (the vector is named in the comment) or
are worked by hand from the rule named; and, for every statement with hypotheses, a witness that a
state and operands meet them (`test_meets_<Statement>`).
-/

namespace Sys2Proof.Tests

open Sys2Proof.Machine

/-! ### Helpers -/

/-- A ring `(rd, wr | slots)` as the vectors write it; its capacity is the number of slots. -/
def ring {α : Type} (rd wr : Nat) (slots : List α) : RingBuffer α := ⟨slots.length, rd, wr, slots⟩

/-- A Ready channel with `C_RX = 4`, `C_TX = 4`, `C_TS = 2`, empty. -/
def ready : Channel := { Channel.fresh ⟨4, 4, 2⟩ with status := .ready }

/-- Given answers of the environment. -/
def draws (flags : List Word) (data : List Byte) (config : List CfgResult) (time : List Word) : Draws :=
  ⟨⟨flags, 0⟩, ⟨data, 0⟩, ⟨config, 0⟩, ⟨time, 0⟩⟩

/-- The reference engine after reset with one channel's record and draws replaced. -/
def engine (i : Nat) (c : Channel) (d : Draws := .fresh) : State :=
  { State.reset with ch := State.reset.ch.set i c, env := State.reset.env.set i d }

/-- A field of the state after an operation; none where the operation does not answer a next state. -/
def after {β : Type} (o : Host.Outcome State Fault Refusal) (f : State → β) : Option β :=
  match o with
  | .next t => some (f t)
  | .fault _ | .refused _ => none

/-- The response words an operation adds to a state without responses (R92). -/
def reply (o : Host.Outcome State Fault Refusal) : Option (List Word) :=
  after o fun t => t.responses.flatMap responseWords

/-- The record of channel `i` after an operation. -/
def chan (i : Nat) (o : Host.Outcome State Fault Refusal) : Option Channel :=
  match o with
  | .next t => t.ch[i]?
  | .fault _ | .refused _ => none

/-- What words decode to on the reference engine. -/
def dec (words : List Word) : Option Instr :=
  match decodeCommand 8 words with
  | .ok i => some i
  | .error _ => none

/-- Why words do not decode on the reference engine. -/
def why (words : List Word) : Option DecodeError :=
  match decodeCommand 8 words with
  | .ok _ => none
  | .error e => some e

/-- `115200, 8, N, 1` with the given policy, switch and marker. -/
def opts (p : DrainPolicy) (ts : Bool) (m : Byte) : InitOptions := ⟨p, ts, m, 115200, 8, 0, 0⟩

/-! ### Well-formedness refuses -/

theorem test_wf_channel : (Instr.status 8).wf 8 = false ∧ (Instr.status 7).wf 8 = true := by decide
theorem test_wf_channel_internal : (Instr.armTx 8).wf 8 = false := by decide
theorem test_wf_event_any_identity : (Instr.dispatch 255).wf 8 = true := by decide
theorem test_wf_pop_count : (Instr.popBulk 0 .rx 65536).wf 8 = false := by decide
theorem test_wf_ring_pushBulk : (Instr.pushBulk 0 (.rx [1])).wf 8 = false := by decide
theorem test_wf_ring_popBulk : (Instr.popBulk 0 .tx 1).wf 8 = false := by decide
theorem test_wf_ring_peek : (Instr.peek 0 .rx).wf 8 = false := by decide
theorem test_wf_send_count (bs : List Byte) (h : bs.length = 65536) :
    (Instr.sendBytes 0 bs).wf 8 = false := by
  simp [Instr.wf, Instr.countsOk, countOk, h]

/-! ### Decoding (spec/95 2.2) -/

theorem test_decode_init : dec [0x01020A02, 0x0001C200, 0x00000008] =
    some (.init 2 (opts .alwaysDrain true 0x0A)) := by decide
theorem test_decode_init_frame : dec [0x01000003, 0x000F4240, 0x00000217] =
    some (.init 0 ⟨.drainWhenEmpty, true, 0, 1000000, 7, 1, 2⟩) := by decide
theorem test_decode_sendByte : dec [0x020500FF] = some (.sendByte 5 0xFF) := by decide
theorem test_decode_sendBytes_empty : dec [0x03070000] = some (.sendBytes 7 []) := by decide
theorem test_decode_sendBytes_padding : dec [0x03070001, 0xDEADBE7E] = some (.sendBytes 7 [0x7E]) := by
  decide
theorem test_decode_sendBytes : dec [0x03000005, 0x44434241, 0x00000045] =
    some (.sendBytes 0 [0x41, 0x42, 0x43, 0x44, 0x45]) := by decide
theorem test_decode_available : dec [0x04010000] = some (.available 1) := by decide
theorem test_decode_readByte : dec [0x05030000] = some (.readByte 3) := by decide
theorem test_decode_readBytes : dec [0x0601FFFF] = some (.readBytes 1 65535) := by decide
theorem test_decode_tsAvailable : dec [0x07020000] = some (.tsAvailable 2) := by decide
theorem test_decode_tsAvailableAll : dec [0x08000000] = some .tsAvailableAll := by decide
theorem test_decode_tsRead : dec [0x09020000] = some (.tsRead 2) := by decide
theorem test_decode_status : dec [0x0A070000] = some (.status 7) := by decide
theorem test_decode_event : decodeTableWord 8 5 = some (.dispatch 5) := by decide
theorem test_decode_internal : decodeTableWord 0 0 = none := by decide
theorem test_decode_table_init : decodeTableWord 32 0x01000000 =
    some (.init 0 ⟨.alwaysDrain, false, 0, 0, 0, 0, 0⟩) := by decide

theorem test_illegal_op : ([[0x00000000], [0xFFFFFFFF], [0x0B000000]] : List (List Word)).map why =
    List.replicate 3 (some .unknownOp) := by decide
theorem test_illegal_reserved : ([[0x02000141], [0x04010001], [0x08010000],
      [0x01000004, 0x00002580, 0x00000008], [0x01000000, 0x00002580, 0x00000088],
      [0x01000000, 0x00002580, 0x00000408]] : List (List Word)).map why =
    List.replicate 6 (some .reservedField) := by decide
theorem test_illegal_channel : ([[0x04080000], [0x0A080000],
      [0x03090005, 0x44434241, 0x00000045]] : List (List Word)).map why =
    List.replicate 3 (some .noSuchChannel) := by decide
theorem test_illegal_response : reply (step (State.reset.withFetchWord 32 0xFFFFFFFF)) =
    some [0x08FF0000] := by decide
theorem test_fetched_event_runs : step (State.reset.withFetchWord 8 8) = .next State.reset := by rfl

/-! ### Ring primitives (spec/95 S1 to S3, V1 to V6) -/

/-- S2: the cursors wrap past `2C - 1`. -/
theorem test_push_wrap : after (exec (.push 0 (.tx 0x33)) (engine 0 { ready with
      tx := ring 6 0 [0, 0, 0x11, 0x22] })) (fun t => (t.ch[0]?.map (·.tx), t.opReturns)) =
    some (some (ring 6 1 [0x33, 0, 0x11, 0x22]), [.bool true]) := by decide
/-- S1 step 5: a full ring rejects and keeps its state. -/
theorem test_push_full : after (exec (.push 0 (.rx 0xFF)) (engine 0 { ready with
      rx := ring 1 5 [5, 2, 3, 4] })) (fun t => (t.ch[0]?.map (·.rx), t.opReturns)) =
    some (some (ring 1 5 [5, 2, 3, 4]), [.bool false]) := by decide
/-- V1: the last element leaves from slot 3 and `rd` wraps to 0. -/
theorem test_pop_wrap : after (exec (.pop 0 .rx) (engine 0 { ready with
      rx := ring 7 0 [0, 1, 2, 3] })) (fun t => (t.ch[0]?.map (·.rx.rd), t.opReturns)) =
    some (some 0, [.byte (some 3)]) := by decide
theorem test_pop_empty : after (exec (.pop 0 .ts) (engine 0 ready)) (·.opReturns) =
    some [.record none] := by decide
/-- V6: an exact fit in slots 3, 0, 1. -/
theorem test_pushBulk_fit : after (exec (.pushBulk 0 (.tx [0xB, 0xC, 0xD])) (engine 0 { ready with
      tx := ring 2 3 [0, 0, 0xA, 0] })) (fun t => (t.ch[0]?.map (·.tx), t.opReturns)) =
    some (some (ring 2 6 [0xC, 0xD, 0xA, 0xB]), [.bool true]) := by decide
/-- S3: one element too many. -/
theorem test_pushBulk_over : after (exec (.pushBulk 0 (.tx [1, 2, 3])) (engine 0 { ready with
      tx := ring 3 5 [0xE, 0, 0, 0xD] })) (fun t => (t.ch[0]?.map (·.tx.wr), t.opReturns)) =
    some (some 5, [.bool false]) := by decide
/-- S3: `POP_BULK 4` returns the elements in order. -/
theorem test_popBulk_all : after (exec (.popBulk 0 .rx 4) (engine 0 { ready with
      rx := ring 3 7 [0xE, 0x1, 0x2, 0xD] })) (fun t => (t.ch[0]?.map (·.rx.rd), t.opReturns)) =
    some (some 7, [.bytes (some [0xD, 0xE, 0x1, 0x2])]) := by decide
/-- V5: an oversize bulk. -/
theorem test_popBulk_over : after (exec (.popBulk 0 .rx 65535) (engine 0 ready)) (·.opReturns) =
    some [.bytes none] := by decide
/-- V1: `(0 - 5) mod 8 = 3`. -/
theorem test_occupiedCount_wrap : after (exec (.occupiedCount 0 .rx) (engine 0 { ready with
      rx := ring 5 0 [0, 1, 2, 3] })) (·.opReturns) = some [.count 3] := by decide
/-- A full ring has equal slots under its cursors and is not empty (R118). -/
theorem test_isEmpty_full : after (exec (.isEmpty 0 .rx) (engine 0 { ready with
      rx := ring 1 5 [0, 1, 2, 3] })) (·.opReturns) = some [.bool false] := by decide
/-- V1: `PEEK` returns the oldest element. -/
theorem test_peek : after (exec (.peek 0 .ts) (engine 0 { ready with
      ts := ring 3 0 [⟨1, 2, 3⟩, ⟨7, 8, 9⟩] })) (·.opReturns) =
    some [.record (some ⟨7, 8, 9⟩)] := by decide

/-! ### Lifecycle (spec/95 2.3) -/

/-- 2.3: the four driver calls in order. -/
theorem test_init_calls : after (exec (.init 4 (opts .alwaysDrain false 0))
      (engine 4 (Channel.fresh ⟨4, 4, 2⟩) (draws [] [] [.ok] []))) (fun t => callsOf 4 t.drvTrace) =
    some [.configure 115200 8 0 0 0 .ok, .enableReceiveInterrupt, .irqClearPending, .irqEnable] := by
  decide
/-- 2.3: options are latched on `CFG_OK` only. -/
theorem test_init_rejected : after (exec (.init 4 (opts .drainWhenEmpty true 0x7E))
      (engine 4 (Channel.fresh ⟨4, 4, 2⟩) (draws [] [] [.rejected] []))) (fun t =>
        (t.responses.flatMap responseWords, t.ch[4]?.map statusWord)) =
    some ([0x01040000], some 0x0002) := by decide

/-! ### Commands (spec/95 2.6 and the programs) -/

/-- PR1 step 5. -/
theorem test_sendByte_arms : after (exec (.sendByte 0 0x41) (engine 0 ready)) (fun t =>
      (t.ch[0]?.map (·.tx), callsOf 0 t.drvTrace)) =
    some (some (ring 0 1 [0x41, 0, 0, 0]), [.enableTransmitPath, .enableTransmitInterrupt]) := by decide
/-- A1. -/
theorem test_sendByte_full : reply (exec (.sendByte 0 1) (engine 0 { ready with
      tx := ring 0 4 [1, 2, 3, 4], txArmed := true })) = some [0x02000000] := by decide
/-- A3: an exact fit on an armed channel makes no driver call. -/
theorem test_sendBytes_armed : after (exec (.sendBytes 0 [1, 2]) (engine 0 { ready with
      tx := ring 0 2 [9, 9, 0, 0], txArmed := true })) (fun t => (t.ch[0]?.map (·.tx), t.drvTrace)) =
    some (some (ring 0 4 [9, 9, 1, 2]), []) := by decide
/-- A4. -/
theorem test_sendBytes_empty : after (exec (.sendBytes 0 []) (engine 0 ready)) (fun t =>
      (t.ch[0]?.map (·.txArmed), t.drvTrace)) = some (some false, []) := by decide
theorem test_available : reply (exec (.available 1) (engine 1 { ready with
      rx := ring 6 2 [0, 0, 0, 0] })) = some [0x00010004] := by decide
/-- A6: a byte 0x00 is no error. -/
theorem test_readByte_zero : reply (exec (.readByte 1) (engine 1 { ready with
      rx := ring 0 1 [0, 9, 9, 9] })) = some [0x00010000] := by decide
/-- A7. -/
theorem test_readByte_empty : reply (exec (.readByte 1) (engine 1 ready)) = some [0x03010000] := by
  decide
/-- A8. -/
theorem test_readBytes_packed : reply (exec (.readBytes 1 5) (engine 1 { ready with
      rx := ring 1 6 [0xEE, 0xAA, 0xBB, 0xCC, 0xDD] })) =
    some [0x00010005, 0xDDCCBBAA, 0x000000EE] := by decide
/-- PR2 step 6. -/
theorem test_readBytes_underflow : reply (exec (.readBytes 1 5) (engine 1 { ready with
      rx := ring 0 4 [1, 2, 3, 4] })) = some [0x04010000] := by decide
/-- A12: the switch is off. -/
theorem test_tsAvailable_off : reply (exec (.tsAvailable 1) (engine 1 { ready with
      ts := ring 0 1 [⟨1, 1, 1⟩, ⟨1, 1, 1⟩] })) = some [0x00010000] := by decide
/-- PR3 step 5. -/
theorem test_tsAvailable_on : reply (exec (.tsAvailable 2) (engine 2 { ready with
      tsEnable := true, ts := ring 0 1 [⟨100, 3, 3⟩, ⟨0, 0, 0⟩] })) = some [0x00020001] := by decide
/-- PR3 step 8: bit 2 of the mask. -/
theorem test_tsAvailableAll : reply (exec .tsAvailableAll (engine 2 { ready with
      tsEnable := true, ts := ring 0 1 [⟨100, 3, 3⟩, ⟨0, 0, 0⟩] })) =
    some [0x00000001, 0x00000004] := by decide
/-- A11. -/
theorem test_tsAvailableAll_none : reply (exec .tsAvailableAll State.reset) = some [0, 0] := by decide
/-- PR3 step 9: the record and its bytes. -/
theorem test_tsRead : reply (exec (.tsRead 2) (engine 2 { ready with
      tsEnable := true, rx := ring 0 3 [0x41, 0x42, 0x0A, 0], ts := ring 0 1 [⟨100, 3, 3⟩, ⟨0, 0, 0⟩] })) =
    some [0x00020003, 0x00000064, 0x000A4241] := by decide
/-- K3: a record longer than what is buffered is an Underflow and stays. -/
theorem test_tsRead_underflow : after (exec (.tsRead 2) (engine 2 { ready with
      tsEnable := true, rx := ring 1 3 [0, 0x42, 0x0A, 0], ts := ring 0 1 [⟨7, 3, 1⟩, ⟨0, 0, 0⟩] }))
      (fun t => (t.responses.flatMap responseWords, t.ch[2]?.map (·.ts.rd))) =
    some ([0x04020000], some 0) := by decide
/-- K2: LIFECYCLE 1, TS_EN, TS_OVF, MARKER 0x0A. -/
theorem test_status_flags : reply (exec (.status 2) (engine 2 { ready with
      tsEnable := true, tsOvf := true, marker := 0x0A })) = some [0x00020A49, 0] := by decide
/-- A9. -/
theorem test_status_uninitialized : reply (exec (.status 7) State.reset) = some [0x00070000, 0] := by
  decide
/-- A10: NotReady before TimestampUnavailable. -/
theorem test_tsRead_notReady : reply (exec (.tsRead 7) State.reset) = some [0x07070000] := by decide
/-- A14, order A: an idle channel with room is armed. -/
theorem test_armTx_idle : after (exec (.armTx 0) (engine 0 ready)) (fun t =>
      (t.ch[0]?.map (·.txArmed), callsOf 0 t.drvTrace)) =
    some (some true, [.enableTransmitPath, .enableTransmitInterrupt]) := by decide

/-! ### The event and what it is made of (spec/95 2.4, 2.5) -/

/-- Q3: transmit before receive. -/
theorem test_dispatch_both : after (exec (.dispatch 0) (engine 0 { ready with
      tx := ring 0 1 [0x41, 0, 0, 0], txArmed := true } (draws [3] [0x99] [] []))) (fun t =>
        (callsOf 0 t.drvTrace, t.ch[0]?.map (·.rx))) =
    some ([.readStatusFlags 3, .writeDataRegister 0x41, .readDataRegister 0x99],
      some (ring 0 1 [0x99, 0, 0, 0])) := by decide
/-- Q4: an idle transmitter is not served. -/
theorem test_dispatch_idle : after (exec (.dispatch 0) (engine 0 { ready with
      tx := ring 1 1 [0, 0, 0, 0] } (draws [2] [] [] []))) (fun t => callsOf 0 t.drvTrace) =
    some [.readStatusFlags 2] := by decide
/-- PR1 step 10. -/
theorem test_txPump_empty : after (exec (.txPump 0) (engine 0 { ready with txArmed := true })) (fun t =>
      (t.ch[0]?.map (·.txArmed), callsOf 0 t.drvTrace)) =
    some (some false, [.disableTransmitInterrupt, .disableTransmitPath]) := by decide
/-- S4 step 5: the byte is read and discarded. -/
theorem test_rxPumpAlways_full : after (exec (.rxPumpAlwaysDrain 1) (engine 1 { ready with
      rx := ring 0 4 [1, 2, 3, 4] } (draws [] [0xA4] [] []))) (fun t =>
        (t.ch[1]?.map (fun c => (c.rx, c.rxOvf, c.ovfCount)), callsOf 1 t.drvTrace)) =
    some (some (ring 0 4 [1, 2, 3, 4], true, 1), [.readDataRegister 0xA4]) := by decide
/-- Q8: the register is left undrained. -/
theorem test_rxPumpWhenEmpty_held : after (exec (.rxPumpDrainWhenEmpty 3) (engine 3 { ready with
      policy := .drainWhenEmpty, rx := ring 0 1 [0x55, 0, 0, 0] })) (·.drvTrace) = some [] := by decide
/-- Q9: the counter saturates. -/
theorem test_overflow_saturates : after (exec (.overflow 0) (engine 0 { ready with
      ovfCount := 65535 })) (fun t => t.ch[0]?.map (fun c => (c.rxOvf, c.ovfCount))) =
    some (some (true, 65535)) := by decide
/-- K1: a marker as the first byte of a run. -/
theorem test_observe_marker : after (exec (.observe 2 0x0A) (engine 2 { ready with
      tsEnable := true, marker := 0x0A, rx := ring 0 1 [0x0A, 0, 0, 0] } (draws [] [] [] [5]))) (fun t =>
        t.ch[2]?.map (fun c => (c.ts, c.runLength))) =
    some (some (ring 0 1 [⟨5, 1, 1⟩, ⟨0, 0, 0⟩], 0)) := by decide
/-- K2: a record that finds the TS ring full is dropped. -/
theorem test_observe_full : after (exec (.observe 2 0x0A) (engine 2 { ready with
      tsEnable := true, marker := 0x0A, ts := ring 0 2 [⟨5, 1, 1⟩, ⟨6, 1, 1⟩] }
      (draws [] [] [] [9]))) (fun t => t.ch[2]?.map (fun c => (c.ts.wr, c.tsOvf, c.runLength))) =
    some (some (2, true, 0)) := by decide

/-! ### Witnesses: a state and operands that meet each statement's hypotheses -/

/-- A Ready channel with every ring full, armed, timestamps on. -/
def full : Channel :=
  { ready with
    tsEnable := true, marker := 0x0A, txArmed := true
    rx := ring 3 7 [1, 0x0A, 3, 0x0A], tx := ring 5 1 [1, 2, 3, 4]
    ts := ring 1 3 [⟨9, 2, 1⟩, ⟨5, 2, 3⟩] }

/-- A Ready channel with every ring neither empty nor full, idle. -/
def half : Channel :=
  { ready with
    tsEnable := true, marker := 0x0A
    rx := ring 7 1 [0x0A, 2, 3, 1], tx := ring 3 4 [1, 2, 3, 4], ts := ring 3 0 [⟨9, 2, 1⟩, ⟨5, 2, 1⟩] }

/-- A channel record of capacities as `ready`'s in another lifecycle state. -/
def inStatus (st : Lifecycle) : Channel := { ready with status := st }

/-- An engine of one channel. -/
def single (c : Channel) (d : Draws := .fresh) : State :=
  { State.resetFor ⟨[⟨4, 4, 2⟩], 0⟩ with ch := [c], env := [d] }

/-- Each channel record the witnesses below use stands in the table of an engine: the hypothesis every
per-operation statement makes of its channel. -/
theorem test_meets_lookup : ∀ c ∈ [ready, full, half, inStatus .ready, inStatus .fault, inStatus .initError],
    (engine 0 c).ch[(0 : Byte).toNat]? = some c ∧ (engine 7 c).ch[(7 : Byte).toNat]? = some c := by decide

theorem test_meets_DecodeEncodeRoundTrip :
    (Instr.status 255).wf 256 = true ∧ (Instr.status 255).requestable = true := by decide
theorem test_meets_AcceptedWordsAreTheEncoding :
    dec [0x03070001, 0xDEADBE7E] = some (.sendBytes 7 [0x7E]) ∧ dec [0x0A070000] = some (.status 7) := by
  decide
theorem test_meets_StreamSplitsInOneWay : IsCommand [0x03070001, 0xDEADBE7E] := ⟨_, _, rfl, rfl⟩
theorem test_meets_IllegalCommandsAreAnswered :
    IsCommand [0x03080001, 0x00000000] ∧
      nextArrival [0x03080001] [.word 0, .word 5] = .command [0x03080001, 0x00000000] [.word 5] ∧
      why [0x03080001, 0x00000000] = some .noSuchChannel :=
  ⟨⟨_, _, rfl, rfl⟩, by decide, by decide⟩
theorem test_meets_StepRunsTheDecodedCommand :
    IsCommand ([0x01020A02] ++ [0x0001C200, 0x00000008]) ∧
      dec ([0x01020A02] ++ [0x0001C200, 0x00000008]) = some (.init 2 (opts .alwaysDrain true 0x0A)) :=
  ⟨⟨_, _, rfl, rfl⟩, by decide⟩
theorem test_meets_StepServesTheNextEvent :
    IsIncomplete ([] ++ ([] : List Word)) ∧ IsIncomplete ([0x01020A02] ++ [0x0001C200]) :=
  ⟨.inl rfl, .inr ⟨_, _, rfl, by decide⟩⟩
theorem test_meets_IncompleteCommandWaits :
    IsIncomplete ([] ++ [0x01020A02]) ∧ ({ State.reset with stimulus := [.word 0x01020A02] } : State).stimulus =
      ([0x01020A02] : List Word).map .word :=
  ⟨.inr ⟨_, _, rfl, by decide⟩, rfl⟩
theorem test_meets_OccupiedCountOfCursors :
    (1 ≤ (ring 1 0 [7] : RingBuffer Byte).cap ∧ (ring 1 0 [7] : RingBuffer Byte).rd < 2 * 1) ∧
      (ring 1 0 [7] : RingBuffer Byte).occ = 1 := by decide
theorem test_meets_RingIsABoundedQueue : full.ts.Ok ∧ half.ts.Ok ∧ ready.ts.Ok := by decide
theorem test_meets_RingRunIsFifo : full.rx.Ok ∧ half.rx.Ok ∧ ready.rx.Ok := by decide
theorem test_meets_PushResult : (engine 7 full).ch[(7 : Byte).toNat]? = some full ∧
    full.rx.occ = full.rx.cap ∧ half.rx.occ ≠ half.rx.cap := by decide
theorem test_meets_PopResult : (engine 0 half).ch[(0 : Byte).toNat]? = some half ∧ half.RingsOk ∧
    (half.rx.wr ≠ half.rx.rd ∧ half.tx.wr ≠ half.tx.rd ∧ half.ts.wr ≠ half.ts.rd) ∧
    ready.RingsOk ∧ ready.rx.wr = ready.rx.rd ∧ ready.tx.wr = ready.tx.rd ∧
    ready.ts.wr = ready.ts.rd := by decide
theorem test_meets_PushBulkResult : (engine 0 half).ch[(0 : Byte).toNat]? = some half ∧ half.RingsOk ∧
    (half.rx.cap - half.rx.occ = 2 ∧ half.tx.cap - half.tx.occ = 3 ∧ half.ts.cap - half.ts.occ = 1) := by
  decide
theorem test_meets_PopBulkResult : (engine 0 half).ch[(0 : Byte).toNat]? = some half ∧ half.RingsOk ∧
    (half.rx.occ = 2 ∧ half.tx.occ = 1 ∧ half.ts.occ = 1) := by decide
theorem test_meets_RingQueriesResult : (engine 0 full).ch[(0 : Byte).toNat]? = some full ∧
    full.RingsOk := by decide
theorem test_meets_InternalOperationNeedsAChannel : (Instr.armTx 8).requestable = false ∧
    (Instr.armTx 8).channel = some 8 ∧ State.reset.ch.length ≤ (8 : Byte).toNat := by decide
theorem test_meets_InitSucceeds : ∀ st ∈ [Lifecycle.uninitialized, .initError],
    (engine 4 (inStatus st)).ch[(4 : Byte).toNat]? = some (inStatus st) ∧ (inStatus st).status = st ∧
      (engine 4 (inStatus st) (draws [] [] [.ok] [])).nextConfigure 4 = .ok := by decide
theorem test_meets_InitFails : (∀ st ∈ [Lifecycle.ready, .fault, .initError],
      (engine 4 (inStatus st)).ch[(4 : Byte).toNat]? = some (inStatus st)) ∧ (inStatus .ready).status = .ready ∧ (inStatus .fault).status = .fault ∧
    ∀ r ∈ [CfgResult.rejected, .failed],
      (engine 4 (inStatus .initError) (draws [] [] [r] [])).nextConfigure 4 = r ∧ r ≠ .ok := by decide
theorem test_meets_LifecycleMovesOnlyForward : ∃ t, step ({ engine 4 (inStatus .initError)
      (draws [] [] [.failed] []) with stimulus := [.word 0x01040000, .word 0, .word 0] }) = .next t ∧
    t.ch[4]?.map (·.status) = some .fault := ⟨_, rfl, by decide⟩
theorem test_meets_NotReadyChannels : ∀ st ∈ [Lifecycle.uninitialized, .initError, .fault],
    (engine 0 (inStatus st)).ch[(0 : Byte).toNat]? = some (inStatus st) ∧
      (inStatus st).status ≠ .ready := by decide
theorem test_meets_CommandsNeedAChannel : (Instr.status 8).isCommand = true ∧
    (Instr.status 8).channel = some 8 ∧ State.reset.ch.length ≤ (8 : Byte).toNat := by decide
theorem test_meets_SendByteResult : (engine 0 half).ch[(0 : Byte).toNat]? = some half ∧
    half.status = .ready ∧ half.tx.occ ≠ half.tx.cap ∧ full.status = .ready ∧
    full.tx.occ = full.tx.cap := by decide
theorem test_meets_SendBytesResult : (engine 0 half).ch[(0 : Byte).toNat]? = some half ∧
    half.status = .ready ∧ half.RingsOk ∧ half.tx.cap - half.tx.occ = 3 := by decide
theorem test_meets_ArmTxResult : (engine 0 half).ch[(0 : Byte).toNat]? = some half ∧
    half.txArmed = false ∧ full.txArmed = true := by decide
theorem test_meets_TxPumpResult : (engine 0 half).ch[(0 : Byte).toNat]? = some half ∧ half.RingsOk ∧
    half.tx.occ ≠ 0 ∧ ready.RingsOk ∧ ready.tx.occ = 0 := by decide
theorem test_meets_AvailableResult : (engine 0 full).ch[(0 : Byte).toNat]? = some full ∧
    full.status = .ready ∧ full.RingsOk := by decide
theorem test_meets_ReadByteResult : (engine 0 half).ch[(0 : Byte).toNat]? = some half ∧
    half.status = .ready ∧ half.RingsOk ∧ half.rx.occ ≠ 0 ∧ ready.rx.occ = 0 := by decide
theorem test_meets_ReadBytesResult : (engine 0 half).ch[(0 : Byte).toNat]? = some half ∧
    half.status = .ready ∧ half.RingsOk ∧ (2 : Half).toNat ≤ half.rx.occ ∧
    half.rx.occ < (3 : Half).toNat := by decide
theorem test_meets_OverflowResult : (engine 0 full).ch[(0 : Byte).toNat]? = some full := by decide
theorem test_meets_RxPumpAlwaysDrainResult : (engine 0 full).ch[(0 : Byte).toNat]? = some full ∧
    full.rx.occ = full.rx.cap ∧ half.rx.occ ≠ half.rx.cap := by decide
theorem test_meets_RxPumpDrainWhenEmptyResult : (engine 0 half).ch[(0 : Byte).toNat]? = some half ∧
    half.RingsOk ∧ half.rx.occ ≠ 0 ∧ ready.RingsOk ∧ ready.rx.occ = 0 := by decide
theorem test_meets_ObserveResult : (engine 0 full).ch[(0 : Byte).toNat]? = some full := by decide
theorem test_meets_TsAvailableResult : (engine 0 half).ch[(0 : Byte).toNat]? = some half ∧
    half.status = .ready ∧ half.RingsOk := by decide
theorem test_meets_TsAvailableAllResult : ∀ c ∈ (engine 7 half).ch, c.RingsOk := by decide
theorem test_meets_TsReadResult : (engine 0 half).ch[(0 : Byte).toNat]? = some half ∧
    half.status = .ready ∧ half.RingsOk ∧ (half.tsEnable = true ∧ half.ts.occ ≠ 0) ∧
    (half.ts.store[half.ts.rd % half.ts.cap]?.map fun r => decide (r.length.toNat ≤ half.rx.occ)) =
      some true ∧ ready.tsEnable = false ∧ ready.ts.occ = 0 := by decide
/-- The clause of Underflow: a record of 3 bytes over 2 buffered ones (spec/95 K3). -/
theorem test_meets_TsReadResult_underflow :
    ({ half with ts := ring 0 1 [⟨7, 3, 1⟩, ⟨0, 0, 0⟩] } : Channel).RingsOk ∧
      half.rx.occ < (3 : Half).toNat := by decide
theorem test_meets_StatusResult : (engine 0 half).ch[(0 : Byte).toNat]? = some half := by decide
theorem test_meets_DispatchResult : (engine 0 full).ch[(0 : Byte).toNat]? = some full ∧
    full.status = .ready ∧ full.RingsOk ∧ full.tx.occ ≠ 0 := by decide
theorem test_meets_EventWithoutReadyChannelDoesNothing :
    (∀ c, State.reset.ch[(8 : Byte).toNat]? = some c → c.status ≠ .ready) ∧
      ∀ c, State.reset.ch[(7 : Byte).toNat]? = some c → c.status ≠ .ready := by
  refine ⟨fun c h => ?_, fun c h => ?_⟩
  · simp [State.reset, State.resetFor, Config.reference] at h
  · simp [State.reset, State.resetFor, Config.reference] at h
    subst h
    decide
theorem test_meets_DispatchIsBounded : ∃ t d, exec (.dispatch 0) (engine 0 full (draws [3] [1] [] [])) =
    .next t ∧ t.ch[(0 : Byte).toNat]? = some d ∧ full.RingsOk := ⟨_, _, rfl, rfl, by decide⟩
theorem test_meets_ChannelsAreIsolated : ∃ t, (Instr.sendByte 0 1).channel = some 0 ∧
    exec (.sendByte 0 1) (engine 0 half) = .next t ∧ (1 : Nat) ≠ (0 : Byte).toNat :=
  ⟨_, rfl, rfl, by decide⟩
theorem test_meets_OperationsSeeOneChannel : ∃ t,
    exec (.sendByte 0 1) { engine 0 half with ch := [half, full] } = .next t ∧
      (Instr.sendByte 0 1).requestable = true ∧ (engine 0 half).ch[(0 : Byte).toNat]? = some half :=
  ⟨_, rfl, by decide, by decide⟩
theorem test_meets_DifferentChannelsCommute : (Instr.sendByte 0 1).requestable = true ∧
    (Instr.dispatch 1).requestable = true ∧ (Instr.dispatch 1).channel = some 1 ∧ (0 : Byte) ≠ 1 := by
  decide
theorem test_meets_InterruptContextKeepsForegroundState : ∃ t,
    permits .interrupt (.dispatch 0) = true ∧
      exec (.dispatch 0) (engine 0 full (draws [3] [1] [] [])) = .next t := ⟨_, rfl, rfl⟩
theorem test_meets_ForegroundKeepsInterruptState : ∃ t,
    permits .foreground (.sendByte 0 1) = true ∧ (∀ ch o, Instr.sendByte 0 1 ≠ .init ch o) ∧
      exec (.sendByte 0 1) (engine 0 half) = .next t :=
  ⟨_, rfl, fun _ _ h => Instr.noConfusion h, rfl⟩
theorem test_meets_ErrorsChangeNothing : (Instr.init 0 (opts .alwaysDrain false 0)).isCommand = true ∧
    (Instr.readByte 0).isCommand = true := by decide
/-- An illegal command and then a read, with an event inside the read. -/
theorem test_meets_MicroStepRunsLinearize : (single half).TableOk ∧
    (∀ words ∈ ([[0xFFFFFFFF], [0x05000000]] : List (List Word)), IsCommand words) ∧
    (microRun (.ofCommands [[0xFFFFFFFF], [0x05000000]] (single half (draws [1] [7] [] [])))
      [.foreground, .foreground, .foreground, .event 0, .foreground, .foreground, .foreground]).Finished :=
  ⟨by decide, fun w h => by
    simp only [List.mem_cons, List.not_mem_nil, or_false] at h
    rcases h with rfl | rfl <;> exact ⟨_, _, rfl, rfl⟩, by decide⟩

/-- S4 after step 5: a full RX ring and one byte lost, with the event of step 7 to come. -/
def s4 : Micro := .ofCommands [[0x05000000]] (single { ready with
  rx := ring 0 4 [0xA0, 0xA1, 0xA2, 0xA3], rxOvf := true, ovfCount := 1 } (draws [1] [0xA5] [] []))

/-- S4, micro-step variant: an event before the publication of `rx.rd` finds the ring full. -/
theorem test_micro_event_first :
    let moves := [Move.foreground, .foreground, .foreground, .foreground, .event 0, .foreground]
    s4.linearize moves = [.event 0, .command [0x05000000]] ∧
      (microRun s4 moves).st.ch.map (fun c => (c.rx, c.ovfCount)) =
        [(ring 1 4 [0xA0, 0xA1, 0xA2, 0xA3], 2)] := by decide
/-- S4, micro-step variant: an event after the publication stores its byte in slot 0. -/
theorem test_micro_command_first :
    let moves := [Move.foreground, .foreground, .foreground, .foreground, .foreground, .event 0]
    s4.linearize moves = [.command [0x05000000], .event 0] ∧
      (microRun s4 moves).st.ch.map (fun c => (c.rx, c.ovfCount)) =
        [(ring 1 5 [0xA5, 0xA1, 0xA2, 0xA3], 1)] := by decide
/-- R69: a read that fails stands at its snapshot, before an event that falls between snapshot and
decision. -/
theorem test_micro_failure_at_snapshot :
    (Micro.ofCommands [[0x05000000]] (single ready (draws [1] [7] [] []))).linearize
      [.foreground, .foreground, .event 0, .foreground] = [.command [0x05000000], .event 0] := by decide
theorem test_meets_ResetSatisfiesTheInvariants : Config.reference.Ok ∧ State.reset.fClk = 0 ∧
    State.reset.env.length = State.reset.ch.length := by decide
theorem test_meets_TableInvariantIsKept : ∃ t, (engine 0 half).TableOk ∧ (engine 0 half).BufferOk ∧
    step { engine 0 half with stimulus := [.word 0x02000041] } = .next t :=
  ⟨_, by decide, by decide, rfl⟩
theorem test_meets_NoLostWakeupIsKept : ∃ t, full.NoLostWakeup ∧ ready.NoLostWakeup ∧
    step (single full) = .next t := ⟨_, by decide, by decide, rfl⟩
theorem test_meets_ArmingAlternatesIsKept : ArmingAlternates 0 ready [] ∧
    ArmingAlternates 0 full [⟨0, .enableTransmitPath⟩, ⟨0, .enableTransmitInterrupt⟩] :=
  ⟨⟨0, rfl⟩, ⟨0, rfl⟩⟩
theorem test_meets_ChannelInvariantsAreKept : ∀ c ∈ [ready, full, half, inStatus .fault],
    c.QuietUntilReady ∧ c.OneByteWhenEmptyPolicy ∧ c.NoTimestampsWhenOff ∧ c.OverflowConsistent ∧
      c.RecordsOk := by decide
theorem test_meets_TwoByteReadUnderflowsWhenEmptyPolicy :
    ({ ready with policy := .drainWhenEmpty, rx := ring 0 1 [5, 0, 0, 0] } : Channel).OneByteWhenEmptyPolicy ∧
      2 ≤ (2 : Half).toNat := by decide
theorem test_meets_Paired : half.PairingApplies ∧ half.Paired :=
  ⟨by decide, [[1, 0x0A]], [], by decide, .cons (by decide) .nil, by decide, by decide⟩
theorem test_meets_PairingIsKept : ∃ t, (Instr.tsRead 0).requestable = true ∧
    (∀ ch, Instr.tsRead 0 ≠ .readByte ch) ∧ (∀ ch n, Instr.tsRead 0 ≠ .readBytes ch n) ∧
    exec (.tsRead 0) (single half) = .next t :=
  ⟨_, rfl, fun _ h => Instr.noConfusion h, fun _ _ h => Instr.noConfusion h, rfl⟩
theorem test_meets_PairingMakesTimestampReadsSucceed : (engine 0 half).ch[(0 : Byte).toNat]? = some half ∧
    half.status = .ready ∧ half.RingsOk ∧ half.PairingApplies ∧ half.ts.occ ≠ 0 := by decide
theorem test_meets_AnswersStayValidUnderEvents :
    (single half).TableOk ∧ reply (exec (.available 0) (single half)) = some [0x00000002] ∧
      reply (exec (.tsAvailable 0) (single half)) = some [0x00000001] := by decide

/-- `half` with its rings at other cursor values, another stream position and another start time. -/
def halfElsewhere : Channel :=
  { half with
    rx := ring 0 2 [1, 0x0A, 7, 7], tx := ring 6 7 [9, 9, 4, 9], ts := ring 0 1 [⟨5, 2, 3⟩, ⟨0, 0, 0⟩]
    runStart := 77 }

theorem test_meets_AbstractValueDecides : ∃ t, (single half).TableOk ∧ (single halfElsewhere).TableOk ∧
    (single half).Same (single halfElsewhere) ∧
      step { single half with stimulus := [.word 0x09000000] } = .next t :=
  ⟨_, by decide, by decide,
    ⟨.cons ⟨rfl, rfl, rfl, rfl, rfl, by decide, by decide, rfl, .cons (by decide) .nil, rfl, by decide,
      rfl, rfl, rfl⟩ .nil, rfl⟩, rfl⟩

end Sys2Proof.Tests
end

/-!
SUPPORT and statements settled: the operations by themselves on an absent channel and at an overflow (R9,
R146), and the state after reset with the invariants it meets (R5, R37).
-/

namespace Sys2Proof.Machine

/-! ### Operations executed by themselves -/

/-- The ten commands are operations of a port (R86, R101). -/
theorem Instr.requestable_of_isCommand {i : Instr} (h : i.isCommand = true) :
    i.requestable = true := by
  revert h
  cases i <;> simp [Instr.isCommand, Instr.requestable]

/-- Settles O19: an internal operation is neither a command nor requestable, and so falls under the last
of the three answers an operation can have on an absent channel. -/
theorem internalOperationNeedsAChannel : Obligations.InternalOperationNeedsAChannel := by
  intro s i ch hreq hch hlen
  have hcmd : i.isCommand ≠ true := fun h => by
    rw [Instr.requestable_of_isCommand h] at hreq
    cases hreq
  rw [exec_of_absent hch hlen, if_neg hcmd, hreq]
  rfl

/-- Settles O32: `exec` commits the lane `OVERFLOW` leaves, which differs in the record alone. -/
theorem overflowResult : Obligations.OverflowResult := by
  intro s ch c hc
  rw [exec_of_channel rfl hc]
  simp only [laneOp, overflow_eq, State.finish_silent, State.commit_eq, State.withDraws_self]

/-! ### The state the model takes after reset -/

theorem RingBuffer.fresh_asReset {α : Type} (cap : Nat) (x : α) :
    (RingBuffer.fresh cap x).AsReset cap :=
  ⟨rfl, rfl, rfl, List.length_replicate⟩

theorem Channel.fresh_asReset (k : Capacities) : (Channel.fresh k).AsReset k :=
  ⟨rfl, rfl, rfl, rfl, rfl, RingBuffer.fresh_asReset _ _, RingBuffer.fresh_asReset _ _,
    RingBuffer.fresh_asReset _ _, rfl, rfl, rfl, rfl⟩

theorem State.resetFor_asReset (p : Params) : (State.resetFor p).AsReset p := by
  have htable : List.Forall₂ Channel.AsReset (State.resetFor p).ch p.channels :=
    List.forall₂_map_left_iff.mpr (List.forall₂_same.mpr fun k _ => Channel.fresh_asReset k)
  exact ⟨rfl, htable, by simp [State.resetFor], rfl, rfl, rfl⟩

/-- Settles O51: the table holds for any build parameters, and the reference ones are in range. -/
theorem resetIsAsSpecified : Obligations.ResetIsAsSpecified :=
  ⟨State.resetFor_asReset, rfl, by decide⟩

/-! ### A ring as reset leaves it -/

section ring
variable {α : Type} {q : RingBuffer α} {cap : Nat}

theorem RingBuffer.AsReset.occ_eq_zero (h : q.AsReset cap) : q.occ = 0 := by
  obtain ⟨-, hrd, hwr, -⟩ := h
  simp [RingBuffer.occ, hrd, hwr]

theorem RingBuffer.AsReset.empty (h : q.AsReset cap) : q.empty = true := by
  obtain ⟨-, hrd, hwr, -⟩ := h
  simp [RingBuffer.empty, hrd, hwr]

theorem RingBuffer.AsReset.contents_eq_nil [Inhabited α] (h : q.AsReset cap) : q.contents = [] :=
  List.length_eq_zero_iff.mp (by rw [RingBuffer.contents_length, h.occ_eq_zero])

/-- With a capacity in R5's range the ring is well formed, whatever its slots hold. -/
theorem RingBuffer.AsReset.ok (h : q.AsReset cap) (hcap : Config.CapacityOk cap) : q.Ok := by
  have hocc := h.occ_eq_zero
  obtain ⟨rfl, hrd, hwr, hstore⟩ := h
  have hpos : 1 ≤ q.cap := hcap.1
  exact ⟨hcap, by omega, by omega, by omega, hstore⟩

end ring

/-! ### A channel record as reset leaves it -/

section channel
variable {c : Channel} {k : Capacities}

theorem Channel.AsReset.ringsOk (h : c.AsReset k) (hrx : Config.CapacityOk k.rx)
    (htx : Config.CapacityOk k.tx) (hts : Config.CapacityOk k.ts) : c.RingsOk := by
  obtain ⟨-, -, -, -, -, rx, tx, ts, -⟩ := h
  exact ⟨rx.ok hrx, tx.ok htx, ts.ok hts⟩

theorem Channel.AsReset.quietUntilReady (h : c.AsReset k) : c.QuietUntilReady := by
  obtain ⟨-, hpolicy, htsEnable, hmarker, harmed, ⟨-, hrxRd, hrxWr, -⟩,
    ⟨-, htxRd, htxWr, -⟩, ⟨-, htsRd, htsWr, -⟩, hrun, hrxOvf, htsOvf, hcount⟩ := h
  exact fun _ => ⟨hpolicy, htsEnable, hmarker, harmed, ⟨hrxRd, hrxWr⟩, ⟨htxRd, htxWr⟩,
    ⟨htsRd, htsWr⟩, hrun, hrxOvf, hcount, htsOvf⟩

theorem Channel.AsReset.noLostWakeup (h : c.AsReset k) : c.NoLostWakeup := by
  obtain ⟨-, -, -, -, -, -, tx, -⟩ := h
  intro hne
  rw [tx.empty] at hne
  cases hne

theorem Channel.AsReset.oneByteWhenEmptyPolicy (h : c.AsReset k) : c.OneByteWhenEmptyPolicy := by
  obtain ⟨-, -, -, -, -, rx, -, -, -, hrxOvf, -, hcount⟩ := h
  exact fun _ => ⟨by rw [rx.occ_eq_zero]; exact Nat.zero_le 1, hrxOvf, hcount⟩

theorem Channel.AsReset.noTimestampsWhenOff (h : c.AsReset k) : c.NoTimestampsWhenOff := by
  obtain ⟨-, -, -, -, -, -, -, ⟨-, hrd, hwr, -⟩, hrun, -, htsOvf, -⟩ := h
  exact fun _ => ⟨hrd, hwr, hrun, htsOvf⟩

theorem Channel.AsReset.overflowConsistent (h : c.AsReset k) : c.OverflowConsistent := by
  obtain ⟨-, -, -, -, -, -, -, -, -, hrxOvf, -, hcount⟩ := h
  simp [Channel.OverflowConsistent, hrxOvf, hcount]

theorem Channel.AsReset.recordsOk (h : c.AsReset k) : c.RecordsOk := by
  obtain ⟨-, -, -, -, -, -, -, ts, -⟩ := h
  intro r hr
  rw [ts.contents_eq_nil] at hr
  cases hr

/-- No record, no byte and no run in progress: the pairing with no closed run and an empty tail. -/
theorem Channel.AsReset.paired (h : c.AsReset k) : c.Paired := by
  obtain ⟨-, -, -, -, -, rx, -, ts, hrun, -⟩ := h
  refine ⟨[], [], rx.contents_eq_nil, ?_, by rw [hrun]; rfl, List.not_mem_nil⟩
  rw [ts.contents_eq_nil]
  exact .nil

/-- On an empty trace an idle channel has had no armed period. -/
theorem Channel.AsReset.armingAlternates (h : c.AsReset k) (i : Nat) : ArmingAlternates i c [] := by
  obtain ⟨-, -, -, -, harmed, -⟩ := h
  exact ⟨0, by rw [harmed]; rfl⟩

end channel

/-! ### The whole state as reset leaves it -/

/-- Every channel of the table is as reset for some capacities of the build parameters. -/
theorem State.AsReset.channel_asReset {s : State} {p : Params} (h : s.AsReset p) {c : Channel}
    (hc : c ∈ s.ch) : ∃ k ∈ p.channels, c.AsReset k := by
  obtain ⟨-, htable, -⟩ := h
  obtain ⟨n, hn, rfl⟩ := List.getElem_of_mem hc
  have hn' : n < p.channels.length := htable.length_eq ▸ hn
  exact ⟨p.channels[n], List.getElem_mem hn', htable.get hn hn'⟩

theorem State.AsReset.tableOk {s : State} {p : Params} (hp : p.Ok) (h : s.AsReset p) : s.TableOk := by
  obtain ⟨hsize, hcaps⟩ := hp
  have hrings : ∀ c ∈ s.ch, c.RingsOk := fun c hc => by
    obtain ⟨k, hk, hck⟩ := h.channel_asReset hc
    obtain ⟨hrx, htx, hts⟩ := hcaps k hk
    exact hck.ringsOk hrx htx hts
  obtain ⟨-, htable, henv, -⟩ := h
  exact ⟨by rw [htable.length_eq]; exact hsize, henv, hrings⟩

theorem State.AsReset.bufferOk {s : State} {p : Params} (h : s.AsReset p) : s.BufferOk := by
  obtain ⟨-, -, -, -, -, hbuf⟩ := h
  rw [State.BufferOk, hbuf]
  rfl

/-- A well-formed table has its storage in the one form. -/
theorem State.TableOk.memory_wf {s : State} (h : s.TableOk) : Memory.wf s := by
  obtain ⟨-, -, hrings⟩ := h
  intro c hc
  obtain ⟨⟨-, -, -, -, hrx⟩, ⟨-, -, -, -, htx⟩, ⟨-, -, -, -, hts⟩⟩ := hrings c hc
  exact ⟨hrx, htx, hts⟩

/-- Settles O52, each invariant by its own lemma about a channel record as reset leaves it. -/
theorem resetSatisfiesTheInvariants : Obligations.ResetSatisfiesTheInvariants := by
  intro s p hp h
  have htable := h.tableOk hp
  refine ⟨htable, h.bufferOk, htable.memory_wf, fun c hc => ?_, fun i c hc => ?_⟩
  · obtain ⟨k, -, hck⟩ := h.channel_asReset hc
    exact ⟨hck.quietUntilReady, hck.noLostWakeup, hck.oneByteWhenEmptyPolicy,
      hck.noTimestampsWhenOff, hck.overflowConsistent, hck.recordsOk, hck.paired⟩
  · obtain ⟨k, -, hck⟩ := h.channel_asReset (List.mem_of_getElem? hc)
    obtain ⟨-, -, -, htrace, -⟩ := h
    rw [htrace]
    exact hck.armingAlternates i

end Sys2Proof.Machine

/-!
SUPPORT and statements settled: the rings as bounded queues (R24, R112 to R119), and the words of
`STATUS` (R31, R180).
-/

namespace Sys2Proof.Machine

/-! ### The ring primitives on the abstract value -/

section queue
variable {α : Type} [Inhabited α] {q : RingBuffer α}

/-- The oldest slot of a ring that holds something is the head of its abstract value. -/
theorem RingBuffer.contents_head? (q : RingBuffer α) :
    q.contents.head? = if q.occ = 0 then none else some (q.readSlot q.rd) := by
  rw [List.head?_eq_getElem?, q.contents_getElem?]
  by_cases h : q.occ = 0
  · simp [h]
  · simp [h, Nat.pos_of_ne_zero h]

/-- `IS_EMPTY` tells whether the abstract value is empty (R118). -/
theorem RingBuffer.Ok.empty_iff_contents (h : q.Ok) : q.empty = true ↔ q.contents = [] := by
  obtain ⟨-, hrd, hwr, -⟩ := h
  rw [RingBuffer.empty_iff hrd hwr, ← RingBuffer.contents_length, List.length_eq_zero_iff]

/-- `IS_EMPTY` answers false where something is held. -/
theorem RingBuffer.Ok.occ_ne_zero (h : q.Ok) (he : q.empty = false) : q.occ ≠ 0 := by
  rw [← q.contents_length, Ne, List.length_eq_zero_iff, ← h.empty_iff_contents, he]
  exact Bool.false_ne_true

/-- `PUSH` as an operation of the bounded queue (R113). -/
theorem RingBuffer.Ok.push_spec (h : q.Ok) (x : α) :
    (q.push x).1.Ok ∧ (q.push x).1.cap = q.cap ∧
      ((q.push x).2 = true ↔ q.contents.length < q.cap) ∧
      (q.push x).1.contents = if (q.push x).2 then q.contents ++ [x] else q.contents := by
  obtain ⟨-, -, -, hle, -⟩ := id h
  rcases q.push_cases x with ⟨hfull, hp⟩ | ⟨hroom, hp⟩
  · exact ⟨by rw [hp]; exact h, by rw [hp], by simp [hp, hfull], by simp [hp]⟩
  · have hlt : q.occ < q.cap := lt_of_le_of_ne hle hroom
    have hfit : [x].length ≤ q.cap - q.occ := by simp only [List.length_singleton]; omega
    obtain ⟨hok, -, hcont⟩ := (RingBuffer.hasStored_withPushed h x).spec h hfit
    exact ⟨by rw [hp]; exact hok, by rw [hp]; rfl, by simp [hp, hlt], by simp [hp, hcont]⟩

/-- `POP` as an operation of the bounded queue (R114). -/
theorem RingBuffer.Ok.pop_spec (h : q.Ok) :
    q.pop.1.Ok ∧ q.pop.1.cap = q.cap ∧ q.pop.2 = q.contents.head? ∧
      q.pop.1.contents = q.contents.tail := by
  rcases q.pop_cases with ⟨he, hp⟩ | ⟨he, hp⟩
  · have hnil := h.empty_iff_contents.mp he
    exact ⟨by rw [hp]; exact h, by rw [hp], by simp [hp, hnil], by simp [hp, hnil]⟩
  · have h0 : q.occ ≠ 0 := h.occ_ne_zero he
    obtain ⟨hok, -, hcont⟩ := RingBuffer.withRemoved_spec h (n := 1) (by omega)
    exact ⟨by rw [hp]; exact hok, by rw [hp]; rfl, by rw [hp, q.contents_head?, if_neg h0],
      by rw [hp, ← List.drop_one, ← hcont]⟩

/-- `PUSH_BULK` as an operation of the bounded queue (R115). -/
theorem RingBuffer.Ok.pushBulk_spec (h : q.Ok) (v : List α) :
    (q.pushBulk v).1.Ok ∧ (q.pushBulk v).1.cap = q.cap ∧
      ((q.pushBulk v).2 = true ↔ q.contents.length + v.length ≤ q.cap) ∧
      (q.pushBulk v).1.contents = if (q.pushBulk v).2 then q.contents ++ v else q.contents := by
  obtain ⟨-, -, -, hle, -⟩ := id h
  rcases q.pushBulk_cases v with ⟨hfull, hp⟩ | ⟨hroom, hp⟩
  · have hover : q.cap < q.occ + v.length := by omega
    exact ⟨by rw [hp]; exact h, by rw [hp], by simp [hp, hover], by simp [hp]⟩
  · have hfit : q.occ + v.length ≤ q.cap := by omega
    obtain ⟨hok, -, hcont⟩ := (RingBuffer.hasStored_pushed h hroom).spec h hroom
    exact ⟨by rw [hp]; exact hok, by rw [hp]; exact q.memWrite_cap _ _, by simp [hp, hfit],
      by simp [hp, hcont]⟩

/-- `POP_BULK` as an operation of the bounded queue (R116). -/
theorem RingBuffer.Ok.popBulk_spec (h : q.Ok) (n : Nat) :
    (q.popBulk n).1.Ok ∧ (q.popBulk n).1.cap = q.cap ∧
      (q.popBulk n).2 = (if n ≤ q.contents.length then some (q.contents.take n) else none) ∧
      (q.popBulk n).1.contents = if n ≤ q.contents.length then q.contents.drop n else q.contents := by
  rw [q.contents_length]
  rcases q.popBulk_cases n with ⟨hshort, hp⟩ | ⟨hn, hp⟩
  · have hn : ¬ n ≤ q.occ := by omega
    rw [if_neg hn, if_neg hn, hp]
    exact ⟨h, rfl, rfl, rfl⟩
  · obtain ⟨hok, -, hcont⟩ := RingBuffer.withRemoved_spec h hn
    rw [if_pos hn, if_pos hn, hp, q.memRead_rd hn]
    exact ⟨hok, rfl, rfl, hcont⟩

/-- `PEEK` is the head of the abstract value (R119). -/
theorem RingBuffer.Ok.peek_eq_head? (h : q.Ok) : q.peek = q.contents.head? := by
  unfold RingBuffer.peek
  cases he : q.empty
  · rw [q.contents_head?, if_neg (h.occ_ne_zero he)]
    rfl
  · rw [h.empty_iff_contents.mp he]
    rfl

end queue

/-- Settles O12, from what each primitive can do and what storing and removing elements does to the
abstract value. -/
theorem ringIsABoundedQueue : Obligations.RingIsABoundedQueue := fun _ _ _ h =>
  ⟨h.push_spec, h.pop_spec, h.pushBulk_spec, h.popBulk_spec, h.peek_eq_head?, h.empty_iff_contents⟩

/-- Settles O11: each clause is arithmetic of cursors less than a double lap apart. -/
theorem occupiedCountOfCursors : Obligations.OccupiedCountOfCursors := by
  intro α _ q hcap hrd hwr
  have hocc := RingBuffer.occ_cases hrd hwr
  have hzero : q.occ = 0 ↔ q.rd = q.wr := by split at hocc <;> omega
  have hfull : q.occ = q.cap ↔ q.wr = (q.rd + q.cap) % (2 * q.cap) := by
    rw [advance_cases hrd (by omega)]
    split at hocc <;> split <;> omega
  exact ⟨hocc, hzero, RingBuffer.empty_iff hrd hwr, hfull, q.contents_length⟩

/-! ### `STATUS` -/

/-- The status word, bit by bit (R31). -/
theorem getLsbD_statusWord (c : Channel) (i : Nat) : (statusWord c).getLsbD i =
    if i < 2 then (lifecycleBits c.status).getLsbD i
    else if i - 2 < 1 then (policyBit c.policy).getLsbD (i - 2)
    else if i - 3 < 1 then (BitVec.ofBool c.tsEnable).getLsbD (i - 3)
    else if i - 4 < 1 then (BitVec.ofBool c.txArmed).getLsbD (i - 4)
    else if i - 5 < 1 then (BitVec.ofBool c.rxOvf).getLsbD (i - 5)
    else if i - 6 < 1 then (BitVec.ofBool c.tsOvf).getLsbD (i - 6)
    else if i - 7 < 1 then (0#1).getLsbD (i - 7)
    else c.marker.getLsbD (i - 8) := by
  change BitVec.getLsbD (w := 8 + 1 + 1 + 1 + 1 + 1 + 1 + 2) (c.marker ++ 0#1 ++
    BitVec.ofBool c.tsOvf ++ BitVec.ofBool c.rxOvf ++ BitVec.ofBool c.txArmed ++
    BitVec.ofBool c.tsEnable ++ policyBit c.policy ++ lifecycleBits c.status) i = _
  simp only [BitVec.getLsbD_append, Nat.sub_sub]

/-- Bits 1:0 of the status word are the lifecycle's (R28, R31). -/
theorem statusWord_lifecycle (c : Channel) :
    (statusWord c).extractLsb' 0 2 = lifecycleBits c.status := by
  apply BitVec.eq_of_getLsbD_eq
  intro i hi
  simp [getLsbD_statusWord, hi]

/-- Bits 15:8 of the status word are the marker's (R31). -/
theorem statusWord_marker (c : Channel) : (statusWord c).extractLsb' 8 8 = c.marker := by
  apply BitVec.eq_of_getLsbD_eq
  intro i hi
  have hbeyond : ∀ k < 8, ¬ 8 + i - k < 1 := by omega
  rw [BitVec.getLsbD_extractLsb', getLsbD_statusWord, if_neg (by omega)]
  simp [hi, hbeyond, - Nat.lt_one_iff]

/-- Settles O7: the lifecycle and the marker by their fields, the flags bit by bit. -/
theorem statusWordFields : Obligations.StatusWordFields := by
  intro c
  have hpolicy : (policyBit c.policy).getLsbD 0 = decide (c.policy = .drainWhenEmpty) := by
    cases c.policy <;> rfl
  refine ⟨?_, ?_, ?_, ?_, ?_, ?_, ?_, statusWord_marker c, ?_⟩
  · rw [statusWord_lifecycle]
    cases c.status <;> rfl
  · rw [getLsbD_statusWord, ← hpolicy]
    rfl
  · rw [getLsbD_statusWord]
    simp
  · rw [getLsbD_statusWord]
    simp
  · rw [getLsbD_statusWord]
    simp
  · rw [getLsbD_statusWord]
    simp
  · rw [getLsbD_statusWord]
    simp
  · exact BitVec.toNat_setWidth_of_le (by decide)

/-- Settles O39: the body leaves the lane as it is, in every lifecycle state. -/
theorem statusResult : Obligations.StatusResult := by
  intro s ch c hc
  exact congrArg Host.Outcome.next (State.command_only_answers hc (body := statusBody) rfl)

end Sys2Proof.Machine

/-!
SUPPORT and statements settled: every operation keeps every ring well formed, and so does every step
(R20, R23, R24).
-/

namespace Sys2Proof.Machine

/-! ### Every operation on a ring -/

section ring
variable {α : Type} [Inhabited α] {q : RingBuffer α}

theorem RingBuffer.Ok.push (h : q.Ok) (x : α) : (q.push x).1.Ok := (h.push_spec x).1

theorem RingBuffer.Ok.pop (h : q.Ok) : q.pop.1.Ok := h.pop_spec.1

theorem RingBuffer.Ok.pushBulk (h : q.Ok) (v : List α) : (q.pushBulk v).1.Ok :=
  (h.pushBulk_spec v).1

theorem RingBuffer.Ok.popBulk (h : q.Ok) (n : Nat) : (q.popBulk n).1.Ok := (h.popBulk_spec n).1

theorem RingBuffer.Ok.restart (h : q.Ok) : q.restart.Ok := (RingBuffer.restart_spec h).1

end ring

/-! ### Every operation on a channel -/

section rings
variable {c : Channel}

theorem Channel.RingsOk.rx (h : c.RingsOk) : c.rx.Ok := h.1
theorem Channel.RingsOk.tx (h : c.RingsOk) : c.tx.Ok := h.2.1
theorem Channel.RingsOk.ts (h : c.RingsOk) : c.ts.Ok := h.2.2

end rings

/-- Behind the Ready check the body runs, or the answer is NotReady (R132, R170). -/
theorem whenReady_cases (body : Lane → Lane × Reply) (l : Lane) :
    whenReady body l = body l ∨ whenReady body l = (l, .raise .notReady) := by
  by_cases h : l.chan.status = .ready
  · exact .inl (whenReady_of_ready h body)
  · exact .inr (whenReady_of_not h body)

section lane
variable {l : Lane}

theorem accumulate_ringsOk (h : l.chan.RingsOk) : (accumulate l).chan.RingsOk := by
  unfold accumulate
  split <;> exact h

theorem closeRun_ringsOk {c : Channel} (h : c.RingsOk) : (closeRun c).RingsOk := by
  obtain ⟨hrx, htx, hts⟩ := h
  exact ⟨hrx, htx, hts.push _⟩

theorem observe_ringsOk (b : Byte) (h : l.chan.RingsOk) : (observe b l).chan.RingsOk := by
  unfold observe
  split
  · exact closeRun_ringsOk (accumulate_ringsOk h)
  · exact accumulate_ringsOk h

theorem acceptByte_ringsOk (b : Byte) (h : l.chan.RingsOk) : (acceptByte b l).chan.RingsOk := by
  obtain ⟨hrx, htx, hts⟩ := h
  unfold acceptByte
  dsimp only
  split
  · exact observe_ringsOk b ⟨hrx.push b, htx, hts⟩
  · exact ⟨hrx.push b, htx, hts⟩

theorem rxPumpAlwaysDrain_ringsOk (h : l.chan.RingsOk) : (rxPumpAlwaysDrain l).chan.RingsOk := by
  unfold rxPumpAlwaysDrain
  dsimp only
  split
  · exact acceptByte_ringsOk _ (l := l.readDataRegister.2) h
  · exact h

theorem rxPumpDrainWhenEmpty_ringsOk (h : l.chan.RingsOk) :
    (rxPumpDrainWhenEmpty l).chan.RingsOk := by
  unfold rxPumpDrainWhenEmpty
  split
  · exact acceptByte_ringsOk _ (l := l.readDataRegister.2) h
  · exact h

theorem rxPump_ringsOk (h : l.chan.RingsOk) : (rxPump l).chan.RingsOk := by
  unfold rxPump
  split
  · exact rxPumpAlwaysDrain_ringsOk h
  · exact rxPumpDrainWhenEmpty_ringsOk h

theorem txPump_ringsOk (h : l.chan.RingsOk) : (txPump l).chan.RingsOk := by
  obtain ⟨hrx, htx, hts⟩ := h
  unfold txPump
  split
  · exact ⟨hrx, htx.pop, hts⟩
  · exact ⟨hrx, htx, hts⟩

theorem armTx_ringsOk (h : l.chan.RingsOk) : (armTx l).chan.RingsOk := by
  unfold armTx
  split <;> exact h

/-- An event on a Ready channel is its status read and then at most the two pumps (R140). -/
theorem dispatchReady_cases (l : Lane) :
    let l1 := l.readStatusFlags.2
    (dispatchReady l = l1 ∨ dispatchReady l = txPump l1) ∨
      dispatchReady l = rxPump l1 ∨ dispatchReady l = rxPump (txPump l1) := by
  unfold dispatchReady
  dsimp only
  split <;> split
  · exact .inr (.inr rfl)
  · exact .inr (.inl rfl)
  · exact .inl (.inr rfl)
  · exact .inl (.inl rfl)

theorem dispatchReady_ringsOk (h : l.chan.RingsOk) : (dispatchReady l).chan.RingsOk := by
  have h1 : l.readStatusFlags.2.chan.RingsOk := h
  rcases dispatchReady_cases l with (he | he) | he | he <;> rw [he]
  · exact h1
  · exact txPump_ringsOk h1
  · exact rxPump_ringsOk h1
  · exact rxPump_ringsOk (txPump_ringsOk h1)

theorem initConfigured_ringsOk (o : InitOptions) (r : CfgResult) (h : l.chan.RingsOk) :
    (initConfigured o r l).1.chan.RingsOk := by
  obtain ⟨hrx, htx, hts⟩ := h
  cases r with
  | ok => exact ⟨hrx.restart, htx.restart, hts.restart⟩
  | rejected => exact ⟨hrx, htx, hts⟩
  | failed => exact ⟨hrx, htx, hts⟩

/-- `INIT` answers an error and does nothing else, or goes on once `configure` has answered (R130). -/
theorem initBody_cases (o : InitOptions) (f : Word) (l : Lane) :
    initBody o f l = (l, .raise .initError) ∨
      initBody o f l = initConfigured o (l.configure o f).1 (l.configure o f).2 := by
  unfold initBody
  split
  · exact .inl rfl
  · exact .inl rfl
  · exact .inr rfl
  · exact .inr rfl

theorem initBody_ringsOk (o : InitOptions) (f : Word) (h : l.chan.RingsOk) :
    (initBody o f l).1.chan.RingsOk := by
  rcases initBody_cases o f l with he | he <;> rw [he]
  · exact h
  · exact initConfigured_ringsOk o _ (l := (l.configure o f).2) h

theorem whenReady_ringsOk {body : Lane → Lane × Reply} (h : l.chan.RingsOk)
    (hbody : (body l).1.chan.RingsOk) : (whenReady body l).1.chan.RingsOk := by
  rcases whenReady_cases body l with he | he <;> rw [he]
  · exact hbody
  · exact h

theorem sendByteBody_ringsOk (b : Byte) (h : l.chan.RingsOk) :
    (sendByteBody b l).1.chan.RingsOk := by
  obtain ⟨hrx, htx, hts⟩ := h
  unfold sendByteBody
  split
  · exact armTx_ringsOk ⟨hrx, htx.push b, hts⟩
  · exact ⟨hrx, htx, hts⟩

theorem sendBytesBody_ringsOk (v : List Byte) (h : l.chan.RingsOk) :
    (sendBytesBody v l).1.chan.RingsOk := by
  obtain ⟨hrx, htx, hts⟩ := h
  unfold sendBytesBody
  dsimp only
  split
  · split
    · exact armTx_ringsOk ⟨hrx, htx.pushBulk v, hts⟩
    · exact ⟨hrx, htx.pushBulk v, hts⟩
  · exact ⟨hrx, htx, hts⟩

theorem readByteBody_ringsOk (h : l.chan.RingsOk) : (readByteBody l).1.chan.RingsOk := by
  obtain ⟨hrx, htx, hts⟩ := h
  unfold readByteBody
  split
  · exact ⟨hrx.pop, htx, hts⟩
  · exact ⟨hrx, htx, hts⟩

theorem readBytesBody_ringsOk (n : Half) (h : l.chan.RingsOk) :
    (readBytesBody n l).1.chan.RingsOk := by
  obtain ⟨hrx, htx, hts⟩ := h
  unfold readBytesBody
  split
  · exact ⟨hrx.popBulk _, htx, hts⟩
  · exact ⟨hrx, htx, hts⟩

theorem tsReadBody_ringsOk (h : l.chan.RingsOk) : (tsReadBody l).1.chan.RingsOk := by
  obtain ⟨hrx, htx, hts⟩ := h
  unfold tsReadBody tsReadRecord
  split
  · split
    · split
      · exact ⟨hrx.popBulk _, htx, hts.pop⟩
      · exact ⟨hrx, htx, hts⟩
    · exact ⟨hrx, htx, hts⟩
  · exact ⟨hrx, htx, hts⟩

/-- Every operation keeps the rings of its channel well formed. -/
theorem laneOp_ringsOk (f : Word) (i : Instr) (h : l.chan.RingsOk) :
    (laneOp f i l).1.chan.RingsOk := by
  obtain ⟨hrx, htx, hts⟩ := id h
  cases i with
  | init ch o => exact initBody_ringsOk o f h
  | sendByte ch b => exact whenReady_ringsOk h (sendByteBody_ringsOk b h)
  | sendBytes ch v => exact whenReady_ringsOk h (sendBytesBody_ringsOk v h)
  | available ch => exact whenReady_ringsOk (body := availableBody) h h
  | readByte ch => exact whenReady_ringsOk h (readByteBody_ringsOk h)
  | readBytes ch n => exact whenReady_ringsOk h (readBytesBody_ringsOk n h)
  | tsAvailable ch => exact whenReady_ringsOk (body := tsAvailableBody) h h
  | tsAvailableAll => exact h
  | tsRead ch => exact whenReady_ringsOk h (tsReadBody_ringsOk h)
  | status ch => exact h
  | dispatch ch =>
    simp only [laneOp]
    split
    · exact dispatchReady_ringsOk h
    · exact h
  | txPump ch => exact txPump_ringsOk h
  | rxPumpAlwaysDrain ch => exact rxPumpAlwaysDrain_ringsOk h
  | rxPumpDrainWhenEmpty ch => exact rxPumpDrainWhenEmpty_ringsOk h
  | overflow ch => exact h
  | observe ch b => exact observe_ringsOk b h
  | armTx ch => exact armTx_ringsOk h
  | push ch item =>
    cases item with
    | rx b => exact ⟨hrx.push b, htx, hts⟩
    | tx b => exact ⟨hrx, htx.push b, hts⟩
    | ts r => exact ⟨hrx, htx, hts.push r⟩
  | pop ch ring =>
    cases ring with
    | rx => exact ⟨hrx.pop, htx, hts⟩
    | tx => exact ⟨hrx, htx.pop, hts⟩
    | ts => exact ⟨hrx, htx, hts.pop⟩
  | pushBulk ch items =>
    cases items with
    | rx v => exact ⟨hrx.pushBulk v, htx, hts⟩
    | tx v => exact ⟨hrx, htx.pushBulk v, hts⟩
    | ts v => exact ⟨hrx, htx, hts.pushBulk v⟩
  | popBulk ch ring n =>
    cases ring with
    | rx => exact ⟨hrx.popBulk n, htx, hts⟩
    | tx => exact ⟨hrx, htx.popBulk n, hts⟩
    | ts => exact ⟨hrx, htx, hts.popBulk n⟩
  | occupiedCount ch ring => cases ring <;> exact h
  | isEmpty ch ring => cases ring <;> exact h
  | peek ch ring => cases ring <;> exact h

/-! ### The channel an operation acts on -/

@[simp] theorem observe_inst (b : Byte) (l : Lane) : (observe b l).inst = l.inst := by
  rw [observe_eq]

@[simp] theorem acceptByte_inst (b : Byte) (l : Lane) : (acceptByte b l).inst = l.inst := by
  unfold acceptByte
  dsimp only
  split
  · exact observe_inst b _
  · rfl

@[simp] theorem rxPumpAlwaysDrain_inst (l : Lane) : (rxPumpAlwaysDrain l).inst = l.inst := by
  rw [rxPumpAlwaysDrain_eq]

@[simp] theorem rxPumpDrainWhenEmpty_inst (l : Lane) : (rxPumpDrainWhenEmpty l).inst = l.inst := by
  unfold rxPumpDrainWhenEmpty
  split
  · exact acceptByte_inst _ _
  · rfl

@[simp] theorem rxPump_inst (l : Lane) : (rxPump l).inst = l.inst := by
  unfold rxPump
  split
  · exact rxPumpAlwaysDrain_inst l
  · exact rxPumpDrainWhenEmpty_inst l

@[simp] theorem txPump_inst (l : Lane) : (txPump l).inst = l.inst := by
  unfold txPump
  split <;> rfl

@[simp] theorem armTx_inst (l : Lane) : (armTx l).inst = l.inst := by
  rw [armTx_eq]

@[simp] theorem dispatchReady_inst (l : Lane) : (dispatchReady l).inst = l.inst := by
  have h1 : l.readStatusFlags.2.inst = l.inst := rfl
  rcases dispatchReady_cases l with (he | he) | he | he <;> simp [he, h1]

@[simp] theorem initBody_inst (o : InitOptions) (f : Word) (l : Lane) :
    (initBody o f l).1.inst = l.inst := by
  rcases initBody_cases o f l with he | he <;> rw [he]
  cases (l.configure o f).1 <;> rfl

theorem whenReady_inst {body : Lane → Lane × Reply} {l : Lane} (h : (body l).1.inst = l.inst) :
    (whenReady body l).1.inst = l.inst := by
  rcases whenReady_cases body l with he | he <;> rw [he]
  exact h

theorem sendByteBody_inst (b : Byte) (l : Lane) : (sendByteBody b l).1.inst = l.inst := by
  unfold sendByteBody
  split
  · exact armTx_inst _
  · rfl

theorem sendBytesBody_inst (v : List Byte) (l : Lane) : (sendBytesBody v l).1.inst = l.inst := by
  unfold sendBytesBody
  dsimp only
  split
  · split
    · exact armTx_inst _
    · rfl
  · rfl

theorem readByteBody_inst (l : Lane) : (readByteBody l).1.inst = l.inst := by
  unfold readByteBody
  split <;> rfl

theorem readBytesBody_inst (n : Half) (l : Lane) : (readBytesBody n l).1.inst = l.inst := by
  unfold readBytesBody
  split <;> rfl

theorem tsReadBody_inst (l : Lane) : (tsReadBody l).1.inst = l.inst := by
  unfold tsReadBody tsReadRecord
  split
  · split
    · split <;> rfl
    · rfl
  · rfl

/-- An operation on a lane is an operation on that lane's channel (R38). -/
theorem laneOp_inst (f : Word) (i : Instr) (l : Lane) : (laneOp f i l).1.inst = l.inst := by
  cases i with
  | init ch o => exact initBody_inst o f l
  | sendByte ch b => exact whenReady_inst (sendByteBody_inst b l)
  | sendBytes ch v => exact whenReady_inst (sendBytesBody_inst v l)
  | available ch => exact whenReady_inst (body := availableBody) rfl
  | readByte ch => exact whenReady_inst (readByteBody_inst l)
  | readBytes ch n => exact whenReady_inst (readBytesBody_inst n l)
  | tsAvailable ch => exact whenReady_inst (body := tsAvailableBody) rfl
  | tsAvailableAll => rfl
  | tsRead ch => exact whenReady_inst (tsReadBody_inst l)
  | status ch => rfl
  | dispatch ch =>
    simp only [laneOp]
    split
    · exact dispatchReady_inst l
    · rfl
  | txPump ch => exact txPump_inst l
  | rxPumpAlwaysDrain ch => exact rxPumpAlwaysDrain_inst l
  | rxPumpDrainWhenEmpty ch => exact rxPumpDrainWhenEmpty_inst l
  | overflow ch => rfl
  | observe ch b => exact observe_inst b l
  | armTx ch => exact armTx_inst l
  | push ch item => cases item <;> rfl
  | pop ch ring => cases ring <;> rfl
  | pushBulk ch items => cases items <;> rfl
  | popBulk ch ring n => cases ring <;> rfl
  | occupiedCount ch ring => cases ring <;> rfl
  | isEmpty ch ring => cases ring <;> rfl
  | peek ch ring => cases ring <;> rfl

end lane

/-! ### The state after an operation on one channel, field by field -/

section finish
variable (s : State) (ch : Byte) (r : Lane × Option Reply × Option OpReturn)

@[simp] theorem State.finish_ch : (s.finish ch r).ch = s.ch.set r.1.inst r.1.chan := rfl
@[simp] theorem State.finish_env : (s.finish ch r).env = s.env.set r.1.inst r.1.draws := rfl
@[simp] theorem State.finish_drvTrace : (s.finish ch r).drvTrace =
    s.drvTrace ++ r.1.calls.map fun d => { inst := r.1.inst, call := d } := rfl

end finish

/-! ### The whole table -/

/-- The capacities of a channel's three rings (R5). -/
def Channel.capacities (c : Channel) : Nat × Nat × Nat := (c.rx.cap, c.tx.cap, c.ts.cap)

/-- The capacities of every channel, in the order of the table (R5). -/
def State.capacities (s : State) : List (Nat × Nat × Nat) := s.ch.map Channel.capacities

/-- Every operation keeps the table well formed and leaves the command buffer and the build parameters
as they are. -/
theorem exec_keeps_table {s t : State} {i : Instr} (hs : s.TableOk) (h : exec i s = .next t) :
    t.TableOk ∧ t.cmdBuf = s.cmdBuf ∧ t.fClk = s.fClk ∧ t.capacities = s.capacities := by
  rcases exec_cases h with ⟨ch, c, -, hc, rfl⟩ | ⟨-, r, rfl⟩ | rfl
  · obtain ⟨hsize, henv, hrings⟩ := hs
    have hok := laneOp_ringsOk (l := s.laneOf ch c) s.fClk i (hrings c (List.mem_of_getElem? hc))
    obtain ⟨⟨hrx, -⟩, ⟨htx, -⟩, ⟨hts, -⟩⟩ := laneOp_keeps s.fClk i (s.laneOf ch c)
    refine ⟨⟨by simpa using hsize, by simpa using henv, fun d hd => ?_⟩, rfl, rfl, ?_⟩
    · rcases List.mem_or_eq_of_mem_set hd with hd | rfl
      · exact hrings d hd
      · exact hok
    · have hcaps := (List.getElem?_map (f := Channel.capacities) (l := s.ch)).trans (congrArg _ hc)
      rw [State.capacities, State.finish_ch, laneOp_inst, List.map_set]
      refine set_getElem?_self (hcaps.trans ?_)
      simp only [Option.map_some, Channel.capacities, hrx, htx, hts]
  · exact ⟨hs, rfl, rfl, rfl⟩
  · exact ⟨hs, rfl, rfl, rfl⟩

/-- Settles O53: a step is an operation on the arrivals taken in, or leaves the table alone. -/
theorem tableInvariantIsKept : Obligations.TableInvariantIsKept := by
  intro s t hs _ h
  rcases step_cases h with ⟨buf, rest, i, hbuf, -, he⟩ | ⟨buf, rest, rs, hbuf, rfl⟩
  · obtain ⟨htable, hcmd, hclk, hcap⟩ :=
      exec_keeps_table (s := { s with cmdBuf := buf, stimulus := rest }) hs he
    exact ⟨htable, by rw [State.BufferOk, hcmd]; exact (incomplete_iff buf).mpr hbuf, hclk, hcap⟩
  · exact ⟨hs, (incomplete_iff buf).mpr hbuf, rfl, rfl⟩

end Sys2Proof.Machine

/-!
SUPPORT and statements settled: what an operation leaves unchanged and what it depends on. Other
channels (R38, R72), and the state the other execution context owns (R26, R150, R226).
-/

namespace Sys2Proof.Machine

/-! ### Other channels -/

/-- Settles O43: the lane an operation commits is that of the channel it names. -/
theorem channelsAreIsolated : Obligations.ChannelsAreIsolated := by
  intro s t i ch hi h k hk
  rcases exec_cases h with ⟨ch', c, hi', -, rfl⟩ | ⟨-, r, rfl⟩ | rfl
  · obtain rfl : ch = ch' := Option.some.inj (hi.symm.trans hi')
    rw [State.finish_ch, State.finish_env, State.finish_drvTrace, laneOp_inst]
    exact ⟨List.getElem?_set_ne hk.symm, List.getElem?_set_ne hk.symm,
      by rw [callsOf_append, callsOf_other hk, List.append_nil]⟩
  · exact ⟨rfl, rfl, rfl⟩
  · exact ⟨rfl, rfl, rfl⟩

/-- No operation changes the build parameter F_CLK (R5). -/
theorem exec_fClk {s t : State} {i : Instr} (h : exec i s = .next t) : t.fClk = s.fClk := by
  rcases exec_cases h with ⟨ch, c, -, -, rfl⟩ | ⟨-, r, rfl⟩ | rfl <;> rfl

/-! ### The effect of an operation of the ports -/

/-- What an operation of the ports does to a state: the lane it commits, if its channel exists, and the
responses it adds. -/
structure Effect where
  lane : Option Lane
  answers : List Response

/-- The driver calls an effect adds. -/
def Effect.calls (e : Effect) : List DrvEntry :=
  e.lane.elim [] fun l => l.calls.map fun d => { inst := l.inst, call := d }

/-- The effect concerns channel `k` only. -/
def Effect.On (e : Effect) (k : Nat) : Prop := ∀ l ∈ e.lane, l.inst = k

/-- A state with an effect applied. -/
def State.apply (s : State) (e : Effect) : State :=
  { s with
    ch := e.lane.elim s.ch fun l => s.ch.set l.inst l.chan
    env := e.lane.elim s.env fun l => s.env.set l.inst l.draws
    drvTrace := s.drvTrace ++ e.calls
    responses := s.responses ++ e.answers }

/-- The effect of an operation that names `ch`, from the record of that channel, if there is one, and
its draws. -/
def portEffect (i : Instr) (ch : Byte) (fClk : Word) (c : Option Channel) (d : Draws) : Effect :=
  match c with
  | some c =>
    { lane := some (laneOp fClk i { inst := ch.toNat, chan := c, draws := d, calls := [] }).1
      answers := ((laneOp fClk i { inst := ch.toNat, chan := c, draws := d, calls := [] }).2.1.map
        fun a => ({ code := a.code, ch := ch, value := a.value, payload := a.payload } :
          Response)).toList }
  | none =>
    { lane := none
      answers := if i.isCommand then
        [{ code := .illegalCommand, ch := ch, value := 0, payload := [] }] else [] }

/-- The effect of an operation in a state. -/
abbrev State.effect (s : State) (i : Instr) (ch : Byte) : Effect :=
  portEffect i ch s.fClk s.ch[ch.toNat]? (s.drawsAt ch.toNat)

theorem portEffect_on (i : Instr) (ch : Byte) (f : Word) (c : Option Channel) (d : Draws) :
    (portEffect i ch f c d).On ch.toNat := by
  intro l hl
  cases c with
  | none => cases hl
  | some c =>
    obtain rfl := Option.some.inj hl
    exact laneOp_inst f i _

theorem State.effect_on (s : State) (i : Instr) (ch : Byte) : (s.effect i ch).On ch.toNat :=
  portEffect_on i ch _ _ _

/-- An operation of the ports returns no value to a caller. -/
theorem laneOp_of_requestable {i : Instr} (h : i.requestable = true) (f : Word) (l : Lane) :
    (laneOp f i l).2.2 = none := by
  revert h
  cases i <;> simp [Instr.requestable, laneOp]

/-- Every operation of the ports that names a channel completes, and its effect is made of that
channel's record and draws, and of F_CLK. -/
theorem exec_eq_apply {s : State} {i : Instr} {ch : Byte} (hreq : i.requestable = true)
    (hi : i.channel = some ch) : exec i s = .next (s.apply (s.effect i ch)) := by
  rcases s.lane_cases ch.toNat with ⟨hnone, hlen, -⟩ | ⟨c, hc, -, -⟩
  · rw [exec_of_absent hi hlen, State.effect, hnone]
    cases hcmd : i.isCommand
    · simp [portEffect, State.apply, Effect.calls, hreq, hcmd]
    · simp [portEffect, State.apply, Effect.calls, State.answered, hcmd]
  · rw [exec_of_channel hi hc, State.effect, hc]
    simp [portEffect, State.apply, Effect.calls, State.finish, State.commit,
      laneOp_of_requestable hreq]

/-- States that agree on a channel's record and draws agree on them after an effect on that channel. -/
theorem State.apply_congr {s s' : State} {e : Effect} {k : Nat} (he : e.On k)
    (hch : s.ch[k]? = s'.ch[k]?) (henv : s.env[k]? = s'.env[k]?) :
    (s'.apply e).ch[k]? = (s.apply e).ch[k]? ∧ (s'.apply e).env[k]? = (s.apply e).env[k]? := by
  obtain ⟨lane, answers⟩ := e
  cases lane with
  | none => exact ⟨hch.symm, henv.symm⟩
  | some l =>
    obtain rfl : l.inst = k := he l rfl
    simp only [State.apply, Option.elim, List.getElem?_set_self', hch, henv, and_self]

/-- States that list the same draws for a channel answer the same ones for it. -/
theorem State.drawsAt_congr {s s' : State} {k : Nat} (h : s.env[k]? = s'.env[k]?) :
    s.drawsAt k = s'.drawsAt k := by
  simp only [State.drawsAt, List.getD_eq_getElem?_getD, h]

/-- Settles O44: the two states have the same effect to apply. -/
theorem operationsSeeOneChannel : Obligations.OperationsSeeOneChannel := by
  intro s s' t i ch hi hreq hch henv hclk h
  have heffect : s'.effect i ch = s.effect i ch := by
    rw [State.effect, State.effect, hch, hclk, State.drawsAt_congr henv]
  obtain ⟨hch', henv'⟩ := State.apply_congr (s.effect_on i ch) hch henv
  rw [exec_eq_apply hreq hi] at h
  cases h
  exact ⟨s'.apply (s.effect i ch), (s.effect i ch).answers, (s.effect i ch).calls,
    by rw [exec_eq_apply hreq hi, heffect], hch', henv', rfl, rfl, rfl, rfl⟩

/-! ### Effects on different channels -/

/-- An effect on one channel adds no call of another. -/
theorem Effect.On.callsOf_calls {e : Effect} {i k : Nat} (he : e.On i) (hk : k ≠ i) :
    callsOf k e.calls = [] := by
  obtain ⟨lane, answers⟩ := e
  cases lane with
  | none => rfl
  | some l =>
    obtain rfl : l.inst = i := he l rfl
    exact callsOf_other hk _

section commute
variable {s : State} {e e' : Effect} {i k : Nat}

theorem State.apply_comm (he : e.On i) (he' : e'.On k) (hne : i ≠ k) :
    ((s.apply e).apply e').ch = ((s.apply e').apply e).ch ∧
      ((s.apply e).apply e').env = ((s.apply e').apply e).env := by
  obtain ⟨lane, answers⟩ := e
  obtain ⟨lane', answers'⟩ := e'
  cases lane with
  | none => exact ⟨rfl, rfl⟩
  | some l =>
    cases lane' with
    | none => exact ⟨rfl, rfl⟩
    | some l' =>
      obtain rfl : l.inst = i := he l rfl
      obtain rfl : l'.inst = k := he' l' rfl
      exact ⟨List.set_comm _ _ hne, List.set_comm _ _ hne⟩

/-- Each channel sees the calls of one of the two effects only. -/
theorem State.apply_callsOf_comm (he : e.On i) (he' : e'.On k) (hne : i ≠ k) (n : Nat) :
    callsOf n ((s.apply e).apply e').drvTrace = callsOf n ((s.apply e').apply e).drvTrace := by
  simp only [State.apply, callsOf_append]
  by_cases hn : n = i
  · rw [he'.callsOf_calls (hn ▸ hne)]
    simp
  · rw [he.callsOf_calls hn]
    simp

theorem State.apply_responses_perm :
    ((s.apply e).apply e').responses.Perm ((s.apply e').apply e).responses := by
  simp only [State.apply, List.append_assoc]
  exact List.perm_append_comm.append_left _

end commute

/-- An operation on another channel leaves the effect an operation has. -/
theorem effect_after_other {s t : State} {i j : Instr} {a b : Byte} (hi : i.channel = some a)
    (hab : a ≠ b) (h : exec i s = .next t) : t.effect j b = s.effect j b := by
  have hne : b.toNat ≠ a.toNat := fun he => hab (BitVec.eq_of_toNat_eq he.symm)
  obtain ⟨hch, henv, -⟩ := channelsAreIsolated s t i a hi h b.toNat hne
  rw [State.effect, State.effect, hch, State.drawsAt_congr henv, exec_fClk h]

/-- Settles O45: neither operation changes the effect of the other, and effects on different channels
commute. -/
theorem differentChannelsCommute : Obligations.DifferentChannelsCommute := by
  intro s i j a b hireq hjreq hi hj hab
  have hne : a.toNat ≠ b.toNat := fun he => hab (BitVec.eq_of_toNat_eq he)
  have hsi := exec_eq_apply (s := s) hireq hi
  have hsj := exec_eq_apply (s := s) hjreq hj
  have hea : (s.effect i a).On a.toNat := s.effect_on i a
  have heb : (s.effect j b).On b.toNat := s.effect_on j b
  obtain ⟨hch, henv⟩ := State.apply_comm (s := s) hea heb hne
  refine ⟨_, _, (s.apply (s.effect i a)).apply (s.effect j b),
    (s.apply (s.effect j b)).apply (s.effect i a), hsi, ?_, hsj, ?_, hch, henv,
    State.apply_callsOf_comm hea heb hne, State.apply_responses_perm, rfl⟩
  · rw [exec_eq_apply hjreq hj, effect_after_other hi hab hsi]
  · rw [exec_eq_apply hireq hi, effect_after_other hj (Ne.symm hab) hsj]

/-! ### The two owners of a ring -/

/-- The write cursor and the slots are as they were: what the ring's producer owns (R26). -/
abbrev RingBuffer.KeepsProducer {α : Type} (q q' : RingBuffer α) : Prop :=
  q'.wr = q.wr ∧ q'.store = q.store

/-- The read cursor is as it was: what the ring's consumer owns (R26). -/
abbrev RingBuffer.KeepsConsumer {α : Type} (q q' : RingBuffer α) : Prop := q'.rd = q.rd

section owners
variable {α : Type}

theorem RingBuffer.push_keepsConsumer (q : RingBuffer α) (x : α) : q.KeepsConsumer (q.push x).1 := by
  rcases q.push_cases x with ⟨-, h⟩ | ⟨-, h⟩ <;> rw [h]
  exact rfl

theorem RingBuffer.pushBulk_keepsConsumer (q : RingBuffer α) (v : List α) :
    q.KeepsConsumer (q.pushBulk v).1 := by
  rcases q.pushBulk_cases v with ⟨-, h⟩ | ⟨-, h⟩ <;> rw [h]
  exact q.memWrite_rd _ _

theorem RingBuffer.pop_keepsProducer [Inhabited α] (q : RingBuffer α) :
    q.KeepsProducer q.pop.1 := by
  rcases q.pop_cases with ⟨-, h⟩ | ⟨-, h⟩ <;> rw [h] <;> exact ⟨rfl, rfl⟩

theorem RingBuffer.popBulk_keepsProducer [Inhabited α] (q : RingBuffer α) (n : Nat) :
    q.KeepsProducer (q.popBulk n).1 := by
  rcases q.popBulk_cases n with ⟨-, h⟩ | ⟨-, h⟩ <;> rw [h] <;> exact ⟨rfl, rfl⟩

end owners

/-- The lifecycle status and the options `INIT` latches are as they were (R26). -/
structure Channel.KeepsConfig (c d : Channel) : Prop where
  status : d.status = c.status
  policy : d.policy = c.policy
  tsEnable : d.tsEnable = c.tsEnable
  marker : d.marker = c.marker

theorem Channel.KeepsConfig.trans {a b c : Channel} (h : a.KeepsConfig b) (h' : b.KeepsConfig c) :
    a.KeepsConfig c :=
  ⟨h'.status.trans h.status, h'.policy.trans h.policy, h'.tsEnable.trans h.tsEnable,
    h'.marker.trans h.marker⟩

/-- A relation that every record has to itself, and that an operation establishes between a record and
what it makes of it on its lane, holds between the channels of the two tables. -/
theorem exec_relates {P : Channel → Channel → Prop} (hrefl : ∀ c, P c c) {s t : State} {i : Instr}
    (hlane : ∀ l : Lane, P l.chan (laneOp s.fClk i l).1.chan) (h : exec i s = .next t) :
    t.ch.length = s.ch.length ∧
      ∀ (k : Nat) (c d : Channel), s.ch[k]? = some c → t.ch[k]? = some d → P c d := by
  have hsame : ∀ (k : Nat) (c d : Channel), s.ch[k]? = some c → s.ch[k]? = some d → P c d := by
    intro k c d hc hd
    obtain rfl := Option.some.inj (hc.symm.trans hd)
    exact hrefl c
  rcases exec_cases h with ⟨ch, c, -, hc, rfl⟩ | ⟨-, r, rfl⟩ | rfl
  · refine ⟨by simp, fun k c' d hc' hd => ?_⟩
    rw [State.finish_ch, laneOp_inst] at hd
    by_cases hk : k = ch.toNat
    · subst hk
      rw [List.getElem?_set_self', hc] at hd
      obtain rfl := Option.some.inj hd
      obtain rfl := Option.some.inj (hc.symm.trans hc')
      exact hlane (s.laneOf ch c)
    · rw [List.getElem?_set_ne (Ne.symm hk)] at hd
      exact hsame k c' d hc' hd
  · exact ⟨rfl, hsame⟩
  · exact ⟨rfl, hsame⟩

/-! ### What the interrupt context leaves to the foreground -/

/-- `d` differs from `c` at most in what the interrupt context may write (R26, R150). -/
structure Channel.KeepsForeground (c d : Channel) : Prop where
  tx : c.tx.KeepsProducer d.tx
  rx : c.rx.KeepsConsumer d.rx
  ts : c.ts.KeepsConsumer d.ts
  config : c.KeepsConfig d
  armed : d.txArmed = true → c.txArmed = true

theorem Channel.keepsForeground_refl (c : Channel) : c.KeepsForeground c :=
  ⟨⟨rfl, rfl⟩, rfl, rfl, ⟨rfl, rfl, rfl, rfl⟩, id⟩

theorem Channel.KeepsForeground.trans {a b c : Channel} (h : a.KeepsForeground b)
    (h' : b.KeepsForeground c) : a.KeepsForeground c :=
  ⟨⟨h'.tx.1.trans h.tx.1, h'.tx.2.trans h.tx.2⟩, h'.rx.trans h.rx, h'.ts.trans h.ts,
    h.config.trans h'.config, h.armed ∘ h'.armed⟩

theorem accumulate_keepsForeground (l : Lane) : l.chan.KeepsForeground (accumulate l).chan := by
  rw [accumulate_eq]
  exact ⟨⟨rfl, rfl⟩, rfl, rfl, ⟨rfl, rfl, rfl, rfl⟩, id⟩

theorem overflow_keepsForeground (l : Lane) : l.chan.KeepsForeground (overflow l).chan :=
  ⟨⟨rfl, rfl⟩, rfl, rfl, ⟨rfl, rfl, rfl, rfl⟩, id⟩

theorem Channel.closeRun_keepsForeground (c : Channel) : c.KeepsForeground (closeRun c) :=
  ⟨⟨rfl, rfl⟩, rfl, c.ts.push_keepsConsumer _, ⟨rfl, rfl, rfl, rfl⟩, id⟩

theorem observe_keepsForeground (b : Byte) (l : Lane) :
    l.chan.KeepsForeground (observe b l).chan := by
  unfold observe
  split
  · exact (accumulate_keepsForeground l).trans (Channel.closeRun_keepsForeground _)
  · exact accumulate_keepsForeground l

theorem Channel.pushRx_keepsForeground (c : Channel) (b : Byte) :
    c.KeepsForeground { c with rx := (c.rx.push b).1 } :=
  ⟨⟨rfl, rfl⟩, c.rx.push_keepsConsumer b, rfl, ⟨rfl, rfl, rfl, rfl⟩, id⟩

theorem Channel.popTx_keepsForeground (c : Channel) :
    c.KeepsForeground { c with tx := c.tx.pop.1 } :=
  ⟨c.tx.pop_keepsProducer, rfl, rfl, ⟨rfl, rfl, rfl, rfl⟩, id⟩

theorem acceptByte_keepsForeground (b : Byte) (l : Lane) :
    l.chan.KeepsForeground (acceptByte b l).chan := by
  unfold acceptByte
  dsimp only
  split
  · exact (l.chan.pushRx_keepsForeground b).trans
      (observe_keepsForeground b { l with chan := { l.chan with rx := (l.chan.rx.push b).1 } })
  · exact l.chan.pushRx_keepsForeground b

theorem rxPumpAlwaysDrain_keepsForeground (l : Lane) :
    l.chan.KeepsForeground (rxPumpAlwaysDrain l).chan := by
  unfold rxPumpAlwaysDrain
  dsimp only
  split
  · exact acceptByte_keepsForeground _ l.readDataRegister.2
  · exact overflow_keepsForeground l.readDataRegister.2

theorem rxPumpDrainWhenEmpty_keepsForeground (l : Lane) :
    l.chan.KeepsForeground (rxPumpDrainWhenEmpty l).chan := by
  unfold rxPumpDrainWhenEmpty
  split
  · exact acceptByte_keepsForeground _ l.readDataRegister.2
  · exact l.chan.keepsForeground_refl

theorem rxPump_keepsForeground (l : Lane) : l.chan.KeepsForeground (rxPump l).chan := by
  unfold rxPump
  split
  · exact rxPumpAlwaysDrain_keepsForeground l
  · exact rxPumpDrainWhenEmpty_keepsForeground l

theorem txPump_keepsForeground (l : Lane) : l.chan.KeepsForeground (txPump l).chan := by
  unfold txPump
  split
  · exact l.chan.popTx_keepsForeground
  · exact ⟨⟨rfl, rfl⟩, rfl, rfl, ⟨rfl, rfl, rfl, rfl⟩, nofun⟩

theorem dispatchReady_keepsForeground (l : Lane) :
    l.chan.KeepsForeground (dispatchReady l).chan := by
  have h1 : l.chan.KeepsForeground l.readStatusFlags.2.chan := l.chan.keepsForeground_refl
  rcases dispatchReady_cases l with (he | he) | he | he <;> rw [he]
  · exact h1
  · exact h1.trans (txPump_keepsForeground _)
  · exact h1.trans (rxPump_keepsForeground _)
  · exact (h1.trans (txPump_keepsForeground _)).trans (rxPump_keepsForeground _)

/-- What R226 permits to the interrupt context keeps the foreground's side of the record. -/
theorem laneOp_keepsForeground {i : Instr} (hp : permits .interrupt i = true) (f : Word) (l : Lane) :
    l.chan.KeepsForeground (laneOp f i l).1.chan := by
  cases i with
  | dispatch ch =>
    simp only [laneOp]
    split
    · exact dispatchReady_keepsForeground l
    · exact l.chan.keepsForeground_refl
  | txPump ch => exact txPump_keepsForeground l
  | rxPumpAlwaysDrain ch => exact rxPumpAlwaysDrain_keepsForeground l
  | rxPumpDrainWhenEmpty ch => exact rxPumpDrainWhenEmpty_keepsForeground l
  | overflow ch => exact overflow_keepsForeground l
  | observe ch b => exact observe_keepsForeground b l
  | push ch item =>
    cases item with
    | rx b => exact l.chan.pushRx_keepsForeground b
    | tx b => nomatch hp
    | ts r => exact ⟨⟨rfl, rfl⟩, rfl, l.chan.ts.push_keepsConsumer r, ⟨rfl, rfl, rfl, rfl⟩, id⟩
  | pop ch ring =>
    cases ring with
    | tx => exact l.chan.popTx_keepsForeground
    | rx => nomatch hp
    | ts => nomatch hp
  | occupiedCount ch ring => cases ring <;> exact l.chan.keepsForeground_refl
  | isEmpty ch ring => cases ring <;> exact l.chan.keepsForeground_refl
  | pushBulk ch items => cases items <;> nomatch hp
  | popBulk ch ring n => cases ring <;> nomatch hp
  | peek ch ring => cases ring <;> nomatch hp
  | _ => nomatch hp

/-- R226 permits no command to the interrupt context. -/
theorem isCommand_of_interrupt {i : Instr} (hp : permits .interrupt i = true) :
    i.isCommand = false := by
  revert hp
  cases i <;> simp [permits, Instr.isCommand]

/-- An operation that is no command makes no response (R140). -/
theorem exec_responses_of_not_command {s t : State} {i : Instr} (hcmd : i.isCommand = false)
    (h : exec i s = .next t) : t.responses = s.responses := by
  rcases exec_cases h with ⟨ch, c, -, -, rfl⟩ | ⟨hi, -⟩ | rfl
  · have hsilent : (laneOp s.fClk i (s.laneOf ch c)).2.1 = none := by
      revert hcmd
      cases i <;> simp [Instr.isCommand, laneOp]
    simp [State.finish, hsilent]
  · rw [hi] at hcmd
    cases hcmd
  · rfl

/-- Settles O46, by what each permitted operation keeps on its lane. -/
theorem interruptContextKeepsForegroundState : Obligations.InterruptContextKeepsForegroundState := by
  intro s t i hp h
  obtain ⟨hlen, hkeeps⟩ :=
    exec_relates Channel.keepsForeground_refl (laneOp_keepsForeground hp s.fClk) h
  refine ⟨exec_responses_of_not_command (isCommand_of_interrupt hp) h, hlen, fun k c d hc hd => ?_⟩
  obtain ⟨⟨hwr, hstore⟩, hrx, hts, ⟨hstatus, hpolicy, henable, hmarker⟩, harmed⟩ := hkeeps k c d hc hd
  exact ⟨hwr, hstore, hrx, hts, hstatus, hpolicy, henable, hmarker, harmed⟩

/-! ### What the foreground leaves to the interrupt context -/

/-- `d` differs from `c` at most in what the foreground may write besides `INIT` (R26). -/
structure Channel.KeepsInterrupt (c d : Channel) : Prop where
  rx : c.rx.KeepsProducer d.rx
  ts : c.ts.KeepsProducer d.ts
  tx : c.tx.KeepsConsumer d.tx
  run : d.runLength = c.runLength ∧ d.runStart = c.runStart
  ovf : d.rxOvf = c.rxOvf ∧ d.ovfCount = c.ovfCount ∧ d.tsOvf = c.tsOvf
  config : c.KeepsConfig d
  armed : c.txArmed = true → d.txArmed = true

section foreground
variable (c : Channel) (l : Lane)

theorem Channel.keepsInterrupt_refl : c.KeepsInterrupt c :=
  ⟨⟨rfl, rfl⟩, ⟨rfl, rfl⟩, rfl, ⟨rfl, rfl⟩, ⟨rfl, rfl, rfl⟩, ⟨rfl, rfl, rfl, rfl⟩, id⟩

/-- The foreground's own writes: the TX ring's write side, the read side of RX and TS, and arming. -/
theorem Channel.keepsInterrupt_of_rings {rx tx ts armed} (hrx : c.rx.KeepsProducer rx)
    (htx : c.tx.KeepsConsumer tx) (hts : c.ts.KeepsProducer ts)
    (harmed : c.txArmed = true → armed = true) :
    c.KeepsInterrupt { c with rx := rx, tx := tx, ts := ts, txArmed := armed } :=
  ⟨hrx, hts, htx, ⟨rfl, rfl⟩, ⟨rfl, rfl, rfl⟩, ⟨rfl, rfl, rfl, rfl⟩, harmed⟩

theorem Channel.keepsInterrupt_of_tx {tx armed} (htx : c.tx.KeepsConsumer tx)
    (harmed : c.txArmed = true → armed = true) :
    c.KeepsInterrupt { c with tx := tx, txArmed := armed } :=
  c.keepsInterrupt_of_rings ⟨rfl, rfl⟩ htx ⟨rfl, rfl⟩ harmed

theorem Channel.keepsInterrupt_of_reads {rx ts} (hrx : c.rx.KeepsProducer rx)
    (hts : c.ts.KeepsProducer ts) : c.KeepsInterrupt { c with rx := rx, ts := ts } :=
  c.keepsInterrupt_of_rings hrx rfl hts id

theorem armTx_keepsInterrupt : l.chan.KeepsInterrupt (armTx l).chan := by
  rw [armTx_eq]
  exact l.chan.keepsInterrupt_of_tx rfl fun _ => rfl

theorem sendByteBody_keepsInterrupt (b : Byte) :
    l.chan.KeepsInterrupt (sendByteBody b l).1.chan := by
  unfold sendByteBody
  split
  · rw [armTx_eq]
    exact l.chan.keepsInterrupt_of_tx (l.chan.tx.push_keepsConsumer b) fun _ => rfl
  · exact l.chan.keepsInterrupt_refl

theorem sendBytesBody_keepsInterrupt (v : List Byte) :
    l.chan.KeepsInterrupt (sendBytesBody v l).1.chan := by
  have hrd := l.chan.tx.pushBulk_keepsConsumer v
  unfold sendBytesBody
  dsimp only
  split
  · split
    · rw [armTx_eq]
      exact l.chan.keepsInterrupt_of_tx hrd fun _ => rfl
    · exact l.chan.keepsInterrupt_of_tx hrd id
  · exact l.chan.keepsInterrupt_refl

theorem readByteBody_keepsInterrupt : l.chan.KeepsInterrupt (readByteBody l).1.chan := by
  unfold readByteBody
  split
  · exact l.chan.keepsInterrupt_of_reads l.chan.rx.pop_keepsProducer ⟨rfl, rfl⟩
  · exact l.chan.keepsInterrupt_refl

theorem readBytesBody_keepsInterrupt (n : Half) :
    l.chan.KeepsInterrupt (readBytesBody n l).1.chan := by
  unfold readBytesBody
  split
  · exact l.chan.keepsInterrupt_of_reads (l.chan.rx.popBulk_keepsProducer _) ⟨rfl, rfl⟩
  · exact l.chan.keepsInterrupt_refl

theorem tsReadBody_keepsInterrupt : l.chan.KeepsInterrupt (tsReadBody l).1.chan := by
  unfold tsReadBody tsReadRecord
  split
  · split
    · split
      · exact l.chan.keepsInterrupt_of_reads (l.chan.rx.popBulk_keepsProducer _)
          l.chan.ts.pop_keepsProducer
      · exact l.chan.keepsInterrupt_refl
    · exact l.chan.keepsInterrupt_refl
  · exact l.chan.keepsInterrupt_refl

theorem whenReady_keepsInterrupt {body : Lane → Lane × Reply}
    (h : l.chan.KeepsInterrupt (body l).1.chan) :
    l.chan.KeepsInterrupt (whenReady body l).1.chan := by
  rcases whenReady_cases body l with he | he <;> rw [he]
  · exact h
  · exact l.chan.keepsInterrupt_refl

end foreground

/-- What R226 permits to the foreground, but `INIT`, keeps the interrupt context's side of the
record. -/
theorem laneOp_keepsInterrupt {i : Instr} (hp : permits .foreground i = true)
    (hinit : ∀ ch o, i ≠ .init ch o) (f : Word) (l : Lane) :
    l.chan.KeepsInterrupt (laneOp f i l).1.chan := by
  have hrefl := l.chan.keepsInterrupt_refl
  cases i with
  | init ch o => exact absurd rfl (hinit ch o)
  | sendByte ch b => exact whenReady_keepsInterrupt l (sendByteBody_keepsInterrupt l b)
  | sendBytes ch v => exact whenReady_keepsInterrupt l (sendBytesBody_keepsInterrupt l v)
  | available ch => exact whenReady_keepsInterrupt l (body := availableBody) hrefl
  | readByte ch => exact whenReady_keepsInterrupt l (readByteBody_keepsInterrupt l)
  | readBytes ch n => exact whenReady_keepsInterrupt l (readBytesBody_keepsInterrupt l n)
  | tsAvailable ch => exact whenReady_keepsInterrupt l (body := tsAvailableBody) hrefl
  | tsAvailableAll => exact hrefl
  | tsRead ch => exact whenReady_keepsInterrupt l (tsReadBody_keepsInterrupt l)
  | status ch => exact hrefl
  | armTx ch => exact armTx_keepsInterrupt l
  | push ch item =>
    cases item with
    | tx b => exact l.chan.keepsInterrupt_of_tx (l.chan.tx.push_keepsConsumer b) id
    | rx b => nomatch hp
    | ts r => nomatch hp
  | pop ch ring =>
    cases ring with
    | rx => exact l.chan.keepsInterrupt_of_reads l.chan.rx.pop_keepsProducer ⟨rfl, rfl⟩
    | ts => exact l.chan.keepsInterrupt_of_reads ⟨rfl, rfl⟩ l.chan.ts.pop_keepsProducer
    | tx => nomatch hp
  | pushBulk ch items =>
    cases items with
    | tx v => exact l.chan.keepsInterrupt_of_tx (l.chan.tx.pushBulk_keepsConsumer v) id
    | rx v => nomatch hp
    | ts v => nomatch hp
  | popBulk ch ring n =>
    cases ring with
    | rx => exact l.chan.keepsInterrupt_of_reads (l.chan.rx.popBulk_keepsProducer n) ⟨rfl, rfl⟩
    | tx => nomatch hp
    | ts => nomatch hp
  | occupiedCount ch ring => cases ring <;> exact hrefl
  | isEmpty ch ring => cases ring <;> exact hrefl
  | peek ch ring => cases ring <;> exact hrefl
  | _ => nomatch hp

/-- Settles O47, by what each permitted operation keeps on its lane. -/
theorem foregroundKeepsInterruptState : Obligations.ForegroundKeepsInterruptState := by
  intro s t i hp hinit h
  obtain ⟨hlen, hkeeps⟩ :=
    exec_relates Channel.keepsInterrupt_refl (laneOp_keepsInterrupt hp hinit s.fClk) h
  refine ⟨hlen, fun k c d hc hd => ?_⟩
  obtain ⟨⟨hrxWr, hrxStore⟩, ⟨htsWr, htsStore⟩, htx, ⟨hlength, hstart⟩, ⟨hrxOvf, hcount, htsOvf⟩,
    ⟨hstatus, hpolicy, henable, hmarker⟩, harmed⟩ := hkeeps k c d hc hd
  exact ⟨hrxWr, hrxStore, htsWr, htsStore, htx, hlength, hstart, hrxOvf, hcount, htsOvf, hstatus,
    hpolicy, henable, hmarker, harmed⟩

end Sys2Proof.Machine

/-!
SUPPORT and statement settled: the abstract values of the rings decide every response and every driver
call (R25, I7). A relation between two rings, then between two lanes, kept by each operation.
-/

namespace Sys2Proof.Machine

/-! ### Lists related element by element -/

section lists
variable {α : Type} {R : α → α → Prop} {xs ys : List α}

theorem forall₂_set (h : List.Forall₂ R xs ys) {x y : α} (hxy : R x y) (i : Nat) :
    List.Forall₂ R (xs.set i x) (ys.set i y) := by
  induction h generalizing i with
  | nil => exact .nil
  | cons hab hrest ih =>
    cases i with
    | zero => exact .cons hxy hrest
    | succ i => exact .cons hab (ih i)

theorem forall₂_getElem? (h : List.Forall₂ R xs ys) {i : Nat} {x : α} (hx : xs[i]? = some x) :
    ∃ y, ys[i]? = some y ∧ R x y := by
  obtain ⟨hi, rfl⟩ := List.getElem?_eq_some_iff.mp hx
  have hi' : i < ys.length := h.length_eq ▸ hi
  exact ⟨ys[i], List.getElem?_eq_getElem hi', h.get hi hi'⟩

/-- Both lists are empty, or they have related heads. -/
theorem forall₂_head? (h : List.Forall₂ R xs ys) : (xs.head? = none ∧ ys.head? = none) ∨
    ∃ x y, xs.head? = some x ∧ ys.head? = some y ∧ R x y := by
  cases h with
  | nil => exact .inl ⟨rfl, rfl⟩
  | cons hxy _ => exact .inr ⟨_, _, rfl, rfl, hxy⟩

end lists

/-! ### Rings with related abstract values -/

/-- Two rings of one capacity whose abstract values are related element by element. -/
structure RingBuffer.Alike {α : Type} [Inhabited α] (R : α → α → Prop) (q q' : RingBuffer α) :
    Prop where
  cap : q.cap = q'.cap
  contents : List.Forall₂ R q.contents q'.contents

theorem alike_eq_iff {α : Type} [Inhabited α] {q q' : RingBuffer α} :
    RingBuffer.Alike (· = ·) q q' ↔ SameRing q q' :=
  ⟨fun h => ⟨h.cap, by simpa [List.forall₂_eq_eq_eq] using h.contents⟩,
    fun h => ⟨h.1, by simpa [List.forall₂_eq_eq_eq] using h.2⟩⟩

namespace RingBuffer.Alike

variable {α : Type} [Inhabited α] {R : α → α → Prop} {q q' : RingBuffer α}

theorem length_eq (ha : Alike R q q') : q.contents.length = q'.contents.length :=
  ha.contents.length_eq

theorem empty_eq (ha : Alike R q q') (h : q.Ok) (h' : q'.Ok) : q.empty = q'.empty := by
  rw [Bool.eq_iff_iff, h.empty_iff_contents, h'.empty_iff_contents, ← List.length_eq_zero_iff,
    ← List.length_eq_zero_iff, ha.length_eq]

/-- Equal answers and related rings after related elements are pushed. -/
theorem push (ha : Alike R q q') (h : q.Ok) (h' : q'.Ok) {x x' : α} (hx : R x x') :
    (q.push x).2 = (q'.push x').2 ∧ Alike R (q.push x).1 (q'.push x').1 := by
  obtain ⟨-, hcap, hres, hcont⟩ := h.push_spec x
  obtain ⟨-, hcap', hres', hcont'⟩ := h'.push_spec x'
  have heq : (q.push x).2 = (q'.push x').2 := by
    rw [Bool.eq_iff_iff, hres, hres', ha.length_eq, ha.cap]
  refine ⟨heq, by rw [hcap, hcap', ha.cap], ?_⟩
  rw [hcont, hcont', heq]
  split
  · exact List.rel_append ha.contents (.cons hx .nil)
  · exact ha.contents

theorem pop (ha : Alike R q q') (h : q.Ok) (h' : q'.Ok) : Alike R q.pop.1 q'.pop.1 := by
  obtain ⟨-, hcap, -, hcont⟩ := h.pop_spec
  obtain ⟨-, hcap', -, hcont'⟩ := h'.pop_spec
  refine ⟨by rw [hcap, hcap', ha.cap], ?_⟩
  rw [hcont, hcont', ← List.drop_one, ← List.drop_one]
  exact List.forall₂_drop 1 ha.contents

theorem pushBulk (ha : Alike R q q') (h : q.Ok) (h' : q'.Ok) {v v' : List α}
    (hv : List.Forall₂ R v v') :
    (q.pushBulk v).2 = (q'.pushBulk v').2 ∧ Alike R (q.pushBulk v).1 (q'.pushBulk v').1 := by
  obtain ⟨-, hcap, hres, hcont⟩ := h.pushBulk_spec v
  obtain ⟨-, hcap', hres', hcont'⟩ := h'.pushBulk_spec v'
  have heq : (q.pushBulk v).2 = (q'.pushBulk v').2 := by
    rw [Bool.eq_iff_iff, hres, hres', ha.length_eq, ha.cap, hv.length_eq]
  refine ⟨heq, by rw [hcap, hcap', ha.cap], ?_⟩
  rw [hcont, hcont', heq]
  split
  · exact List.rel_append ha.contents hv
  · exact ha.contents

theorem popBulk (ha : Alike R q q') (h : q.Ok) (h' : q'.Ok) (n : Nat) :
    Alike R (q.popBulk n).1 (q'.popBulk n).1 := by
  obtain ⟨-, hcap, -, hcont⟩ := h.popBulk_spec n
  obtain ⟨-, hcap', -, hcont'⟩ := h'.popBulk_spec n
  refine ⟨by rw [hcap, hcap', ha.cap], ?_⟩
  rw [hcont, hcont', ha.length_eq]
  split
  · exact List.forall₂_drop n ha.contents
  · exact ha.contents

/-- A record or byte is at the head of both rings, or of neither. -/
theorem peek (ha : Alike R q q') (h : q.Ok) (h' : q'.Ok) :
    (q.peek = none ∧ q'.peek = none) ∨ ∃ x x', q.peek = some x ∧ q'.peek = some x' ∧ R x x' := by
  rw [h.peek_eq_head?, h'.peek_eq_head?]
  exact forall₂_head? ha.contents

theorem restart (ha : Alike R q q') (h : q.Ok) (h' : q'.Ok) : Alike R q.restart q'.restart := by
  obtain ⟨-, -, hnil⟩ := restart_spec h
  obtain ⟨-, -, hnil'⟩ := restart_spec h'
  exact ⟨ha.cap, by rw [hnil, hnil']; exact .nil⟩

end RingBuffer.Alike

/-! ### Rings with the same abstract value -/

namespace SameRing

variable {α : Type} [Inhabited α] {q q' : RingBuffer α}

theorem occ_eq (hs : SameRing q q') : q.occ = q'.occ := by
  rw [← q.contents_length, ← q'.contents_length, hs.2]

theorem empty_eq (hs : SameRing q q') (h : q.Ok) (h' : q'.Ok) : q.empty = q'.empty :=
  (alike_eq_iff.mpr hs).empty_eq h h'

theorem push (hs : SameRing q q') (h : q.Ok) (h' : q'.Ok) (x : α) :
    (q.push x).2 = (q'.push x).2 ∧ SameRing (q.push x).1 (q'.push x).1 :=
  ((alike_eq_iff.mpr hs).push h h' rfl).imp_right alike_eq_iff.mp

theorem pop (hs : SameRing q q') (h : q.Ok) (h' : q'.Ok) :
    q.pop.2 = q'.pop.2 ∧ SameRing q.pop.1 q'.pop.1 := by
  obtain ⟨-, -, hres, -⟩ := h.pop_spec
  obtain ⟨-, -, hres', -⟩ := h'.pop_spec
  exact ⟨by rw [hres, hres', hs.2], alike_eq_iff.mp ((alike_eq_iff.mpr hs).pop h h')⟩

theorem pushBulk (hs : SameRing q q') (h : q.Ok) (h' : q'.Ok) (v : List α) :
    (q.pushBulk v).2 = (q'.pushBulk v).2 ∧ SameRing (q.pushBulk v).1 (q'.pushBulk v).1 :=
  ((alike_eq_iff.mpr hs).pushBulk h h' (List.forall₂_same.mpr fun _ _ => rfl)).imp_right
    alike_eq_iff.mp

theorem popBulk (hs : SameRing q q') (h : q.Ok) (h' : q'.Ok) (n : Nat) :
    (q.popBulk n).2 = (q'.popBulk n).2 ∧ SameRing (q.popBulk n).1 (q'.popBulk n).1 := by
  obtain ⟨-, -, hres, -⟩ := h.popBulk_spec n
  obtain ⟨-, -, hres', -⟩ := h'.popBulk_spec n
  exact ⟨by rw [hres, hres', hs.2], alike_eq_iff.mp ((alike_eq_iff.mpr hs).popBulk h h' n)⟩

theorem restart (hs : SameRing q q') (h : q.Ok) (h' : q'.Ok) : SameRing q.restart q'.restart :=
  alike_eq_iff.mp ((alike_eq_iff.mpr hs).restart h h')

end SameRing

/-! ### Lanes whose channels are the same up to the unobservable -/

theorem Channel.Same.alikeTs {c c' : Channel} (h : c.Same c') :
    RingBuffer.Alike SameRecord c.ts c'.ts := ⟨h.tsCap, h.ts⟩

/-- The status word and the overflow word show nothing R25 calls unobservable. -/
theorem Channel.Same.statusWords {c c' : Channel} (h : c.Same c') :
    statusWord c = statusWord c' ∧ overflowWord c = overflowWord c' := by
  simp only [statusWord, overflowWord, h.status, h.policy, h.tsEnable, h.marker, h.txArmed, h.rxOvf,
    h.ovfCount, h.tsOvf, and_self]

theorem Channel.Same.recordPending_eq {c c' : Channel} (h : c.Same c') (hc : c.ts.Ok)
    (hc' : c'.ts.Ok) : recordPending c = recordPending c' := by
  rw [recordPending, recordPending, h.tsEnable, h.alikeTs.empty_eq hc hc']

/-- Two lanes of one channel that only the unobservable tells apart, both well formed. -/
structure Lane.Same (l l' : Lane) : Prop where
  ok : l.chan.RingsOk
  ok' : l'.chan.RingsOk
  inst : l.inst = l'.inst
  chan : l.chan.Same l'.chan
  draws : l.draws = l'.draws
  calls : l.calls = l'.calls

/-- The same answer from lanes that stay the same. -/
abbrev SameAnswer (r r' : Lane × Reply) : Prop := r.1.Same r'.1 ∧ r.2 = r'.2

section operations
variable {l l' : Lane}

/-! ### The environment -/

theorem Lane.Same.call (h : l.Same l') (d : DrvCall) : (l.call d).Same (l'.call d) :=
  { h with calls := congrArg (· ++ [d]) h.calls }

theorem Lane.Same.readStatusFlags (h : l.Same l') : l.readStatusFlags.1 = l'.readStatusFlags.1 ∧
    l.readStatusFlags.2.Same l'.readStatusFlags.2 := by
  rw [Lane.readStatusFlags_eq, Lane.readStatusFlags_eq, ← h.inst, ← h.draws, ← h.calls]
  exact ⟨rfl, { h with inst := rfl, draws := rfl, calls := rfl }⟩

theorem Lane.Same.readDataRegister (h : l.Same l') :
    l.readDataRegister.1 = l'.readDataRegister.1 ∧
      l.readDataRegister.2.Same l'.readDataRegister.2 := by
  rw [Lane.readDataRegister_eq, Lane.readDataRegister_eq, ← h.inst, ← h.draws, ← h.calls]
  exact ⟨rfl, { h with inst := rfl, draws := rfl, calls := rfl }⟩

theorem Lane.Same.configure (h : l.Same l') (o : InitOptions) (f : Word) :
    (l.configure o f).1 = (l'.configure o f).1 ∧ (l.configure o f).2.Same (l'.configure o f).2 := by
  rw [Lane.configure_eq, Lane.configure_eq, ← h.inst, ← h.draws, ← h.calls]
  exact ⟨rfl, { h with inst := rfl, draws := rfl, calls := rfl }⟩

/-! ### The event -/

/-- Once a byte is taken in, the run's start time is the same as well. -/
theorem Lane.Same.accumulate (h : l.Same l') : (accumulate l).Same (accumulate l') ∧
    (Machine.accumulate l).chan.runStart = (Machine.accumulate l').chan.runStart := by
  have hnow : l.now = l'.now := by rw [Lane.now, Lane.now, h.draws, h.inst]
  have hlength : l.chan.nextRunLength = l'.chan.nextRunLength := by
    rw [Channel.nextRunLength, Channel.nextRunLength, h.chan.runLength]
  have hstart : l.chan.nextRunStart l.now = l'.chan.nextRunStart l'.now := by
    rw [Channel.nextRunStart, Channel.nextRunStart, ← h.chan.runLength, hnow]
    split
    · rfl
    · exact h.chan.runStart ‹_›
  have hdraws : l.chan.observeDraws l.inst l.draws = l'.chan.observeDraws l'.inst l'.draws := by
    rw [Channel.observeDraws, Channel.observeDraws, h.chan.runLength, h.inst, h.draws]
  rw [accumulate_eq, accumulate_eq]
  exact ⟨{ h with
    chan := { h.chan with runLength := hlength, runStart := fun _ => hstart }
    draws := hdraws }, hstart⟩

/-- Records closed on the same run differ at most in their stream position. -/
theorem Channel.Same.closeRun {c c' : Channel} (h : c.Same c') (hc : c.ts.Ok) (hc' : c'.ts.Ok)
    (hstart : c.runStart = c'.runStart) : (closeRun c).Same (closeRun c') := by
  have hrec : SameRecord (closingRecord c) (closingRecord c') := ⟨hstart, h.runLength⟩
  obtain ⟨hres, hts⟩ := h.alikeTs.push hc hc' hrec
  exact { h with
    tsCap := hts.cap
    ts := hts.contents
    runLength := rfl
    runStart := fun hne => absurd rfl hne
    tsOvf := by simp only [Machine.closeRun, h.tsOvf, hres] }

theorem Lane.Same.observe (h : l.Same l') (b : Byte) :
    (Machine.observe b l).Same (Machine.observe b l') := by
  obtain ⟨ha, hstart⟩ := h.accumulate
  unfold Machine.observe
  rw [ha.chan.marker]
  split
  · exact { ha with
      ok := closeRun_ringsOk ha.ok
      ok' := closeRun_ringsOk ha.ok'
      chan := ha.chan.closeRun ha.ok.ts ha.ok'.ts hstart }
  · exact ha

theorem Lane.Same.overflow (h : l.Same l') : (Machine.overflow l).Same (Machine.overflow l') :=
  { h with chan := { h.chan with
      rxOvf := rfl, ovfCount := congrArg satInc h.chan.ovfCount } }

theorem Lane.Same.acceptByte (h : l.Same l') (b : Byte) :
    (Machine.acceptByte b l).Same (Machine.acceptByte b l') := by
  obtain ⟨hrx, htx, hts⟩ := h.ok
  obtain ⟨hrx', htx', hts'⟩ := h.ok'
  have hpush : Lane.Same { l with chan := { l.chan with rx := (l.chan.rx.push b).1 } }
      { l' with chan := { l'.chan with rx := (l'.chan.rx.push b).1 } } :=
    { h with
      ok := ⟨hrx.push b, htx, hts⟩
      ok' := ⟨hrx'.push b, htx', hts'⟩
      chan := { h.chan with rx := (h.chan.rx.push hrx hrx' b).2 } }
  have henable := h.chan.tsEnable
  unfold Machine.acceptByte
  dsimp only
  by_cases ht : l.chan.tsEnable = true
  · rw [if_pos ht, if_pos (henable ▸ ht)]
    exact hpush.observe b
  · rw [if_neg ht, if_neg (henable ▸ ht)]
    exact hpush

theorem Lane.Same.rxPumpAlwaysDrain (h : l.Same l') :
    (Machine.rxPumpAlwaysDrain l).Same (Machine.rxPumpAlwaysDrain l') := by
  obtain ⟨hdata, hl⟩ := h.readDataRegister
  unfold Machine.rxPumpAlwaysDrain
  dsimp only
  rw [← hdata, (hl.chan.rx.push hl.ok.rx hl.ok'.rx _).1]
  split
  · exact hl.acceptByte _
  · exact hl.overflow

theorem Lane.Same.rxPumpDrainWhenEmpty (h : l.Same l') :
    (Machine.rxPumpDrainWhenEmpty l).Same (Machine.rxPumpDrainWhenEmpty l') := by
  obtain ⟨hdata, hl⟩ := h.readDataRegister
  unfold Machine.rxPumpDrainWhenEmpty
  dsimp only
  rw [← hdata, h.chan.rx.empty_eq h.ok.rx h.ok'.rx]
  split
  · exact hl.acceptByte _
  · exact h

theorem Lane.Same.rxPump (h : l.Same l') : (Machine.rxPump l).Same (Machine.rxPump l') := by
  unfold Machine.rxPump
  rw [h.chan.policy]
  split
  · exact h.rxPumpAlwaysDrain
  · exact h.rxPumpDrainWhenEmpty

/-- `TX_PUMP` with a byte to send (R143). -/
theorem txPump_of_some {b : Byte} (hp : l.chan.tx.pop.2 = some b) : Machine.txPump l =
    { l with chan := { l.chan with tx := l.chan.tx.pop.1 } }.call (.writeDataRegister b) := by
  unfold Machine.txPump
  rw [hp]

/-- `TX_PUMP` with nothing to send (R143). -/
theorem txPump_of_none (hp : l.chan.tx.pop.2 = none) : Machine.txPump l =
    { (l.call .disableTransmitInterrupt).call .disableTransmitPath with
      chan := { l.chan with txArmed := false } } := by
  unfold Machine.txPump
  rw [hp]
  rfl

theorem Lane.Same.txPump (h : l.Same l') : (Machine.txPump l).Same (Machine.txPump l') := by
  obtain ⟨hres, htx⟩ := h.chan.tx.pop h.ok.tx h.ok'.tx
  have hok := txPump_ringsOk h.ok
  have hok' := txPump_ringsOk h.ok'
  cases hp : l.chan.tx.pop.2 with
  | some b =>
    have hp' := hres.symm.trans hp
    rw [txPump_of_some hp] at hok ⊢
    rw [txPump_of_some hp'] at hok' ⊢
    exact { h.call (.writeDataRegister b) with
      ok := hok, ok' := hok', chan := { h.chan with tx := htx } }
  | none =>
    rw [txPump_of_none hp, txPump_of_none (hres.symm.trans hp)]
    exact { (h.call .disableTransmitInterrupt).call .disableTransmitPath with
      chan := { h.chan with txArmed := rfl } }

theorem Lane.Same.dispatchReady (h : l.Same l') :
    (Machine.dispatchReady l).Same (Machine.dispatchReady l') := by
  obtain ⟨hflags, hl⟩ := h.readStatusFlags
  have htx := hl.txPump
  unfold Machine.dispatchReady
  dsimp only
  rw [← hflags, ← hl.chan.txArmed]
  split <;> split
  · exact htx.rxPump
  · exact hl.rxPump
  · exact htx
  · exact hl

/-! ### The commands -/

theorem Lane.Same.armTx (h : l.Same l') : (Machine.armTx l).Same (Machine.armTx l') := by
  rw [armTx_eq, armTx_eq]
  exact { h with
    chan := { h.chan with txArmed := rfl }
    calls := by rw [h.calls, Channel.armCalls, Channel.armCalls, h.chan.txArmed] }

theorem Lane.Same.whenReady (h : l.Same l') {body : Lane → Lane × Reply}
    (hbody : SameAnswer (body l) (body l')) :
    SameAnswer (Machine.whenReady body l) (Machine.whenReady body l') := by
  have hstatus := h.chan.status
  by_cases hr : l.chan.status = .ready
  · rw [whenReady_of_ready hr, whenReady_of_ready (hstatus ▸ hr)]
    exact hbody
  · rw [whenReady_of_not hr, whenReady_of_not (hstatus ▸ hr)]
    exact ⟨h, rfl⟩

theorem Lane.Same.sendByteBody (h : l.Same l') (b : Byte) :
    SameAnswer (Machine.sendByteBody b l) (Machine.sendByteBody b l') := by
  obtain ⟨hrx, htx, hts⟩ := h.ok
  obtain ⟨hrx', htx', hts'⟩ := h.ok'
  obtain ⟨hres, hring⟩ := h.chan.tx.push htx htx' b
  have hpush : Lane.Same { l with chan := { l.chan with tx := (l.chan.tx.push b).1 } }
      { l' with chan := { l'.chan with tx := (l'.chan.tx.push b).1 } } :=
    { h with
      ok := ⟨hrx, htx.push b, hts⟩
      ok' := ⟨hrx', htx'.push b, hts'⟩
      chan := { h.chan with tx := hring } }
  unfold Machine.sendByteBody
  rw [← hres]
  split
  · exact ⟨hpush.armTx, rfl⟩
  · exact ⟨h, rfl⟩

theorem Lane.Same.sendBytesBody (h : l.Same l') (v : List Byte) :
    SameAnswer (Machine.sendBytesBody v l) (Machine.sendBytesBody v l') := by
  obtain ⟨hrx, htx, hts⟩ := h.ok
  obtain ⟨hrx', htx', hts'⟩ := h.ok'
  obtain ⟨hres, hring⟩ := h.chan.tx.pushBulk htx htx' v
  have hpush : Lane.Same { l with chan := { l.chan with tx := (l.chan.tx.pushBulk v).1 } }
      { l' with chan := { l'.chan with tx := (l'.chan.tx.pushBulk v).1 } } :=
    { h with
      ok := ⟨hrx, htx.pushBulk v, hts⟩
      ok' := ⟨hrx', htx'.pushBulk v, hts'⟩
      chan := { h.chan with tx := hring } }
  unfold Machine.sendBytesBody
  dsimp only
  rw [← hres]
  split
  · split
    · exact ⟨hpush.armTx, rfl⟩
    · exact ⟨hpush, rfl⟩
  · exact ⟨h, rfl⟩

theorem Lane.Same.availableBody (h : l.Same l') :
    SameAnswer (Machine.availableBody l) (Machine.availableBody l') :=
  ⟨h, by rw [Machine.availableBody, Machine.availableBody, h.chan.rx.occ_eq]⟩

theorem Lane.Same.readByteBody (h : l.Same l') :
    SameAnswer (Machine.readByteBody l) (Machine.readByteBody l') := by
  obtain ⟨hrx, htx, hts⟩ := h.ok
  obtain ⟨hrx', htx', hts'⟩ := h.ok'
  obtain ⟨hres, hring⟩ := h.chan.rx.pop hrx hrx'
  unfold Machine.readByteBody
  rw [← hres]
  split
  · exact ⟨{ h with
      ok := ⟨hrx.pop, htx, hts⟩
      ok' := ⟨hrx'.pop, htx', hts'⟩
      chan := { h.chan with rx := hring } }, rfl⟩
  · exact ⟨h, rfl⟩

theorem Lane.Same.readBytesBody (h : l.Same l') (n : Half) :
    SameAnswer (Machine.readBytesBody n l) (Machine.readBytesBody n l') := by
  obtain ⟨hrx, htx, hts⟩ := h.ok
  obtain ⟨hrx', htx', hts'⟩ := h.ok'
  obtain ⟨hres, hring⟩ := h.chan.rx.popBulk hrx hrx' n.toNat
  unfold Machine.readBytesBody
  rw [← hres]
  split
  · exact ⟨{ h with
      ok := ⟨hrx.popBulk _, htx, hts⟩
      ok' := ⟨hrx'.popBulk _, htx', hts'⟩
      chan := { h.chan with rx := hring } }, rfl⟩
  · exact ⟨h, rfl⟩

theorem Lane.Same.tsAvailableBody (h : l.Same l') :
    SameAnswer (Machine.tsAvailableBody l) (Machine.tsAvailableBody l') :=
  ⟨h, by rw [Machine.tsAvailableBody, Machine.tsAvailableBody,
    h.chan.recordPending_eq h.ok.ts h.ok'.ts]⟩

/-- The answer shows a record's time and length, and its bytes, but not its stream position (R179). -/
theorem Lane.Same.tsReadRecord (h : l.Same l') {r r' : TimestampRecord} (hr : SameRecord r r') :
    SameAnswer (Machine.tsReadRecord r l) (Machine.tsReadRecord r' l') := by
  obtain ⟨hrx, htx, hts⟩ := h.ok
  obtain ⟨hrx', htx', hts'⟩ := h.ok'
  obtain ⟨htime, hlength⟩ := hr
  obtain ⟨hres, hring⟩ := h.chan.rx.popBulk hrx hrx' r.length.toNat
  have hpop := h.chan.alikeTs.pop hts hts'
  unfold Machine.tsReadRecord
  rw [← hlength, ← htime, ← hres]
  split
  · exact ⟨{ h with
      ok := ⟨hrx.popBulk _, htx, hts.pop⟩
      ok' := ⟨hrx'.popBulk _, htx', hts'.pop⟩
      chan := { h.chan with rx := hring, tsCap := hpop.cap, ts := hpop.contents } }, rfl⟩
  · exact ⟨h, rfl⟩

theorem Lane.Same.tsReadBody (h : l.Same l') :
    SameAnswer (Machine.tsReadBody l) (Machine.tsReadBody l') := by
  unfold Machine.tsReadBody
  rw [h.chan.tsEnable]
  split
  · rcases h.chan.alikeTs.peek h.ok.ts h.ok'.ts with ⟨hp, hp'⟩ | ⟨r, r', hp, hp', hr⟩
    · rw [hp, hp']
      exact ⟨h, rfl⟩
    · rw [hp, hp']
      exact h.tsReadRecord hr
  · exact ⟨h, rfl⟩

theorem Lane.Same.statusBody (h : l.Same l') :
    SameAnswer (Machine.statusBody l) (Machine.statusBody l') := by
  obtain ⟨hword, hovf⟩ := h.chan.statusWords
  exact ⟨h, by rw [Machine.statusBody, Machine.statusBody, hword, hovf]⟩

/-- A successful `INIT` leaves no abstract value and no run to differ in (R134). -/
theorem Lane.Same.initConfigured (h : l.Same l') (o : InitOptions) (r : CfgResult) :
    SameAnswer (Machine.initConfigured o r l) (Machine.initConfigured o r l') := by
  obtain ⟨hrx, htx, hts⟩ := h.ok
  obtain ⟨hrx', htx', hts'⟩ := h.ok'
  cases r with
  | ok =>
    have hrestart := h.chan.alikeTs.restart hts hts'
    have hready : Lane.Same { l with chan := readyChannel o l.chan }
        { l' with chan := readyChannel o l'.chan } :=
      { h with
        ok := ⟨hrx.restart, htx.restart, hts.restart⟩
        ok' := ⟨hrx'.restart, htx'.restart, hts'.restart⟩
        chan := { h.chan with
          status := rfl
          policy := rfl
          tsEnable := rfl
          marker := rfl
          rx := h.chan.rx.restart hrx hrx'
          tx := h.chan.tx.restart htx htx'
          tsCap := hrestart.cap
          ts := hrestart.contents
          runLength := rfl
          runStart := fun hne => absurd rfl hne } }
    exact ⟨((hready.call _).call _).call _, rfl⟩
  | rejected => exact ⟨{ h with chan := { h.chan with status := rfl } }, rfl⟩
  | failed => exact ⟨{ h with chan := { h.chan with status := rfl } }, rfl⟩

theorem Lane.Same.initBody (h : l.Same l') (o : InitOptions) (f : Word) :
    SameAnswer (Machine.initBody o f l) (Machine.initBody o f l') := by
  obtain ⟨hres, hl⟩ := h.configure o f
  unfold Machine.initBody
  rw [← h.chan.status, ← hres]
  split
  · exact ⟨h, rfl⟩
  · exact ⟨h, rfl⟩
  · exact hl.initConfigured o _
  · exact hl.initConfigured o _

/-- Every operation of the ports answers the same and keeps the lanes the same. -/
theorem Lane.Same.laneOp (h : l.Same l') {i : Instr} (hreq : i.requestable = true) (f : Word) :
    (Machine.laneOp f i l).1.Same (Machine.laneOp f i l').1 ∧
      (Machine.laneOp f i l).2 = (Machine.laneOp f i l').2 := by
  have answering : ∀ {r r' : Lane × Reply}, SameAnswer r r' → r.1.Same r'.1 ∧
      ((some r.2, none) : Option Reply × Option OpReturn) = (some r'.2, none) :=
    fun hr => ⟨hr.1, by rw [hr.2]⟩
  cases i with
  | init ch o => exact answering (h.initBody o f)
  | sendByte ch b => exact answering (h.whenReady (h.sendByteBody b))
  | sendBytes ch v => exact answering (h.whenReady (h.sendBytesBody v))
  | available ch => exact answering (h.whenReady h.availableBody)
  | readByte ch => exact answering (h.whenReady h.readByteBody)
  | readBytes ch n => exact answering (h.whenReady (h.readBytesBody n))
  | tsAvailable ch => exact answering (h.whenReady h.tsAvailableBody)
  | tsAvailableAll => exact ⟨h, rfl⟩
  | tsRead ch => exact answering (h.whenReady h.tsReadBody)
  | status ch => exact answering h.statusBody
  | dispatch ch =>
    refine ⟨?_, rfl⟩
    simp only [Machine.laneOp, h.chan.status]
    split
    · exact h.dispatchReady
    · exact h
  | _ => nomatch hreq

end operations

/-! ### The whole state -/

/-- A state whose table alone is replaced by one that is the same up to the unobservable. -/
theorem State.same_iff {s s' : State} :
    s.Same s' ↔ ∃ chs, List.Forall₂ Channel.Same s.ch chs ∧ s' = { s with ch := chs } := by
  constructor
  · rintro ⟨hch, hrest⟩
    refine ⟨s'.ch, hch, ?_⟩
    obtain ⟨fClk, ch, cmdBuf, responses, drvTrace, stimulus, env, opReturns⟩ := s
    cases s'
    simp only [State.mk.injEq, true_and] at hrest ⊢
    simp only [hrest, and_self]
  · rintro ⟨chs, hch, rfl⟩
    exact ⟨hch, rfl⟩

section tables
variable {s : State} {chs : List Channel}

/-- A lane of one table, and the same lane of the other. -/
theorem laneOf_same {ch : Byte} {c c' : Channel} (h : c.Same c') (hc : c.RingsOk) (hc' : c'.RingsOk) :
    (s.laneOf ch c).Same (State.laneOf { s with ch := chs } ch c') :=
  ⟨hc, hc', rfl, h, rfl, rfl⟩

/-- Lanes that are the same, committed to tables that are the same, with the same answers. -/
theorem State.Same.finish (hch : List.Forall₂ Channel.Same s.ch chs) {ch : Byte}
    {r r' : Lane × Option Reply × Option OpReturn} (hl : r.1.Same r'.1) (ha : r.2 = r'.2) :
    (s.finish ch r).Same (State.finish { s with ch := chs } ch r') := by
  refine ⟨?_, ?_⟩
  · rw [State.finish_ch, State.finish_ch, ← hl.inst]
    exact forall₂_set hch hl.chan _
  · simp only [State.finish, State.commit, hl.inst, hl.draws, hl.calls, ha]

/-- The answer of `TS_AVAILABLE_ALL` is made of bits that show nothing unobservable (R178). -/
theorem map_pendingBit_same (hch : List.Forall₂ Channel.Same s.ch chs) (hs : ∀ c ∈ s.ch, c.RingsOk)
    (hchs : ∀ c ∈ chs, c.RingsOk) : s.ch.map pendingBit = chs.map pendingBit := by
  refine List.ext_getElem? fun k => ?_
  rw [List.getElem?_map, List.getElem?_map]
  cases hc : s.ch[k]? with
  | none =>
    have hlen : chs.length ≤ k := hch.length_eq ▸ List.getElem?_eq_none_iff.mp hc
    rw [List.getElem?_eq_none hlen]
  | some c =>
    obtain ⟨c', hc', hsame⟩ := forall₂_getElem? hch hc
    obtain ⟨-, -, hts⟩ := hs c (List.mem_of_getElem? hc)
    obtain ⟨-, -, hts'⟩ := hchs c' (List.mem_of_getElem? hc')
    rw [hc', Option.map_some, Option.map_some, pendingBit, pendingBit, hsame.status,
      hsame.recordPending_eq hts hts']

end tables

/-- An operation of the ports on one state is matched by the same operation on the other. -/
theorem State.Same.exec {s s' t : State} {i : Instr} (hreq : i.requestable = true) (hs : s.TableOk)
    (hs' : s'.TableOk) (h : s.Same s') (he : Machine.exec i s = .next t) :
    ∃ t', Machine.exec i s' = .next t' ∧ t.Same t' := by
  obtain ⟨chs, hch, rfl⟩ := State.same_iff.mp h
  obtain ⟨-, -, hrings⟩ := hs
  obtain ⟨-, -, hrings'⟩ := hs'
  cases hi : i.channel with
  | none =>
    obtain rfl : i = .tsAvailableAll := by
      revert hi
      cases i <;> simp [Instr.channel]
    cases he
    refine ⟨_, rfl, hch, ?_⟩
    simp only [map_pendingBit_same hch hrings hrings', State.respond]
  | some ch =>
    rcases s.lane_cases ch.toNat with ⟨-, hlen, -⟩ | ⟨c, hc, -, -⟩
    · have hlen' : chs.length ≤ ch.toNat := hch.length_eq ▸ hlen
      rw [exec_of_absent hi hlen] at he
      rw [exec_of_absent (s := { s with ch := chs }) hi hlen']
      by_cases hcmd : i.isCommand = true
      · rw [if_pos hcmd] at he ⊢
        cases he
        exact ⟨_, rfl, hch, rfl⟩
      · rw [if_neg hcmd, if_pos hreq] at he ⊢
        cases he
        exact ⟨_, rfl, hch, rfl⟩
    · obtain ⟨c', hc', hsame⟩ := forall₂_getElem? hch hc
      rw [exec_of_channel hi hc] at he
      cases he
      have hl := laneOf_same (s := s) (chs := chs) (ch := ch) hsame (hrings c (List.mem_of_getElem? hc))
        (hrings' c' (List.mem_of_getElem? hc'))
      obtain ⟨hlane, hans⟩ := hl.laneOp hreq s.fClk
      exact ⟨_, exec_of_channel (s := { s with ch := chs }) hi hc', State.Same.finish hch hlane hans⟩

/-- A whole command on one state is matched by the same command on the other: the number of channels,
and so its decoding, is the same. -/
theorem State.Same.runCommand {s s' t : State} {words : List Word} (hs : s.TableOk) (hs' : s'.TableOk)
    (h : s.Same s') (he : Machine.runCommand words s = .next t) :
    ∃ t', Machine.runCommand words s' = .next t' ∧ t.Same t' := by
  unfold Machine.runCommand at he ⊢
  rw [← h.ch.length_eq]
  cases hd : decodeCommand s.ch.length words with
  | ok i =>
    simp only [hd] at he
    exact h.exec (Instr.requestable_of_isCommand (isCommand_of_decode hd)) hs hs' he
  | error e =>
    simp only [hd] at he
    cases he
    obtain ⟨chs, hch, rfl⟩ := State.same_iff.mp h
    exact ⟨_, rfl, hch, rfl⟩

/-- Settles O49: what arrives is the same for both states, and each kind of transition keeps them the
same. -/
theorem abstractValueDecides : Obligations.AbstractValueDecides := by
  intro s s' t hs hs' h he
  obtain ⟨chs, hch, rfl⟩ := State.same_iff.mp h
  have hports : ∀ buf rest, ({ s with cmdBuf := buf, stimulus := rest } : State).Same
      { s with ch := chs, cmdBuf := buf, stimulus := rest } := fun _ _ => ⟨hch, rfl⟩
  unfold step at he ⊢
  dsimp only
  cases ha : nextArrival s.cmdBuf s.stimulus with
  | command words rest =>
    rw [ha] at he
    exact (hports [] rest).runCommand (s := { s with cmdBuf := [], stimulus := rest }) hs hs' he
  | event id buf rest =>
    rw [ha] at he
    exact (hports buf rest).exec (s := { s with cmdBuf := buf, stimulus := rest })
      (i := .dispatch id) rfl hs hs' he
  | waiting buf =>
    rw [ha] at he
    cases he
    exact ⟨_, rfl, hports buf []⟩

end Sys2Proof.Machine

/-!
SUPPORT and statements settled: the byte lanes of packed payloads (R54, R90), the step on a whole command
(R60, R80), and runs of ring operations (R70, R120, R121).
-/

namespace Sys2Proof

/-! ### Byte lanes of payload words -/

/-- Byte lane `k` of a payload word is its byte at place `k` (R54). -/
theorem extractLsb'_eq_bytesOfWord (w : Word) {k : Nat} (hk : k < 4) :
    w.extractLsb' (8 * k) 8 = (bytesOfWord w).getD k 0 := by
  match k, hk with
  | 0, _ => rfl
  | 1, _ => rfl
  | 2, _ => rfl
  | 3, _ => rfl

/-- Packing takes four bytes at a time, with zeros where there are fewer (R90). -/
theorem packBytes_of_ne_nil {bs : List Byte} (h : bs ≠ []) :
    packBytes bs = wordOfBytes (bs.getD 0 0) (bs.getD 1 0) (bs.getD 2 0) (bs.getD 3 0) ::
      packBytes (bs.drop 4) := by
  match bs, h with
  | [_], _ => rfl
  | [_, _], _ => rfl
  | [_, _, _], _ => rfl
  | _ :: _ :: _ :: _ :: _, _ => rfl

/-- Byte lane `j` of the packed words is byte `j`, and 0 beyond the last byte (R54, R90). -/
theorem lane_packBytes (bs : List Byte) (j : Nat) :
    ((packBytes bs).getD (j / 4) 0).extractLsb' (8 * (j % 4)) 8 = bs.getD j 0 := by
  by_cases h : bs = []
  · subst h
    simp [packBytes]
  · rw [packBytes_of_ne_nil h]
    by_cases hj : j < 4
    · rw [Nat.div_eq_of_lt hj, Nat.mod_eq_of_lt hj, List.getD_cons_zero,
        extractLsb'_eq_bytesOfWord _ hj, bytesOfWord_wordOfBytes]
      match j, hj with
      | 0, _ => rfl
      | 1, _ => rfl
      | 2, _ => rfl
      | 3, _ => rfl
    · obtain ⟨i, rfl⟩ : ∃ i, j = i + 4 := ⟨j - 4, by omega⟩
      have ih := lane_packBytes (bs.drop 4) i
      rw [Nat.add_div_right i (by decide), List.getD_cons_succ, Nat.add_mod_right, ih]
      simp [List.getD, Nat.add_comm]
termination_by j

namespace Machine

/-- Settles O6: the number of words is a law of the packing, and each byte is found in its lane. -/
theorem payloadPackingIsLittleEndian : Obligations.PayloadPackingIsLittleEndian := fun bytes =>
  ⟨packBytes_length bytes, fun j _ => lane_packBytes bytes j⟩

/-! ### The step on a whole command -/

/-- The words a begun command still lacks are taken in, and no more (R83). -/
theorem takeMissing_of_begun {h : Word} {payload words : List Word} (rest : List PortItem)
    (hlen : (h :: payload ++ words).length = commandLength h) :
    takeMissing (h :: payload) (words.map .word ++ rest) = (h :: payload ++ words, rest) := by
  have hmissing : wordsMissing (h :: payload) = words.length := by
    simp only [wordsMissing, ← hlen, List.length_append, List.length_cons]
    omega
  rw [takeMissing, hmissing, takeWords_all]

/-- The buffered words and the arriving ones collect into the one command they are (R80). -/
theorem collect_of_isCommand {buf words : List Word} (rest : List PortItem)
    (hc : IsCommand (buf ++ words)) :
    collect buf (words.map .word ++ rest) = (buf ++ words, rest) := by
  obtain ⟨h, payload, heq, hlen⟩ := hc
  cases buf with
  | nil =>
    obtain rfl : words = h :: payload := heq
    have hheader : takeMissing [] ((h :: payload).map .word ++ rest) =
        ([h], payload.map .word ++ rest) := by
      simp [takeMissing, wordsMissing, takeWords]
    rw [collect, hheader]
    exact takeMissing_of_begun rest hlen
  | cons h' begun =>
    obtain rfl : h' = h := (List.cons.inj heq).1
    have hfull : takeMissing (h' :: begun ++ words) rest = (h' :: begun ++ words, rest) := by
      simpa using takeMissing_of_begun (words := []) rest (by simpa using hlen)
    rw [collect, takeMissing_of_begun rest hlen]
    exact hfull

theorem commandComplete_of_isCommand {words : List Word} (hc : IsCommand words) :
    commandComplete words = true := by
  obtain ⟨h, payload, rfl, hlen⟩ := hc
  simp only [commandComplete, decide_eq_true_eq, ← hlen, List.length_cons, le_refl]

/-- Settles O8: what arrives next is the command, and its decoding does not depend on the ports. -/
theorem stepRunsTheDecodedCommand : Obligations.StepRunsTheDecodedCommand := by
  intro s i words rest hc hdec hstim
  have harrival : nextArrival s.cmdBuf s.stimulus = .command (s.cmdBuf ++ words) rest := by
    rw [hstim, nextArrival, collect_of_isCommand rest hc]
    exact if_pos (commandComplete_of_isCommand hc)
  rw [step, harrival]
  simp only [runCommand, hdec]

/-! ### Runs of ring operations -/

/-- What a run of operations from the ring `q` keeps (R70, R120): the ring stays well formed, and what was
held and accepted is what was removed and is held, in order. -/
structure QueueRun.FifoFrom {α : Type} [Inhabited α] (q : RingBuffer α) (r : QueueRun α) : Prop where
  ok : r.ring.Ok
  cap : r.ring.cap = q.cap
  order : q.contents ++ r.accepted = r.removed ++ r.ring.contents

section fifo
variable {α : Type} [Inhabited α] {q : RingBuffer α} {r : QueueRun α}

/-- Nothing is lost and nothing is duplicated: the order, counted (R121). -/
theorem QueueRun.FifoFrom.occ_add_removed (h : r.FifoFrom q) :
    r.ring.occ + r.removed.length = q.occ + r.accepted.length := by
  have hlen := congrArg List.length h.order
  simp only [List.length_append, RingBuffer.contents_length] at hlen
  omega

theorem queueStep_fifoFrom (h : r.FifoFrom q) (op : QueueOp α) : (queueStep r op).FifoFrom q := by
  obtain ⟨hok, hcap, horder⟩ := h
  cases op with
  | push x =>
    obtain ⟨hok', hcap', -, hcont⟩ := hok.push_spec x
    refine ⟨hok', hcap'.trans hcap, ?_⟩
    simp only [queueStep, hcont]
    split
    · rw [← List.append_assoc, horder, List.append_assoc]
    · exact horder
  | pop =>
    obtain ⟨hok', hcap', hres, hcont⟩ := hok.pop_spec
    refine ⟨hok', hcap'.trans hcap, ?_⟩
    simp only [queueStep, hcont, hres, horder, List.append_assoc]
    cases r.ring.contents <;> rfl
  | pushBulk v =>
    obtain ⟨hok', hcap', -, hcont⟩ := hok.pushBulk_spec v
    refine ⟨hok', hcap'.trans hcap, ?_⟩
    simp only [queueStep, hcont]
    split
    · rw [← List.append_assoc, horder, List.append_assoc]
    · exact horder
  | popBulk n =>
    obtain ⟨hok', hcap', hres, hcont⟩ := hok.popBulk_spec n
    refine ⟨hok', hcap'.trans hcap, ?_⟩
    simp only [queueStep, hcont, hres, horder, List.append_assoc]
    split
    · rw [Option.getD_some, List.take_append_drop]
    · rfl

theorem queueRun_fifoFrom (h : q.Ok) (ops : List (QueueOp α)) : (queueRun q ops).FifoFrom q :=
  List.foldlRecOn ops queueStep (motive := QueueRun.FifoFrom q) ⟨h, rfl, List.append_nil _⟩
    fun _ hr op _ => queueStep_fifoFrom hr op

end fifo

/-- Settles O13, by the invariant each operation keeps. -/
theorem ringRunIsFifo : Obligations.RingRunIsFifo := by
  intro α _ q ops hq
  have h := queueRun_fifoFrom hq ops
  exact ⟨h.ok, h.cap, h.order, h.occ_add_removed⟩

end Machine
end Sys2Proof

/-!
SUPPORT and statement settled: what an event may change of a channel as the foreground sees it (R26, R64,
R65), what each data command does on a Ready channel, and the answers that stay valid (R66, R255).
-/

namespace Sys2Proof.Machine

/-! ### What an event may change of a channel -/

/-- What an event leaves of a record to the foreground, whatever the state of its rings (R26, R23). -/
structure Channel.Undisturbed (c d : Channel) : Prop extends c.KeepsForeground d where
  rxCap : d.rx.cap = c.rx.cap
  txCap : d.tx.cap = c.tx.cap
  tsCap : d.ts.cap = c.ts.cap

/-- How the rings of `d` stand to those of `c` after events: bytes may have left `tx`, and bytes and records
may have come behind those in `rx` and `ts` (R64, R65). -/
structure Channel.Grows (c d : Channel) : Prop where
  tx : d.tx.occ ≤ c.tx.occ
  rx : c.rx.contents <+: d.rx.contents
  ts : c.ts.contents <+: d.ts.contents

theorem Channel.undisturbed_refl (c : Channel) : c.Undisturbed c :=
  ⟨c.keepsForeground_refl, rfl, rfl, rfl⟩

theorem Channel.Undisturbed.trans {a b c : Channel} (h : a.Undisturbed b) (h' : b.Undisturbed c) :
    a.Undisturbed c :=
  ⟨h.toKeepsForeground.trans h'.toKeepsForeground, h'.rxCap.trans h.rxCap, h'.txCap.trans h.txCap,
    h'.tsCap.trans h.tsCap⟩

theorem Channel.Undisturbed.txWr {c d : Channel} (h : c.Undisturbed d) : d.tx.wr = c.tx.wr := h.tx.1

theorem Channel.grows_refl (c : Channel) : c.Grows c :=
  ⟨Nat.le_refl _, ⟨[], List.append_nil _⟩, ⟨[], List.append_nil _⟩⟩

/-- Where the rings are as they were, nothing has left and nothing has come. -/
theorem Channel.grows_of_rings {c d : Channel} (htx : d.tx = c.tx) (hrx : d.rx = c.rx)
    (hts : d.ts = c.ts) : c.Grows d :=
  ⟨by rw [htx], by rw [hrx], by rw [hts]⟩

theorem Channel.Grows.trans {a b c : Channel} (h : a.Grows b) (h' : b.Grows c) : a.Grows c :=
  ⟨h'.tx.trans h.tx, h.rx.trans h'.rx, h.ts.trans h'.ts⟩

theorem Channel.Grows.rx_occ {c d : Channel} (h : c.Grows d) : c.rx.occ ≤ d.rx.occ := by
  simpa using h.rx.length_le

/-- What is stored goes behind what is held. -/
theorem RingBuffer.Ok.contents_before_withPushed {α : Type} [Inhabited α] {q : RingBuffer α} (h : q.Ok)
    (hroom : q.occ ≠ q.cap) (x : α) : q.contents <+: (q.withPushed x).contents := by
  obtain ⟨-, -, -, hle, -⟩ := id h
  have hfit : [x].length ≤ q.cap - q.occ := by simp only [List.length_singleton]; omega
  obtain ⟨-, -, hcont⟩ := (RingBuffer.hasStored_withPushed h x).spec h hfit
  exact ⟨[x], hcont.symm⟩

section event
variable {c : Channel}

theorem Channel.transmitted_grows (h : c.RingsOk) : c.Grows c.transmitted := by
  unfold Channel.transmitted
  split
  · exact Channel.grows_of_rings rfl rfl rfl
  · next h0 =>
    obtain ⟨-, hocc, -⟩ := RingBuffer.withRemoved_spec h.tx (Nat.one_le_iff_ne_zero.mpr h0)
    exact ⟨by rw [hocc]; exact Nat.sub_le _ _, ⟨[], List.append_nil _⟩, ⟨[], List.append_nil _⟩⟩

theorem Channel.observed_grows (c : Channel) (h : c.ts.Ok) (b : Byte) (now : Word) :
    c.Grows (c.observed b now) := by
  unfold Channel.observed
  split
  · exact Channel.grows_of_rings rfl rfl rfl
  · split
    · exact Channel.grows_of_rings rfl rfl rfl
    · exact ⟨Nat.le_refl _, ⟨[], List.append_nil _⟩, h.contents_before_withPushed ‹_› _⟩

theorem Channel.accepted_grows (h : c.RingsOk) (hroom : c.rx.occ ≠ c.rx.cap) (b : Byte) (now : Word) :
    c.Grows (c.accepted b now) := by
  have hpushed : c.Grows { c with rx := c.rx.withPushed b } :=
    ⟨Nat.le_refl _, h.rx.contents_before_withPushed hroom b, ⟨[], List.append_nil _⟩⟩
  unfold Channel.accepted
  split
  · exact hpushed.trans (Channel.observed_grows { c with rx := c.rx.withPushed b } h.ts b now)
  · exact hpushed

theorem Channel.received_grows (h : c.RingsOk) (b : Byte) (now : Word) :
    c.Grows (c.received b now) := by
  obtain ⟨⟨hcap, -⟩, -⟩ := h.rx
  unfold Channel.received
  split
  · split
    · exact Channel.grows_of_rings rfl rfl rfl
    · exact Channel.accepted_grows h ‹_› b now
  · split
    · exact Channel.accepted_grows h (by omega) b now
    · exact c.grows_refl

theorem dispatchReady_grows {l : Lane} (h : l.chan.RingsOk) : l.chan.Grows (dispatchReady l).chan := by
  have h1 : l.readStatusFlags.2.chan.RingsOk := h
  have hpump : ∀ {m : Lane}, m.chan.RingsOk → m.chan.Grows (rxPump m).chan := fun {m} hm => by
    rw [rxPump_eq hm.rx]
    exact Channel.received_grows hm _ _
  have htx : l.chan.Grows (txPump l.readStatusFlags.2).chan := by
    rw [txPump_eq h1.tx]
    exact Channel.transmitted_grows h
  rcases dispatchReady_cases l with (he | he) | he | he <;> rw [he]
  · exact l.chan.grows_refl
  · exact htx
  · exact hpump h1
  · exact htx.trans (hpump (txPump_ringsOk h1))

end event

/-! ### Events on the whole state -/

/-- An event as the operation `DISPATCH` (R97). -/
theorem exec_dispatch (id : Byte) (s : State) : exec (.dispatch id) s = .next (dispatch id s) := rfl

theorem dispatch_tableOk {s : State} (h : s.TableOk) (id : Byte) : (dispatch id s).TableOk :=
  (exec_keeps_table h (exec_dispatch id s)).1

@[simp] theorem dispatch_responses (id : Byte) (s : State) :
    (dispatch id s).responses = s.responses :=
  exec_responses_of_not_command (i := .dispatch id) rfl (exec_dispatch id s)

theorem laneOp_dispatch_undisturbed (f : Word) (id : Byte) (l : Lane) :
    l.chan.Undisturbed (laneOp f (.dispatch id) l).1.chan := by
  obtain ⟨⟨hrx, -⟩, ⟨htx, -⟩, ⟨hts, -⟩⟩ := laneOp_keeps f (.dispatch id) l
  exact ⟨laneOp_keepsForeground rfl f l, hrx, htx, hts⟩

theorem laneOp_dispatch_grows (f : Word) (id : Byte) {l : Lane} (h : l.chan.RingsOk) :
    l.chan.Grows (laneOp f (.dispatch id) l).1.chan := by
  simp only [laneOp]
  split
  · exact dispatchReady_grows h
  · exact l.chan.grows_refl

section table
variable {s : State} {k : Nat} {c : Channel}

/-- A channel of the table is there after an event, its record changed as an event may. -/
theorem dispatch_undisturbed (hc : s.ch[k]? = some c) (id : Byte) :
    ∃ d, (dispatch id s).ch[k]? = some d ∧ c.Undisturbed d := by
  obtain ⟨hlen, hrel⟩ := exec_relates Channel.undisturbed_refl
    (laneOp_dispatch_undisturbed s.fClk id) (exec_dispatch id s)
  have hk : k < (dispatch id s).ch.length := hlen ▸ (List.getElem?_eq_some_iff.mp hc).1
  exact ⟨_, List.getElem?_eq_getElem hk, hrel k c _ hc (List.getElem?_eq_getElem hk)⟩

/-- Well-formed rings change as they may in an event. -/
theorem dispatch_grows (hs : s.TableOk) (hc : s.ch[k]? = some c) (id : Byte) {d : Channel}
    (hd : (dispatch id s).ch[k]? = some d) : c.Grows d := by
  obtain ⟨-, -, hrings⟩ := hs
  obtain ⟨-, hrel⟩ := exec_relates (P := fun c d => c.RingsOk → c.Grows d) (fun c _ => c.grows_refl)
    (fun _ => laneOp_dispatch_grows s.fClk id) (exec_dispatch id s)
  exact hrel k c d hc hd (hrings c (List.mem_of_getElem? hc))

@[simp] theorem runEvents_nil (s : State) : runEvents [] s = s := rfl
@[simp] theorem runEvents_cons (id : Byte) (ids : List Byte) (s : State) :
    runEvents (id :: ids) s = runEvents ids (dispatch id s) := rfl

theorem runEvents_tableOk (hs : s.TableOk) (ids : List Byte) : (runEvents ids s).TableOk := by
  induction ids generalizing s with
  | nil => exact hs
  | cons id ids ih => exact ih (dispatch_tableOk hs id)

@[simp] theorem runEvents_responses (ids : List Byte) (s : State) :
    (runEvents ids s).responses = s.responses := by
  induction ids generalizing s with
  | nil => rfl
  | cons id ids ih => rw [runEvents_cons, ih, dispatch_responses]

/-- A channel of the table is there after any events, its record changed as events may. -/
theorem runEvents_channel (hs : s.TableOk) (hc : s.ch[k]? = some c) (ids : List Byte) :
    ∃ d, (runEvents ids s).ch[k]? = some d ∧ c.Undisturbed d ∧ c.Grows d := by
  induction ids generalizing s c with
  | nil => exact ⟨c, hc, c.undisturbed_refl, c.grows_refl⟩
  | cons id ids ih =>
    obtain ⟨d, hd, hund⟩ := dispatch_undisturbed hc id
    obtain ⟨e, he, hund', hgrow'⟩ := ih (dispatch_tableOk hs id) hd
    exact ⟨e, he, hund.trans hund', (dispatch_grows hs hc id hd).trans hgrow'⟩

end table

/-! ### The data commands on a Ready channel -/

/-- The command sends the bytes `v` (R172, R173). -/
inductive Sends (ch : Byte) : List Byte → Instr → Prop
  | byte (b : Byte) : Sends ch [b] (.sendByte ch b)
  | bytes (v : List Byte) : Sends ch v (.sendBytes ch v)

/-- The command reads bytes as `k` says (R175, R176). -/
inductive Reads (ch : Byte) : ReadKind → Instr → Prop
  | byte : Reads ch .one (.readByte ch)
  | bytes (n : Half) : Reads ch (.many n) (.readBytes ch n)

/-- The record with the bytes `v` written into the slots behind what `tx` holds, not yet published
(R64). -/
def Channel.stored (c : Channel) (v : List Byte) : Channel :=
  { c with tx := c.tx.memWrite c.tx.wr v }

/-- The lane with the bytes `v` written behind what its TX ring holds. -/
def Lane.stored (l : Lane) (v : List Byte) : Lane := { l with chan := l.chan.stored v }

/-- The bytes written into `tx` and published, and the transmitter armed (R171 to R173). -/
def sendAll (v : List Byte) (l : Lane) : Lane := publishSend v.length (l.stored v)

section bodies
variable {l : Lane}

theorem sendBytesBody_full {v : List Byte} (h : l.chan.tx.cap - l.chan.tx.occ < v.length) :
    sendBytesBody v l = (l, .raise .bufferFull) := by
  rcases l.chan.tx.pushBulk_cases v with ⟨-, hp⟩ | ⟨hroom, -⟩
  · simp [sendBytesBody, hp]
  · omega

theorem sendBytesBody_room {v : List Byte} (h : v.length ≤ l.chan.tx.cap - l.chan.tx.occ) :
    sendBytesBody v l = (sendAll v l, .done 0 []) := by
  rcases l.chan.tx.pushBulk_cases v with ⟨hfull, -⟩ | ⟨-, hp⟩
  · omega
  · simp only [sendBytesBody, hp, if_true]
    rfl

/-- `SEND_BYTE` is a `SEND_BYTES` of one byte (R172, R173). -/
theorem sendByteBody_eq (h : l.chan.tx.Ok) (b : Byte) : sendByteBody b l = sendBytesBody [b] l := by
  obtain ⟨-, -, -, hle, -⟩ := h
  rcases l.chan.tx.push_cases b with ⟨hfull, hp⟩ | ⟨hroom, hp⟩
  · rw [sendBytesBody_full (by rw [hfull, Nat.sub_self]; exact Nat.one_pos)]
    simp [sendByteBody, hp]
  · rw [sendBytesBody_room (by simp only [List.length_singleton]; omega)]
    simp only [sendByteBody, hp, if_true]
    rfl

theorem readBytesBody_short {n : Half} (h : l.chan.rx.occ < n.toNat) :
    readBytesBody n l = (l, .raise .underflow) := by
  rcases l.chan.rx.popBulk_cases n.toNat with ⟨-, hp⟩ | ⟨henough, -⟩
  · simp [readBytesBody, hp]
  · omega

theorem readBytesBody_enough {n : Half} (h : n.toNat ≤ l.chan.rx.occ) : readBytesBody n l =
    (publishRead n.toNat l, .done n (packBytes (l.chan.rx.contents.take n.toNat))) := by
  rcases l.chan.rx.popBulk_cases n.toNat with ⟨hshort, -⟩ | ⟨-, hp⟩
  · omega
  · simp only [readBytesBody, hp, l.chan.rx.memRead_rd h]
    rfl

theorem readByteBody_short (h : l.chan.rx.Ok) (h0 : l.chan.rx.occ < 1) :
    readByteBody l = (l, .raise .bufferEmpty) := by
  obtain ⟨-, hrd, hwr, -⟩ := h
  have he := (RingBuffer.empty_iff hrd hwr).mpr (by omega)
  rcases l.chan.rx.pop_cases with ⟨-, hp⟩ | ⟨hne, -⟩
  · simp [readByteBody, hp]
  · rw [hne] at he
    cases he

theorem readByteBody_enough (h : l.chan.rx.Ok) (h1 : 1 ≤ l.chan.rx.occ) : readByteBody l =
    (publishRead 1 l, .done (((l.chan.rx.contents.take 1).getD 0 0).setWidth 16) []) := by
  obtain ⟨-, hrd, hwr, -⟩ := h
  rw [← l.chan.rx.memRead_rd h1]
  rcases l.chan.rx.pop_cases with ⟨he, -⟩ | ⟨-, hp⟩
  · rw [RingBuffer.empty_iff hrd hwr] at he
    omega
  · simp only [readByteBody, hp]
    rfl

/-- `TS_READ` without the switch or without a record (R179). -/
theorem tsReadBody_none (h : l.chan.ts.Ok)
    (hnone : l.chan.tsEnable = false ∨ l.chan.ts.contents = []) :
    tsReadBody l = (l, .raise .timestampUnavailable) := by
  rw [tsReadBody, h.peek_eq_head?]
  rcases hnone with hoff | hnil
  · simp [hoff]
  · simp [hnil]

/-- `TS_READ` with a record at the head (R179). -/
theorem tsReadBody_record (h : l.chan.ts.Ok) (hon : l.chan.tsEnable = true) {rec : TimestampRecord}
    (hhead : l.chan.ts.contents.head? = some rec) : tsReadBody l = tsReadRecord rec l := by
  simp only [tsReadBody, hon, if_true, h.peek_eq_head?, hhead]

theorem tsReadRecord_short {rec : TimestampRecord} (h : l.chan.rx.occ < rec.length.toNat) :
    tsReadRecord rec l = (l, .raise .underflow) := by
  rcases l.chan.rx.popBulk_cases rec.length.toNat with ⟨-, hp⟩ | ⟨henough, -⟩
  · simp [tsReadRecord, hp]
  · omega

theorem tsReadRecord_enough {rec : TimestampRecord} (hts : l.chan.ts.empty = false)
    (h : rec.length.toNat ≤ l.chan.rx.occ) :
    tsReadRecord rec l = (publishRun rec.length.toNat l,
      .done rec.length (rec.timestamp :: packBytes (l.chan.rx.contents.take rec.length.toNat))) := by
  rcases l.chan.rx.popBulk_cases rec.length.toNat with ⟨hshort, -⟩ | ⟨-, hp⟩
  · omega
  · rcases l.chan.ts.pop_cases with ⟨he, -⟩ | ⟨-, hpop⟩
    · rw [hts] at he
      cases he
    · simp only [tsReadRecord, hp, hpop, l.chan.rx.memRead_rd h]
      rfl

end bodies

section commands
variable {s : State} {ch : Byte} {c : Channel} {i : Instr}

/-- A data command on a Ready channel that leaves its lane answers and does nothing else. -/
theorem State.command_whenReady_answers (hc : s.ch[ch.toNat]? = some c) (hr : c.status = .ready)
    {body : Lane → Lane × Reply} {r : Reply} (hb : body (s.laneOf ch c) = (s.laneOf ch c, r)) :
    s.command ch (whenReady body) = s.respond ch r :=
  State.command_only_answers hc ((whenReady_of_ready (l := s.laneOf ch c) hr body).trans hb)

/-- A data command on a Ready channel that works on its lane and answers. -/
theorem State.command_whenReady_works (hc : s.ch[ch.toNat]? = some c) (hr : c.status = .ready)
    {body : Lane → Lane × Reply} {f : Lane → Lane} {r : Reply}
    (hb : body (s.laneOf ch c) = (f (s.laneOf ch c), r)) :
    s.command ch (whenReady body) = (s.onLane ch f).respond ch r := by
  rw [State.command_of_channel hc, whenReady_of_ready hr, State.onLane_of_channel hc]
  exact congrArg (fun p : Lane × Reply => (s.commit p.1).respond ch p.2) hb

/-- A data command on a channel that is not Ready (R132, R170). -/
theorem State.command_whenReady_of_not (hc : s.ch[ch.toNat]? = some c) (hr : c.status ≠ .ready)
    (body : Lane → Lane × Reply) : s.command ch (whenReady body) = s.respond ch (.raise .notReady) :=
  State.command_only_answers hc (whenReady_of_not (l := s.laneOf ch c) hr body)

theorem exec_sends_full {v : List Byte} (hi : Sends ch v i) (hc : s.ch[ch.toNat]? = some c)
    (hr : c.status = .ready) (hok : c.tx.Ok) (hfull : c.tx.cap - c.tx.occ < v.length) :
    exec i s = .next (s.respond ch (.raise .bufferFull)) := by
  have hbody := sendBytesBody_full (l := s.laneOf ch c) hfull
  cases hi with
  | bytes v => exact congrArg _ (State.command_whenReady_answers hc hr hbody)
  | byte b =>
    exact congrArg _ (State.command_whenReady_answers hc hr ((sendByteBody_eq hok b).trans hbody))

theorem exec_sends_room {v : List Byte} (hi : Sends ch v i) (hc : s.ch[ch.toNat]? = some c)
    (hr : c.status = .ready) (hok : c.tx.Ok) (hroom : v.length ≤ c.tx.cap - c.tx.occ) :
    exec i s = .next ((s.onLane ch (sendAll v)).respond ch (.done 0 [])) := by
  have hbody := sendBytesBody_room (l := s.laneOf ch c) hroom
  cases hi with
  | bytes v => exact congrArg _ (State.command_whenReady_works hc hr hbody)
  | byte b =>
    exact congrArg _ (State.command_whenReady_works hc hr ((sendByteBody_eq hok b).trans hbody))

theorem exec_reads_short {k : ReadKind} (hi : Reads ch k i) (hc : s.ch[ch.toNat]? = some c)
    (hr : c.status = .ready) (hok : c.rx.Ok) (hshort : c.rx.occ < k.count) :
    exec i s = .next (s.respond ch (.raise k.shortage)) := by
  cases hi with
  | byte =>
    exact congrArg _ (State.command_whenReady_answers hc hr
      (readByteBody_short (l := s.laneOf ch c) hok hshort))
  | bytes n =>
    exact congrArg _ (State.command_whenReady_answers hc hr
      (readBytesBody_short (l := s.laneOf ch c) hshort))

theorem exec_reads_enough {k : ReadKind} (hi : Reads ch k i) (hc : s.ch[ch.toNat]? = some c)
    (hr : c.status = .ready) (hok : c.rx.Ok) (henough : k.count ≤ c.rx.occ) :
    exec i s = .next ((s.onLane ch (publishRead k.count)).respond ch
      (k.answer (c.rx.contents.take k.count))) := by
  cases hi with
  | byte =>
    exact congrArg _ (State.command_whenReady_works hc hr
      (readByteBody_enough (l := s.laneOf ch c) hok henough))
  | bytes n =>
    exact congrArg _ (State.command_whenReady_works hc hr
      (readBytesBody_enough (l := s.laneOf ch c) henough))

theorem exec_available_ready (hc : s.ch[ch.toNat]? = some c) (hr : c.status = .ready) :
    exec (.available ch) s = .next (s.respond ch (.done (BitVec.ofNat 16 c.rx.occ) [])) :=
  congrArg _ (State.command_whenReady_answers hc hr (body := availableBody) rfl)

theorem exec_tsAvailable_ready (hc : s.ch[ch.toNat]? = some c) (hr : c.status = .ready) :
    exec (.tsAvailable ch) s = .next (s.respond ch (.done (boolValue (recordPending c)) [])) :=
  congrArg _ (State.command_whenReady_answers hc hr (body := tsAvailableBody) rfl)

theorem exec_tsRead_none (hc : s.ch[ch.toNat]? = some c) (hr : c.status = .ready) (hok : c.ts.Ok)
    (hnone : c.tsEnable = false ∨ c.ts.contents = []) :
    exec (.tsRead ch) s = .next (s.respond ch (.raise .timestampUnavailable)) :=
  congrArg _ (State.command_whenReady_answers hc hr (tsReadBody_none (l := s.laneOf ch c) hok hnone))

theorem exec_tsRead_short (hc : s.ch[ch.toNat]? = some c) (hr : c.status = .ready) (hok : c.ts.Ok)
    (hon : c.tsEnable = true) {rec : TimestampRecord} (hhead : c.ts.contents.head? = some rec)
    (hshort : c.rx.occ < rec.length.toNat) :
    exec (.tsRead ch) s = .next (s.respond ch (.raise .underflow)) :=
  congrArg _ (State.command_whenReady_answers hc hr
    ((tsReadBody_record (l := s.laneOf ch c) hok hon hhead).trans (tsReadRecord_short hshort)))

theorem exec_tsRead_enough (hc : s.ch[ch.toNat]? = some c) (hr : c.status = .ready) (hok : c.ts.Ok)
    (hon : c.tsEnable = true) {rec : TimestampRecord} (hhead : c.ts.contents.head? = some rec)
    (henough : rec.length.toNat ≤ c.rx.occ) :
    exec (.tsRead ch) s = .next ((s.onLane ch (publishRun rec.length.toNat)).respond ch
      (.done rec.length (rec.timestamp :: packBytes (c.rx.contents.take rec.length.toNat)))) := by
  have hne : c.ts.empty = false := by
    rw [Bool.eq_false_iff, Ne, hok.empty_iff_contents]
    rintro hnil
    rw [hnil] at hhead
    cases hhead
  exact congrArg _ (State.command_whenReady_works hc hr
    ((tsReadBody_record (l := s.laneOf ch c) hok hon hhead).trans (tsReadRecord_enough hne henough)))

end commands

/-! ### Answers that stay valid -/

/-- A data command that answers OK has its channel, and the channel is Ready (R132, R170). -/
theorem State.command_whenReady_ok {s : State} {ch : Byte} {body : Lane → Lane × Reply} {a : Response}
    (h : (s.command ch (whenReady body)).responses = s.responses ++ [a]) (ha : a.code = .ok) :
    ∃ c, s.ch[ch.toNat]? = some c ∧ c.status = .ready := by
  rcases s.lane_cases ch.toNat with ⟨-, hlen, -⟩ | ⟨c, hc, -, -⟩
  · rw [State.command_of_absent hlen] at h
    simp only [State.answered_responses, List.append_cancel_left_eq, List.cons.injEq, and_true] at h
    rw [← h] at ha
    cases ha
  · refine ⟨c, hc, ?_⟩
    by_contra hr
    rw [State.command_whenReady_of_not hc hr] at h
    simp only [State.respond_responses, List.append_cancel_left_eq, List.cons.injEq, and_true] at h
    rw [← h] at ha
    cases ha

/-- The one response added is the one that was to be added. -/
theorem State.respond_inj {s : State} {ch : Byte} {r : Reply} {a : Response}
    (h : (s.respond ch r).responses = s.responses ++ [a]) :
    a = { code := r.code, ch := ch, value := r.value, payload := r.payload } := by
  simpa [eq_comm] using h

@[simp] theorem State.onLane_responses (s : State) (ch : Byte) (f : Lane → Lane) :
    (s.onLane ch f).responses = s.responses := by
  unfold State.onLane
  split <;> rfl

/-- A command that ends in a response has added it to the responses there were. -/
theorem exists_response {i : Instr} {s t : State} {ch : Byte} {r : Reply}
    (h : exec i s = .next (t.respond ch r)) {rs : List Response} (ht : t.responses = rs) :
    ∃ u a, exec i s = .next u ∧ u.responses = rs ++ [a] ∧ a.code = r.code :=
  ⟨_, _, h, by rw [State.respond_responses, ht], rfl⟩

/-- The rings of a channel of a well-formed table. -/
theorem State.TableOk.ringsOk {s : State} (h : s.TableOk) {k : Nat} {c : Channel}
    (hc : s.ch[k]? = some c) : c.RingsOk := by
  obtain ⟨-, -, hrings⟩ := h
  exact hrings c (List.mem_of_getElem? hc)

/-- A read answers OK after any events if its bytes were held before them (R66). -/
theorem readBytes_after_events {s : State} (hs : s.TableOk) {ch : Byte} {c : Channel}
    (hc : s.ch[ch.toNat]? = some c) (hr : c.status = .ready) {m : Half} (hm : m.toNat ≤ c.rx.occ)
    (ids : List Byte) : ∃ t r, exec (.readBytes ch m) (runEvents ids s) = .next t ∧
      t.responses = s.responses ++ [r] ∧ r.code = .ok := by
  obtain ⟨d, hd, hund, hgrow⟩ := runEvents_channel hs hc ids
  have hdr : d.status = .ready := hund.config.status.trans hr
  exact exists_response (exec_reads_enough (.bytes m) hd hdr
    ((runEvents_tableOk hs ids).ringsOk hd).rx (hm.trans hgrow.rx_occ)) (by simp)

/-- `TS_READ` finds its record after any events if there was one before them (R66). -/
theorem tsRead_after_events {s : State} (hs : s.TableOk) {ch : Byte} {c : Channel}
    (hc : s.ch[ch.toNat]? = some c) (hr : c.status = .ready) (hon : c.tsEnable = true)
    (hne : c.ts.contents ≠ []) (ids : List Byte) :
    ∃ t r, exec (.tsRead ch) (runEvents ids s) = .next t ∧
      t.responses = s.responses ++ [r] ∧ r.code ≠ .timestampUnavailable := by
  obtain ⟨d, hd, hund, hgrow⟩ := runEvents_channel hs hc ids
  have hdr : d.status = .ready := hund.config.status.trans hr
  have hdon : d.tsEnable = true := hund.config.tsEnable.trans hon
  have hdok := (runEvents_tableOk hs ids).ringsOk hd
  obtain ⟨rec, later, hcont⟩ := List.exists_cons_of_ne_nil hne
  have hhead : d.ts.contents.head? = some rec := by
    obtain ⟨more, hmore⟩ := hgrow.ts
    rw [← hmore, hcont]
    rfl
  rcases Nat.lt_or_ge d.rx.occ rec.length.toNat with hshort | henough
  · obtain ⟨t, a, ht, ha, hcode⟩ := exists_response
      (exec_tsRead_short hd hdr hdok.ts hdon hhead hshort) (runEvents_responses ids s)
    exact ⟨t, a, ht, ha, by rw [hcode]; exact nofun⟩
  · obtain ⟨t, a, ht, ha, hcode⟩ := exists_response (rs := s.responses)
      (exec_tsRead_enough hd hdr hdok.ts hdon hhead henough) (by simp)
    exact ⟨t, a, ht, ha, by rw [hcode]; exact nofun⟩

/-- Settles O60: the answer says what the rings held, and events only put more behind it. -/
theorem answersStayValidUnderEvents : Obligations.AnswersStayValidUnderEvents := by
  intro s u ch ids a hs
  constructor
  · intro h hresp ha m hm
    cases h
    obtain ⟨c, hc, hr⟩ := State.command_whenReady_ok hresp ha
    have hu := State.command_whenReady_answers hc hr (body := availableBody) rfl
    rw [hu] at hresp ⊢
    rw [State.respond_inj hresp] at hm
    have hle : m.toNat ≤ c.rx.occ := hm.trans (Nat.mod_le _ _)
    exact readBytes_after_events (s := s.respond ch _) hs hc hr hle ids
  · intro h hresp ha hv
    cases h
    obtain ⟨c, hc, hr⟩ := State.command_whenReady_ok hresp ha
    have hu := State.command_whenReady_answers hc hr (body := tsAvailableBody) rfl
    rw [hu] at hresp ⊢
    rw [State.respond_inj hresp] at hv
    have hpending : recordPending c = true := by
      by_contra hno
      rw [Bool.not_eq_true] at hno
      simp [Reply.done, hno, boolValue] at hv
    obtain ⟨hon, hempty⟩ : c.tsEnable = true ∧ c.ts.empty = false := by
      simpa [recordPending] using hpending
    have hne : c.ts.contents ≠ [] := by
      rw [Ne, ← (hs.ringsOk hc).ts.empty_iff_contents, hempty]
      exact Bool.false_ne_true
    exact tsRead_after_events (s := s.respond ch _) hs hc hr hon hne ids

end Sys2Proof.Machine

/-!
SUPPORT: the codes a command can still end with from each stage of its micro-steps, and that events leave
them as they are (R63 to R66).
-/

namespace Sys2Proof.Machine

/-! ### What the foreground reads of a channel -/

section undisturbed
variable {c d : Channel}

theorem Channel.Undisturbed.occFromWr_rx (h : c.Undisturbed d) (wr : Nat) :
    occFromWr d.rx wr = occFromWr c.rx wr := by
  have hrd : d.rx.rd = c.rx.rd := h.rx
  simp only [occFromWr, RingBuffer.occ, hrd, h.rxCap]

theorem Channel.Undisturbed.tooFull (h : c.Undisturbed d) (v : List Byte) (rd : Nat) :
    tooFull v rd d = tooFull v rd c := by
  have hocc : occFromRd d.tx rd = occFromRd c.tx rd := by
    simp only [occFromRd, RingBuffer.occ, h.txWr, h.txCap]
  rw [Machine.tooFull, Machine.tooFull, hocc, h.txCap]

theorem Channel.Undisturbed.checked_eq (h : c.Undisturbed d) : d.checked = c.checked := by
  simp only [Channel.checked, h.config.status, h.config.policy, h.config.tsEnable, h.config.marker]

end undisturbed

/-- A value that events leave as it is, read after an event. -/
theorem State.ofLane_dispatch {β : Type} {f : Channel → β} (hf : ∀ c d, c.Undisturbed d → f d = f c)
    (s : State) (id ch : Byte) (x : β) : (dispatch id s).ofLane ch x f = s.ofLane ch x f := by
  rcases s.lane_cases ch.toNat with ⟨-, hlen, hl⟩ | ⟨c, hc, -, -⟩
  · have hl' : (dispatch id s).lane ch.toNat = none :=
      State.lane_of_absent (by rw [dispatch_length]; exact hlen)
    rw [State.ofLane, State.ofLane, hl, hl']
  · obtain ⟨d, hd, hund⟩ := dispatch_undisturbed hc id
    rw [State.ofLane_of_channel hc, State.ofLane_of_channel hd, hf c d hund]

/-! ### Transfers -/

theorem sendTransfer_ne_done {ch : Byte} {n pos : Nat} {todo : List Byte} :
    sendTransfer ch n pos todo ≠ .done := by
  cases todo <;> exact nofun

theorem readTransfer_ne_done {ch : Byte} {k : ReadKind} {pos left : Nat} {got : List Byte} :
    readTransfer ch k pos got left ≠ .done := by
  cases left <;> exact nofun

theorem runTransfer_ne_done {ch : Byte} {rec : TimestampRecord} {pos left : Nat} {got : List Byte} :
    runTransfer ch rec pos got left ≠ .done := by
  cases left <;> exact nofun

/-! ### Answers that are settled -/

/-- The answer a command has come to at its snapshot and has still to give: its linearization point is
behind (R69). -/
def Foreground.settled (s : State) : Foreground → Option (Byte × Reply)
  | .decideSend ch v rd =>
    if s.ofLane ch true (tooFull v rd) then some (ch, .raise .bufferFull) else none
  | .decideRead ch k wr =>
    if s.ofLane ch true (fun c => decide (occFromWr c.rx wr < k.count)) then
      some (ch, .raise k.shortage)
    else none
  | .answerCount ch wr =>
    some (ch, .done (BitVec.ofNat 16 (s.ofLane ch 0 fun c => occFromWr c.rx wr)) [])
  | .answerPending ch on wr =>
    some (ch, .done (boolValue (s.ofLane ch false fun c => on && !decide (wr = c.ts.rd))) [])
  | .readHead ch on wr =>
    if s.ofLane ch true (fun c => !on || decide (wr = c.ts.rd)) then
      some (ch, .raise .timestampUnavailable)
    else none
  | .decideRun ch rec wr =>
    if s.ofLane ch true (fun c => decide (occFromWr c.rx wr < rec.length.toNat)) then
      some (ch, .raise .underflow)
    else none
  | _ => none

/-- A settled answer is given in the next micro-step. -/
theorem foregroundStep_of_settled {s : State} {fg : Foreground} {ch : Byte} {r : Reply}
    (h : fg.settled s = some (ch, r)) : foregroundStep fg s = (.done, s.respond ch r) := by
  cases fg with
  | answerCount | answerPending =>
    simp only [Foreground.settled, Option.some.injEq, Prod.mk.injEq] at h
    obtain ⟨rfl, rfl⟩ := h
    rfl
  | decideSend | decideRead | readHead | decideRun =>
    simp only [Foreground.settled, Option.ite_none_right_eq_some, Option.some.injEq,
      Prod.mk.injEq] at h
    obtain ⟨hcond, rfl, rfl⟩ := h
    exact if_pos hcond
  | _ => cases h

section decisions
variable {s : State} {ch : Byte}

/-- A decision that does not settle the answer goes on. -/
theorem foregroundStep_decideSend {v : List Byte} {rd : Nat}
    (h : (Foreground.decideSend ch v rd).settled s = none) :
    foregroundStep (.decideSend ch v rd) s =
      (sendTransfer ch v.length (s.ofLane ch 0 (·.tx.wr)) v, s) :=
  if_neg (by simpa [Foreground.settled] using h)

theorem foregroundStep_decideRead {k : ReadKind} {wr : Nat}
    (h : (Foreground.decideRead ch k wr).settled s = none) :
    foregroundStep (.decideRead ch k wr) s =
      (readTransfer ch k (s.ofLane ch 0 (·.rx.rd)) [] k.count, s) :=
  if_neg (by simpa [Foreground.settled] using h)

theorem foregroundStep_readHead {on : Bool} {wr : Nat}
    (h : (Foreground.readHead ch on wr).settled s = none) :
    foregroundStep (.readHead ch on wr) s =
      (.snapRunWr ch (s.ofLane ch default fun c => c.ts.readSlot c.ts.rd), s) :=
  if_neg (by simpa [Foreground.settled] using h)

theorem foregroundStep_decideRun {rec : TimestampRecord} {wr : Nat}
    (h : (Foreground.decideRun ch rec wr).settled s = none) :
    foregroundStep (.decideRun ch rec wr) s =
      (runTransfer ch rec (s.ofLane ch 0 (·.rx.rd)) [] rec.length.toNat, s) :=
  if_neg (by simpa [Foreground.settled] using h)

end decisions

/-- Events do not unsettle an answer, nor settle one (R64, R65). -/
theorem settled_dispatch (id : Byte) (s : State) (fg : Foreground) :
    fg.settled (dispatch id s) = fg.settled s := by
  have hts : ∀ c d : Channel, c.Undisturbed d → d.ts.rd = c.ts.rd := fun _ _ h => h.ts
  cases fg with
  | decideSend ch v rd =>
    simp only [Foreground.settled, State.ofLane_dispatch fun c d h => h.tooFull v rd]
  | decideRead ch k wr =>
    simp only [Foreground.settled, State.ofLane_dispatch
      (f := fun c => decide (occFromWr c.rx wr < k.count)) fun c d h => by simp only [h.occFromWr_rx]]
  | answerCount ch wr =>
    simp only [Foreground.settled, State.ofLane_dispatch fun c d h => h.occFromWr_rx wr]
  | answerPending ch on wr =>
    simp only [Foreground.settled, State.ofLane_dispatch
      (f := fun c => on && !decide (wr = c.ts.rd)) fun c d h => by simp only [hts c d h]]
  | readHead ch on wr =>
    simp only [Foreground.settled, State.ofLane_dispatch
      (f := fun c => !on || decide (wr = c.ts.rd)) fun c d h => by simp only [hts c d h]]
  | decideRun ch rec wr =>
    simp only [Foreground.settled, State.ofLane_dispatch
      (f := fun c => decide (occFromWr c.rx wr < rec.length.toNat))
      fun c d h => by simp only [h.occFromWr_rx]]
  | _ => rfl

/-! ### The codes a command can end with -/

/-- The code of the last response there is. -/
def State.lastCode (s : State) : Option Code := s.responses.getLast?.map (·.code)

@[simp] theorem State.lastCode_respond (s : State) (ch : Byte) (r : Reply) :
    (s.respond ch r).lastCode = some r.code := by
  simp [State.lastCode]

@[simp] theorem State.lastCode_dispatch (id : Byte) (s : State) :
    (dispatch id s).lastCode = s.lastCode := by
  simp only [State.lastCode, dispatch_responses]

/-- The codes a command can end with from a stage where its answer is not settled; at the end, the code it
has responded with. -/
def Foreground.Open (s : State) : Foreground → Code → Prop
  | .check _, _ => True
  | .snapTxRd _ _, e => e = .ok ∨ e = .bufferFull
  | .snapRxWr _ k, e => e = .ok ∨ e = k.shortage
  | .snapTsWr _ _, e => (e = .ok ∨ e = .underflow) ∨ e = .timestampUnavailable
  | .readHead _ _ _, e | .snapRunWr _ _, e => e = .ok ∨ e = .underflow
  | .readFlags ch _, e => e = s.ofLane ch .illegalCommand fun _ => .ok
  | .done, e => s.lastCode = some e
  | _, e => e = .ok

/-- The codes a command can end with from a stage. -/
def Foreground.CanEnd (s : State) (fg : Foreground) (e : Code) : Prop :=
  match fg.settled s with
  | some (_, r) => e = r.code
  | none => fg.Open s e

section canEnd
variable {s : State} {fg : Foreground} {e : Code}

theorem canEnd_of_settled {ch : Byte} {r : Reply} (h : fg.settled s = some (ch, r)) :
    fg.CanEnd s e ↔ e = r.code := by
  rw [Foreground.CanEnd, h]

theorem canEnd_of_open (h : fg.settled s = none) : fg.CanEnd s e ↔ fg.Open s e := by
  rw [Foreground.CanEnd, h]

theorem canEnd_done : Foreground.done.CanEnd s e ↔ s.lastCode = some e := Iff.rfl

/-- A command that has just responded ended with that response's code. -/
theorem canEnd_respond {ch : Byte} {r : Reply} :
    Foreground.done.CanEnd (s.respond ch r) e ↔ e = r.code := by
  rw [canEnd_done, State.lastCode_respond, Option.some.injEq, eq_comm]

theorem canEnd_sendTransfer {ch : Byte} {n pos : Nat} {todo : List Byte} :
    (sendTransfer ch n pos todo).CanEnd s e ↔ e = .ok := by
  cases todo <;> exact Iff.rfl

theorem canEnd_readTransfer {ch : Byte} {k : ReadKind} {pos left : Nat} {got : List Byte} :
    (readTransfer ch k pos got left).CanEnd s e ↔ e = .ok := by
  cases left <;> exact Iff.rfl

theorem canEnd_runTransfer {ch : Byte} {rec : TimestampRecord} {pos left : Nat} {got : List Byte} :
    (runTransfer ch rec pos got left).CanEnd s e ↔ e = .ok := by
  cases left <;> exact Iff.rfl

/-- Events leave the codes a command can end with as they are. -/
theorem canEnd_dispatch (id : Byte) : fg.CanEnd (dispatch id s) e ↔ fg.CanEnd s e := by
  have hopen : fg.Open (dispatch id s) e ↔ fg.Open s e := by
    cases fg with
    | readFlags ch k =>
      have hcode := s.ofLane_dispatch (f := fun _ => Code.ok) (fun _ _ _ => rfl) id ch .illegalCommand
      rw [Foreground.Open, Foreground.Open, hcode]
    | done => simp only [Foreground.Open, State.lastCode_dispatch]
    | _ => exact Iff.rfl
  rw [Foreground.CanEnd, Foreground.CanEnd, settled_dispatch]
  split
  · exact Iff.rfl
  · exact hopen

/-- A command that decides next ends as the decision says, or as it can when it goes on. -/
theorem canEnd_of_decision {p : Prop} [Decidable p] {ch : Byte} {r : Reply}
    (hset : fg.settled s = if p then some (ch, r) else none) (h : fg.CanEnd s e) :
    fg.Open s e ∨ e = r.code := by
  split at hset
  · exact .inr ((canEnd_of_settled hset).mp h)
  · exact .inl ((canEnd_of_open hset).mp h)

/-- What a command can end with after a micro-step it can end with before it. -/
theorem canEnd_of_step (hne : fg ≠ .done)
    (h : (foregroundStep fg s).1.CanEnd (foregroundStep fg s).2 e) : fg.CanEnd s e := by
  cases hset : fg.settled s with
  | some p =>
    rw [foregroundStep_of_settled (ch := p.1) (r := p.2) hset, canEnd_respond] at h
    exact (canEnd_of_settled hset).mpr h
  | none =>
    rw [canEnd_of_open hset]
    cases fg with
    | check words => trivial
    | done => exact absurd rfl hne
    | answerCount | answerPending => cases hset
    | decideSend ch v rd =>
      rw [foregroundStep_decideSend hset] at h
      exact canEnd_sendTransfer.mp h
    | decideRead ch k wr =>
      rw [foregroundStep_decideRead hset] at h
      exact canEnd_readTransfer.mp h
    | decideRun ch rec wr =>
      rw [foregroundStep_decideRun hset] at h
      exact canEnd_runTransfer.mp h
    | readHead ch on wr =>
      rw [foregroundStep_readHead hset] at h
      exact h
    | snapTxRd | snapRxWr | snapRunWr | snapTsWr => exact canEnd_of_decision rfl h
    | snapCount | snapPending => exact (canEnd_of_settled rfl).mp h
    | writeSlot => exact canEnd_sendTransfer.mp h
    | readSlot => exact canEnd_readTransfer.mp h
    | readRun => exact canEnd_runTransfer.mp h
    | commitSend | commitRun | readAll => exact canEnd_respond.mp h
    | commitRead ch k got => cases k <;> exact canEnd_respond.mp h
    | readFlags ch k =>
      rw [canEnd_respond.mp h, Foreground.Open, State.ofLane, State.ofLane]
      split <;> rfl

end canEnd

/-! ### The outcome of a run -/

/-- The code a command responds with in a run is one it can end with from where it stands. -/
theorem Micro.canEnd_of_outcome {moves : List Move} {e : Code} {m : Micro} (hne : m.fg ≠ .done)
    (h : m.outcome moves = some e) : m.fg.CanEnd m.st e := by
  induction moves generalizing m with
  | nil => cases h
  | cons x rest ih =>
    cases x with
    | event id => exact (canEnd_dispatch id).mp (ih (m := microMove m (.event id)) hne h)
    | foreground =>
      refine canEnd_of_step hne ?_
      rw [Micro.outcome] at h
      split at h
      · next hd => rwa [← Micro.advance_fg, hd, canEnd_done]
      · next hd => exact ih hd h

/-- The code of the outcome, after the micro-step that comes next. -/
theorem Micro.canEnd_of_outcome_step {rest : List Move} {e : Code} {m : Micro}
    (h : m.outcome (.foreground :: rest) = some e) : m.advance.fg.CanEnd m.advance.st e := by
  rw [Micro.outcome] at h
  split at h
  · next hd =>
    rwa [hd, canEnd_done]
  · next hd => exact m.advance.canEnd_of_outcome hd h

/-- The check of a data command goes on or responds. -/
theorem checkReady_cases (ch : Byte) (go : Checked → Foreground) (s : State) :
    (∃ k, checkReady ch go s = (go k, s)) ∨ ∃ r, checkReady ch go s = (.done, s.respond ch r) := by
  unfold checkReady checkChannel
  split
  · exact .inr ⟨_, rfl⟩
  · dsimp only
    split
    · exact .inl ⟨_, rfl⟩
    · exact .inr ⟨_, rfl⟩

/-- The check of a legal command. -/
theorem checkWords_of_decode {words : List Word} {s : State} {i : Instr}
    (h : decodeCommand s.ch.length words = .ok i) : checkWords words s = checkInstr i s := by
  obtain ⟨hcheck, -⟩ := checkWords_legal h
  exact hcheck

/-- A check that ends the command responds. -/
theorem checkWords_respond {words : List Word} {s : State} (h : (checkWords words s).1 = .done) :
    ∃ t ch r, (checkWords words s).2 = State.respond t ch r := by
  have hready : ∀ {ch : Byte} {go : Checked → Foreground}, (∀ k, go k ≠ .done) →
      (checkReady ch go s).1 = .done → ∃ t ch' r, (checkReady ch go s).2 = State.respond t ch' r := by
    intro ch go hgo hd
    rcases checkReady_cases ch go s with ⟨k, he⟩ | ⟨r, he⟩ <;> rw [he] at hd ⊢
    · exact absurd hd (hgo k)
    · exact ⟨s, ch, r, rfl⟩
  cases hdec : decodeCommand s.ch.length words with
  | error e =>
    obtain ⟨hcheck, -⟩ := checkWords_illegal hdec
    rw [hcheck]
    exact ⟨s, _, _, rfl⟩
  | ok i =>
    have hcmd := isCommand_of_decode hdec
    rw [checkWords_of_decode hdec] at h ⊢
    cases i with
    | init ch o =>
      change ∃ t ch' r, s.command ch _ = State.respond t ch' r
      unfold State.command
      split
      · exact ⟨s, _, _, rfl⟩
      · exact ⟨_, _, _, rfl⟩
    | status ch =>
      simp only [checkInstr, checkChannel] at h ⊢
      split at h
      · exact ⟨s, _, _, rfl⟩
      · cases h
    | tsAvailableAll => cases h
    | sendByte | sendBytes | available | readByte | readBytes | tsAvailable | tsRead =>
      exact hready (fun _ => nofun) h
    | _ => cases hcmd

/-- The micro-step that ends a command responds. -/
theorem foregroundStep_respond {fg : Foreground} {s : State} (hne : fg ≠ .done)
    (h : (foregroundStep fg s).1 = .done) :
    ∃ t ch r, (foregroundStep fg s).2 = State.respond t ch r := by
  cases hset : fg.settled s with
  | some p =>
    rw [foregroundStep_of_settled (ch := p.1) (r := p.2) hset]
    exact ⟨s, _, _, rfl⟩
  | none =>
    cases fg with
    | check words => exact checkWords_respond h
    | done => exact absurd rfl hne
    | answerCount | answerPending => cases hset
    | decideSend ch v rd =>
      rw [foregroundStep_decideSend hset] at h
      exact absurd h sendTransfer_ne_done
    | decideRead ch k wr =>
      rw [foregroundStep_decideRead hset] at h
      exact absurd h readTransfer_ne_done
    | decideRun ch rec wr =>
      rw [foregroundStep_decideRun hset] at h
      exact absurd h runTransfer_ne_done
    | readHead ch on wr =>
      rw [foregroundStep_readHead hset] at h
      cases h
    | commitSend | commitRun | readAll | commitRead | readFlags => exact ⟨_, _, _, rfl⟩
    | writeSlot => exact absurd h sendTransfer_ne_done
    | readSlot => exact absurd h readTransfer_ne_done
    | readRun => exact absurd h runTransfer_ne_done
    | _ => cases h

/-- A command in progress responds in every run that finishes. -/
theorem Micro.exists_outcome {moves : List Move} {m : Micro} (hne : m.fg ≠ .done)
    (hfin : (microRun m moves).Finished) : ∃ e, m.outcome moves = some e := by
  induction moves generalizing m with
  | nil => exact absurd hfin.1 hne
  | cons x rest ih =>
    cases x with
    | event id => exact ih (m := microMove m (.event id)) hne hfin
    | foreground =>
      rw [microRun_cons, microMove_foreground, m.present_busy hne] at hfin
      rw [Micro.outcome]
      split
      · next hd =>
        obtain ⟨t, ch, r, ht⟩ := foregroundStep_respond hne hd
        exact ⟨r.code, by rw [Micro.advance_st, ht]; exact State.lastCode_respond t ch r⟩
      · next hd => exact ih hd hfin

end Sys2Proof.Machine

/-!
SUPPORT: events commute with the bytes a send has written behind what the TX ring holds and not yet
published (R64).
-/

namespace Sys2Proof.Machine

/-! ### The ring -/

section ring
variable {α : Type}

theorem RingBuffer.memWrite_append (q : RingBuffer α) (c : Nat) (v w : List α) :
    q.memWrite c (v ++ w) = (q.memWrite c v).memWrite (c + v.length) w := by
  induction v generalizing q c with
  | nil => rfl
  | cons x v ih =>
    rw [List.cons_append, RingBuffer.memWrite, ih, RingBuffer.memWrite, List.length_cons,
      Nat.add_assoc, Nat.add_comm 1]

/-- Slots are written the same wherever the read cursor stands. -/
theorem RingBuffer.memWrite_withRemoved (q : RingBuffer α) (n c : Nat) (v : List α) :
    (q.withRemoved n).memWrite c v = (q.memWrite c v).withRemoved n := by
  induction v generalizing q c with
  | nil => rfl
  | cons x v ih => exact ih (q.writeSlot c x) (c + 1)

@[simp] theorem RingBuffer.memWrite_occ (q : RingBuffer α) (c : Nat) (v : List α) :
    (q.memWrite c v).occ = q.occ := by
  simp [RingBuffer.occ]

/-- Writing slots keeps a ring well formed. -/
theorem RingBuffer.Ok.memWrite {q : RingBuffer α} (h : q.Ok) (c : Nat) (v : List α) :
    (q.memWrite c v).Ok := by
  simpa [RingBuffer.Ok] using h

/-- What is written behind what the ring holds does not touch its oldest element. -/
theorem RingBuffer.Ok.readSlot_memWrite [Inhabited α] {q : RingBuffer α} (h : q.Ok) {v : List α}
    (hv : v.length ≤ q.cap - q.occ) (h0 : q.occ ≠ 0) :
    (q.memWrite q.wr v).readSlot q.rd = q.readSlot q.rd := by
  have hpushed := RingBuffer.hasStored_pushed h hv
  obtain ⟨-, hocc, hcont⟩ := hpushed.spec h hv
  obtain ⟨-, hrd, -⟩ := id hpushed
  have hhead := congrArg List.head? hcont
  rw [RingBuffer.contents_head?, hocc, if_neg (by omega), hrd, List.head?_append,
    RingBuffer.contents_head?, if_neg h0] at hhead
  exact Option.some.inj hhead

end ring

/-! ### The record and the lane -/

section channel
variable {c : Channel} {v : List Byte}

theorem Channel.stored_nil (c : Channel) : c.stored [] = c := rfl

theorem Channel.stored_append (c : Channel) (v w : List Byte) : c.stored (v ++ w) =
    { c.stored v with tx := (c.stored v).tx.memWrite (c.tx.wr + v.length) w } := by
  simp only [Channel.stored, RingBuffer.memWrite_append]

theorem Channel.transmitted_stored (c : Channel) (v : List Byte) :
    (c.stored v).transmitted = c.transmitted.stored v := by
  have hocc : (c.stored v).tx.occ = c.tx.occ := c.tx.memWrite_occ _ _
  unfold Channel.transmitted
  rw [hocc]
  split
  · rfl
  · simp only [Channel.stored, RingBuffer.memWrite_withRemoved]
    rfl

theorem Channel.observed_stored (c : Channel) (v : List Byte) (b : Byte) (now : Word) :
    (c.stored v).observed b now = (c.observed b now).stored v := by
  rw [Channel.observed, Channel.observed, apply_ite (Channel.stored · v),
    apply_ite (Channel.stored · v)]
  rfl

theorem Channel.accepted_stored (c : Channel) (v : List Byte) (b : Byte) (now : Word) :
    (c.stored v).accepted b now = (c.accepted b now).stored v := by
  have hobs := Channel.observed_stored { c with rx := c.rx.withPushed b } v b now
  rw [Channel.accepted, Channel.accepted, apply_ite (Channel.stored · v), ← hobs]
  rfl

theorem Channel.received_stored (c : Channel) (v : List Byte) (b : Byte) (now : Word) :
    (c.stored v).received b now = (c.received b now).stored v := by
  have hpolicy : (c.stored v).policy = c.policy := rfl
  unfold Channel.received
  rw [hpolicy, Channel.accepted_stored]
  cases c.policy with
  | alwaysDrain =>
    dsimp only
    rw [apply_ite (Channel.stored · v)]
    rfl
  | drainWhenEmpty =>
    dsimp only
    rw [apply_ite (Channel.stored · v)]
    rfl

/-- The byte sent next is the oldest one held, whatever stands behind it. -/
theorem Channel.transmitCalls_stored (h : c.tx.Ok) (hv : v.length ≤ c.tx.cap - c.tx.occ) :
    (c.stored v).transmitCalls ((c.stored v).tx.readSlot (c.stored v).tx.rd) =
      c.transmitCalls (c.tx.readSlot c.tx.rd) := by
  have hocc : (c.stored v).tx.occ = c.tx.occ := c.tx.memWrite_occ _ _
  have hrd : (c.stored v).tx.rd = c.tx.rd := c.tx.memWrite_rd _ _
  rw [Channel.transmitCalls, Channel.transmitCalls, hocc, hrd]
  split
  · rfl
  · next h0 =>
    have hslot : (c.stored v).tx.readSlot c.tx.rd = c.tx.readSlot c.tx.rd :=
      h.readSlot_memWrite hv h0
    rw [hslot]

end channel

theorem txPump_stored {l : Lane} {v : List Byte} (h : l.chan.tx.Ok)
    (hv : v.length ≤ l.chan.tx.cap - l.chan.tx.occ) :
    txPump (l.stored v) = (txPump l).stored v := by
  have hs : (l.stored v).chan.tx.Ok := h.memWrite _ _
  have hcalls : (l.stored v).chan.transmitCalls _ = _ := Channel.transmitCalls_stored h hv
  have hchan : (l.stored v).chan.transmitted = l.chan.transmitted.stored v :=
    l.chan.transmitted_stored v
  rw [txPump_eq hs, txPump_eq h, hchan]
  exact congrArg (fun calls => Lane.mk l.inst (l.chan.transmitted.stored v) l.draws (l.calls ++ calls))
    hcalls

theorem rxPump_stored {l : Lane} (h : l.chan.rx.Ok) (v : List Byte) :
    rxPump (l.stored v) = (rxPump l).stored v := by
  have hchan : (l.stored v).chan.received l.data l.now = (l.chan.received l.data l.now).stored v :=
    l.chan.received_stored v _ _
  rw [rxPump_eq (l := l.stored v) h, rxPump_eq h]
  exact congrArg (fun c => Lane.mk l.inst c (l.chan.receiveDraws l.inst l.draws)
    (l.calls ++ l.chan.receiveCalls l.data)) hchan

/-- The two halves of an event, each if it is signaled (R215, R219). -/
def pumps (transmit receive : Bool) (l : Lane) : Lane :=
  let l1 := if transmit then txPump l else l
  if receive then rxPump l1 else l1

theorem dispatchReady_eq_pumps (l : Lane) : dispatchReady l =
    pumps (txReady l.readStatusFlags.1 && l.chan.txArmed) (rxReady l.readStatusFlags.1)
      l.readStatusFlags.2 := rfl

theorem pumps_stored {l : Lane} {v : List Byte} (h : l.chan.RingsOk)
    (hv : v.length ≤ l.chan.tx.cap - l.chan.tx.occ) (transmit receive : Bool) :
    pumps transmit receive (l.stored v) = (pumps transmit receive l).stored v := by
  have htx := txPump_stored h.tx hv
  cases transmit with
  | false =>
    cases receive with
    | false => rfl
    | true => exact rxPump_stored h.rx v
  | true =>
    cases receive with
    | false => exact htx
    | true => exact (congrArg rxPump htx).trans (rxPump_stored (txPump_ringsOk h).rx v)

/-- An event on a Ready channel and bytes that stand unpublished in its TX ring leave each other alone. -/
theorem dispatchReady_stored {l : Lane} {v : List Byte} (h : l.chan.RingsOk)
    (hv : v.length ≤ l.chan.tx.cap - l.chan.tx.occ) :
    dispatchReady (l.stored v) = (dispatchReady l).stored v := by
  rw [dispatchReady_eq_pumps, dispatchReady_eq_pumps]
  exact pumps_stored (l := l.readStatusFlags.2) h hv _ _

/-! ### The state -/

/-- The bytes `v` written behind what the TX ring of a channel holds, no cursor moved (R64). -/
def State.stored (s : State) (ch : Byte) (v : List Byte) : State := s.onLane ch (Lane.stored · v)

section state
variable {s : State} {ch : Byte} {c : Channel} {v : List Byte}

theorem State.stored_of_channel (hc : s.ch[ch.toNat]? = some c) (v : List Byte) :
    s.stored ch v = s.updated ch.toNat (c.stored v) [] := by
  rw [State.stored, State.onLane_of_channel hc, State.commit_eq]
  exact congrArg (State.updated · _ _ _) (s.withDraws_self _)

@[simp] theorem State.stored_length : (s.stored ch v).ch.length = s.ch.length := by
  unfold State.stored State.onLane
  split <;> simp

theorem State.stored_channel (hc : s.ch[ch.toNat]? = some c) (v : List Byte) :
    (s.stored ch v).ch[ch.toNat]? = some (c.stored v) := by
  have hlt := (List.getElem?_eq_some_iff.mp hc).1
  simp [State.stored_of_channel hc, hlt]

theorem State.stored_nil (hc : s.ch[ch.toNat]? = some c) : s.stored ch [] = s := by
  rw [State.stored_of_channel hc, Channel.stored_nil, State.updated_self hc]

/-- What a lane commits over a record does not depend on that record. -/
theorem State.updated_commit (s : State) (c : Channel) (l : Lane) :
    (s.updated l.inst c []).commit l = s.commit l := by
  simp [State.updated, State.commit]

/-- Changes of different channels commute where one of them makes no call. -/
theorem State.updated_commit_comm {k : Nat} {l : Lane} (hk : k ≠ l.inst) (s : State) (c : Channel) :
    (s.updated k c []).commit l = (s.commit l).updated k c [] := by
  simp only [State.updated, State.commit, List.set_comm _ _ hk, List.map_nil, List.append_nil]

/-- A commit whose record is replaced at once. -/
theorem State.commit_stored {l : Lane} (h : l.inst < s.ch.length) (hch : l.inst = ch.toNat)
    (v : List Byte) : (s.commit l).stored ch v = s.commit (l.stored v) := by
  have hc : (s.commit l).ch[ch.toNat]? = some l.chan := by
    rw [← hch]
    exact State.commit_ch_self h
  rw [State.stored_of_channel hc, ← hch]
  simp [State.updated, State.commit, Lane.stored]

theorem dispatch_of_channel {id : Byte} (hc : s.ch[id.toNat]? = some c) :
    dispatch id s = if c.status = .ready then s.commit (dispatchReady (s.laneOf id c)) else s := by
  rw [dispatch, State.lane_of_channel hc]

theorem dispatch_of_absent {id : Byte} (h : s.ch.length ≤ id.toNat) : dispatch id s = s := by
  rw [dispatch, State.lane_of_absent h]

/-- An event of the channel whose TX ring has unpublished bytes. -/
theorem dispatch_stored_self (hs : s.TableOk) (hc : s.ch[ch.toNat]? = some c)
    (hv : v.length ≤ c.tx.cap - c.tx.occ) :
    dispatch ch (s.stored ch v) = (dispatch ch s).stored ch v := by
  have hlane : (s.stored ch v).laneOf ch (c.stored v) = (s.laneOf ch c).stored v := by
    rw [State.stored_of_channel hc]
    rfl
  have hready := dispatchReady_stored (l := s.laneOf ch c) (hs.ringsOk hc) hv
  have hinst : (dispatchReady (s.laneOf ch c)).inst = ch.toNat := dispatchReady_inst _
  have hlt := (List.getElem?_eq_some_iff.mp hc).1
  rw [dispatch_of_channel (State.stored_channel hc v), dispatch_of_channel hc, hlane, hready]
  change (if c.status = .ready then _ else _) = _
  split
  · rw [State.commit_stored (by rw [hinst]; exact hlt) hinst, State.stored_of_channel hc, ← hinst]
    exact State.updated_commit s _ ((dispatchReady (s.laneOf ch c)).stored v)
  · rfl

/-- An event of another channel. -/
theorem dispatch_stored_other (hc : s.ch[ch.toNat]? = some c) {id : Byte}
    (hne : ch.toNat ≠ id.toNat) (v : List Byte) :
    dispatch id (s.stored ch v) = (dispatch id s).stored ch v := by
  rcases s.lane_cases id.toNat with ⟨-, hlen, -⟩ | ⟨c', hc', -, -⟩
  · rw [dispatch_of_absent hlen, dispatch_of_absent (by rw [State.stored_length]; exact hlen)]
  · have hstored := State.stored_of_channel hc v
    have hc'' : (s.stored ch v).ch[id.toNat]? = some c' := by
      rw [hstored, State.updated_ch, List.getElem?_set_ne hne, hc']
    have hlane : (s.stored ch v).laneOf id c' = s.laneOf id c' := by
      rw [hstored]
      rfl
    have hinst : (dispatchReady (s.laneOf id c')).inst = id.toNat := dispatchReady_inst _
    rw [dispatch_of_channel hc'', dispatch_of_channel hc', hlane]
    split
    · have hafter : (s.commit (dispatchReady (s.laneOf id c'))).ch[ch.toNat]? = some c := by
        rw [State.commit_ch_ne (by rw [hinst]; exact hne), hc]
      rw [hstored, State.stored_of_channel hafter]
      exact State.updated_commit_comm (by rw [hinst]; exact hne) s _
    · rfl

/-- Events and bytes that stand unpublished in a TX ring leave each other alone (R64). -/
theorem dispatch_stored (hs : s.TableOk) (hc : s.ch[ch.toNat]? = some c)
    (hv : v.length ≤ c.tx.cap - c.tx.occ) (id : Byte) :
    dispatch id (s.stored ch v) = (dispatch id s).stored ch v := by
  by_cases h : ch = id
  · subst h
    exact dispatch_stored_self hs hc hv
  · exact dispatch_stored_other hc (fun he => h (BitVec.eq_of_toNat_eq he)) v

end state

end Sys2Proof.Machine

/-!
SUPPORT: where the atomic run stands while a command is between its micro-steps (R69), and that events
keep the two runs together (R67).
-/

namespace Sys2Proof.Machine

/-! ### Reads in progress -/

/-- Of the `n` bytes a read is to take, `got` are copied and `left` are still to be copied (R65). -/
structure Copied (q : RingBuffer Byte) (got : List Byte) (left n : Nat) : Prop where
  enough : n ≤ q.occ
  count : got.length + left = n
  oldest : got = q.contents.take got.length

section copied
variable {q q' : RingBuffer Byte} {got : List Byte} {left n : Nat}

theorem Copied.start (h : n ≤ q.occ) : Copied q [] n n := ⟨h, Nat.zero_add n, rfl⟩

/-- The next slot holds the next byte. -/
theorem Copied.next (h : Copied q got (left + 1) n) :
    Copied q (got ++ [q.readSlot (q.rd + got.length)]) left n := by
  obtain ⟨henough, hcount, holdest⟩ := h
  have hslot := q.contents_getElem? got.length
  rw [if_pos (by omega)] at hslot
  refine ⟨henough, by rw [List.length_append, List.length_singleton]; omega, ?_⟩
  rw [List.length_append, List.length_singleton, List.take_add_one, hslot, ← holdest]
  rfl

theorem Copied.all (h : Copied q got 0 n) : got = q.contents.take n := by
  obtain ⟨-, hcount, holdest⟩ := h
  rw [Nat.add_zero] at hcount
  rwa [hcount] at holdest

/-- Bytes that come behind what is held do not disturb a read (R65). -/
theorem Copied.mono (h : Copied q got left n) (hgrow : q.contents <+: q'.contents) :
    Copied q' got left n := by
  obtain ⟨henough, hcount, holdest⟩ := h
  have hlen := hgrow.length_le
  rw [RingBuffer.contents_length, RingBuffer.contents_length] at hlen
  obtain ⟨more, hmore⟩ := hgrow
  have hfit : got.length ≤ q.contents.length := by rw [RingBuffer.contents_length]; omega
  refine ⟨henough.trans hlen, hcount, ?_⟩
  rw [← hmore, List.take_append_of_le_length hfit]
  exact holdest

end copied

/-! ### Stages with the linearization point ahead -/

/-- What `TS_READ` has found: the switch is on and `rec` is the oldest record (R179). -/
structure HeadIs (c : Channel) (rec : TimestampRecord) : Prop where
  on : c.tsEnable = true
  head : c.ts.contents.head? = some rec

/-- The stages a command `i` on the Ready channel `ch` with record `c` goes through while its linearization
point is ahead and it has written nothing, with what its local values say of the record. -/
inductive Ahead (ch : Byte) (c : Channel) : Instr → Foreground → Prop
  | snapTxRd {i v} (hi : Sends ch v i) : Ahead ch c i (.snapTxRd ch v)
  | decideSend {i v rd} (hi : Sends ch v i) (hroom : v.length ≤ c.tx.cap - c.tx.occ)
      (hshown : tooFull v rd c = false) : Ahead ch c i (.decideSend ch v rd)
  | snapRxWr {i k} (hi : Reads ch k i) : Ahead ch c i (.snapRxWr ch k)
  | decideRead {i k wr} (hi : Reads ch k i) (henough : k.count ≤ c.rx.occ)
      (hshown : k.count ≤ occFromWr c.rx wr) : Ahead ch c i (.decideRead ch k wr)
  | read {i k got left} (hi : Reads ch k i) (hgot : Copied c.rx got left k.count) :
      Ahead ch c i (readTransfer ch k (c.rx.rd + got.length) got left)
  | snapCount : Ahead ch c (.available ch) (.snapCount ch)
  | snapPending : Ahead ch c (.tsAvailable ch) (.snapPending ch c.tsEnable)
  | snapTsWr : Ahead ch c (.tsRead ch) (.snapTsWr ch c.tsEnable)
  | readHead {wr rec} (hhead : HeadIs c rec) (hshown : wr ≠ c.ts.rd) :
      Ahead ch c (.tsRead ch) (.readHead ch true wr)
  | snapRunWr {rec} (hhead : HeadIs c rec) : Ahead ch c (.tsRead ch) (.snapRunWr ch rec)
  | decideRun {rec wr} (hhead : HeadIs c rec) (henough : rec.length.toNat ≤ c.rx.occ)
      (hshown : rec.length.toNat ≤ occFromWr c.rx wr) :
      Ahead ch c (.tsRead ch) (.decideRun ch rec wr)
  | run {rec got left} (hhead : HeadIs c rec) (hgot : Copied c.rx got left rec.length.toNat) :
      Ahead ch c (.tsRead ch) (runTransfer ch rec (c.rx.rd + got.length) got left)

section events
variable {ch : Byte} {c d : Channel}

theorem HeadIs.event {rec : TimestampRecord} (h : HeadIs c rec) (hund : c.Undisturbed d)
    (hgrow : c.Grows d) : HeadIs d rec := by
  obtain ⟨hon, hhead⟩ := h
  obtain ⟨more, hmore⟩ := hgrow.ts
  refine ⟨hund.config.tsEnable.trans hon, ?_⟩
  rw [← hmore, List.head?_append, hhead]
  rfl

/-- An event keeps what the local values say (R64, R65). -/
theorem Ahead.event {i : Instr} {fg : Foreground} (h : Ahead ch c i fg) (hund : c.Undisturbed d)
    (hgrow : c.Grows d) : Ahead ch d i fg := by
  have hrd : d.rx.rd = c.rx.rd := hund.rx
  have hts : d.ts.rd = c.ts.rd := hund.ts
  have hon := hund.config.tsEnable
  cases h with
  | snapTxRd hi => exact .snapTxRd hi
  | decideSend hi hroom hshown =>
    have htx := hgrow.tx
    exact .decideSend hi (by rw [hund.txCap]; omega) (by rw [hund.tooFull]; exact hshown)
  | snapRxWr hi => exact .snapRxWr hi
  | decideRead hi henough hshown =>
    exact .decideRead hi (henough.trans hgrow.rx_occ) (by rw [hund.occFromWr_rx]; exact hshown)
  | read hi hgot =>
    rw [← hrd]
    exact .read hi (hgot.mono hgrow.rx)
  | snapCount => exact .snapCount
  | snapPending =>
    rw [← hon]
    exact .snapPending
  | snapTsWr =>
    rw [← hon]
    exact .snapTsWr
  | readHead hhead hshown => exact .readHead (hhead.event hund hgrow) (by rw [hts]; exact hshown)
  | snapRunWr hhead => exact .snapRunWr (hhead.event hund hgrow)
  | decideRun hhead henough hshown =>
    exact .decideRun (hhead.event hund hgrow) (henough.trans hgrow.rx_occ)
      (by rw [hund.occFromWr_rx]; exact hshown)
  | run hhead hgot =>
    rw [← hrd]
    exact .run (hhead.event hund hgrow) (hgot.mono hgrow.rx)

end events

/-! ### The two runs side by side -/

/-- A micro-step run with the command `words` at stage `fg` in state `s`, and an atomic run in state `a`
that has still to run the commands `owed`: the command in progress, or none. -/
inductive Sim (words : List Word) : Foreground → State → State → List (List Word) → Prop
  /-- The command has responded. -/
  | responded {s} : Sim words .done s s []
  /-- The command stands at its check. -/
  | begun {s} : Sim words (.check words) s s [words]
  /-- The linearization point was the snapshot: the atomic command has answered already. -/
  | settled {fg s ch r} (hset : fg.settled s = some (ch, r)) : Sim words fg s (s.respond ch r) []
  /-- The linearization point is ahead and nothing is written. -/
  | ahead {fg s i ch c} (hdec : decodeCommand s.ch.length words = .ok i)
      (hc : s.ch[ch.toNat]? = some c) (hready : c.status = .ready) (h : Ahead ch c i fg) :
      Sim words fg s s [words]
  /-- A send has written the bytes `v` of its bytes `v ++ todo`: the slots are all that differs. -/
  | writing {a i ch c v todo} (hdec : decodeCommand a.ch.length words = .ok i)
      (hi : Sends ch (v ++ todo) i) (hc : a.ch[ch.toNat]? = some c) (hready : c.status = .ready)
      (hroom : (v ++ todo).length ≤ c.tx.cap - c.tx.occ) :
      Sim words (sendTransfer ch (v ++ todo).length (c.tx.wr + v.length) todo) (a.stored ch v) a [words]
  /-- `STATUS` has read the `INIT`-written fields. -/
  | flags {s ch c} (hdec : decodeCommand s.ch.length words = .ok (.status ch))
      (hc : s.ch[ch.toNat]? = some c) : Sim words (.readFlags ch c.checked) s s [words]
  /-- `TS_AVAILABLE_ALL` has passed its check. -/
  | all {s} (hdec : decodeCommand s.ch.length words = .ok .tsAvailableAll) :
      Sim words .readAll s s [words]

section sim
variable {words : List Word} {fg : Foreground} {s a : State} {owed : List (List Word)}

/-- Once the command has responded the two runs are in one state. -/
theorem Sim.of_done (h : Sim words .done s a owed) : a = s ∧ owed = [] := by
  generalize hfg : Foreground.done = fg at h
  cases h with
  | responded => exact ⟨rfl, rfl⟩
  | settled hset =>
    subst hfg
    cases hset
  | ahead _ _ _ h =>
    cases h with
    | read => exact absurd hfg.symm readTransfer_ne_done
    | run => exact absurd hfg.symm runTransfer_ne_done
    | _ => cases hfg
  | writing => exact absurd hfg.symm sendTransfer_ne_done
  | _ => cases hfg

/-- A whole event keeps the two runs together (R67). -/
theorem Sim.event (h : Sim words fg s a owed) (ha : a.TableOk) (id : Byte) :
    Sim words fg (dispatch id s) (dispatch id a) owed := by
  cases h with
  | responded => exact .responded
  | begun => exact .begun
  | settled hset =>
    rw [dispatch_respond]
    exact .settled ((settled_dispatch id s fg).trans hset)
  | ahead hdec hc hready h =>
    obtain ⟨d, hd, hund⟩ := dispatch_undisturbed hc id
    exact .ahead (by rw [dispatch_length]; exact hdec) hd (hund.config.status.trans hready)
      (h.event hund (dispatch_grows ha hc id hd))
  | writing hdec hi hc hready hroom =>
    obtain ⟨d, hd, hund⟩ := dispatch_undisturbed hc id
    have hgrow := (dispatch_grows ha hc id hd).tx
    have hstored := hroom
    rw [List.length_append] at hstored
    rw [dispatch_stored ha hc (by omega), ← hund.txWr]
    exact .writing (by rw [dispatch_length]; exact hdec) hi hd (hund.config.status.trans hready)
      (by rw [hund.txCap]; omega)
  | flags hdec hc =>
    obtain ⟨d, hd, hund⟩ := dispatch_undisturbed hc id
    rw [← hund.checked_eq]
    exact .flags (by rw [dispatch_length]; exact hdec) hd
  | all hdec => exact .all (by rw [dispatch_length]; exact hdec)

end sim

end Sys2Proof.Machine

/-!
SUPPORT and statement settled: every micro-step keeps the two runs together, with the atomic command at its
linearization point, and so every micro-step run is an atomic run (R69).
-/

namespace Sys2Proof.Machine

/-! ### Linearization points -/

/-- A decision and a transfer are no command's linearization point (R69). -/
theorem decide_ne_commandPoint (i : Instr) (e : Code) :
    some MicroStep.decide ≠ some (commandPoint i e) := by
  cases i <;> simp only [commandPoint] <;> split_ifs <;> exact nofun

theorem transfer_ne_commandPoint (i : Instr) (e : Code) :
    some MicroStep.transfer ≠ some (commandPoint i e) := by
  cases i <;> simp only [commandPoint] <;> split_ifs <;> exact nofun

theorem commandPoint_sends {ch : Byte} {v : List Byte} {i : Instr} (hi : Sends ch v i) :
    commandPoint i .ok = .commit ∧ commandPoint i .bufferFull = .snapshotTxRd := by
  cases hi <;> exact ⟨rfl, rfl⟩

theorem commandPoint_reads {ch : Byte} {k : ReadKind} {i : Instr} (hi : Reads ch k i) :
    commandPoint i .ok = .commit ∧ commandPoint i k.shortage = .snapshotRxWr := by
  cases hi <;> exact ⟨rfl, rfl⟩

section decoded
variable {n : Nat} {words : List Word} {i : Instr}

theorem linearizationPoint_of_decode (h : decodeCommand n words = .ok i) (e : Code) :
    linearizationPoint n words e = commandPoint i e := by
  rw [linearizationPoint, h]

theorem transition_of_decode {a t : State} (h : decodeCommand a.ch.length words = .ok i)
    (he : exec i a = .next t) : transition a (.command words) = t := by
  obtain ⟨-, hrun⟩ := checkWords_legal h
  rw [transition_command, hrun, he, nextOr_next]

theorem decide_ne_linearizationPoint (n : Nat) (words : List Word) (e : Code) :
    some MicroStep.decide ≠ some (linearizationPoint n words e) := by
  unfold linearizationPoint
  split
  · exact decide_ne_commandPoint _ _
  · exact nofun

theorem transfer_ne_linearizationPoint (n : Nat) (words : List Word) (e : Code) :
    some MicroStep.transfer ≠ some (linearizationPoint n words e) := by
  unfold linearizationPoint
  split
  · exact transfer_ne_commandPoint _ _
  · exact nofun

end decoded

/-! ### One micro-step -/

/-- What the micro-step at stage `fg` is to the atomic run, for a command that ends with `e`: its
linearization point, where the atomic run has the whole command, or no transition. -/
inductive Stepped (words : List Word) (e : Code) (fg : Foreground) (s a : State) :
    List (List Word) → Prop
  | point (hpoint : fg.next s.ch.length = some (linearizationPoint s.ch.length words e))
      (h : Sim words (foregroundStep fg s).1 (foregroundStep fg s).2
        (transition a (.command words)) []) : Stepped words e fg s a [words]
  | other {owed} (hother : fg.next s.ch.length ≠ some (linearizationPoint s.ch.length words e))
      (h : Sim words (foregroundStep fg s).1 (foregroundStep fg s).2 a owed) :
      Stepped words e fg s a owed

section step
variable {words : List Word} {e : Code} {fg fg' : Foreground} {s a t : State} {i : Instr} {ch : Byte}
  {c : Channel} {r : Reply}

/-- A snapshot that settles the answer is the linearization point. -/
theorem Stepped.settles (hdec : decodeCommand s.ch.length words = .ok i)
    (hstep : foregroundStep fg s = (fg', s)) (hset : fg'.settled s = some (ch, r))
    (hexec : exec i s = .next (s.respond ch r))
    (hpoint : fg.next s.ch.length = some (commandPoint i r.code)) (he : fg'.CanEnd s e) :
    Stepped words e fg s s [words] := by
  obtain rfl := (canEnd_of_settled hset).mp he
  refine .point (by rw [linearizationPoint_of_decode hdec]; exact hpoint) ?_
  rw [hstep, transition_of_decode hdec hexec]
  exact .settled hset

/-- A micro-step that reads, with the linearization point still ahead. -/
theorem Stepped.goesOn (hdec : decodeCommand s.ch.length words = .ok i)
    (hc : s.ch[ch.toNat]? = some c) (hready : c.status = .ready)
    (hstep : foregroundStep fg s = (fg', s)) (h : Ahead ch c i fg')
    (hother : fg.next s.ch.length ≠ some (commandPoint i e)) : Stepped words e fg s s [words] := by
  refine .other (by rw [linearizationPoint_of_decode hdec]; exact hother) ?_
  rw [hstep]
  exact .ahead hdec hc hready h

/-- A micro-step that ends the command and is its linearization point. -/
theorem Stepped.commits (hlen : s.ch.length = a.ch.length)
    (hdec : decodeCommand a.ch.length words = .ok i) (hstep : foregroundStep fg s = (.done, t))
    (hexec : exec i a = .next t) (hpoint : fg.next s.ch.length = some (commandPoint i e)) :
    Stepped words e fg s a [words] := by
  refine .point (by rw [hlen] at hpoint ⊢; rw [linearizationPoint_of_decode hdec]; exact hpoint) ?_
  rw [hstep, transition_of_decode hdec hexec]
  exact .responded

end step

/-! ### The stages with the linearization point ahead -/

section ahead
variable {words : List Word} {e : Code} {s : State} {i : Instr} {ch : Byte} {c : Channel}
  (hdec : decodeCommand s.ch.length words = .ok i) (hc : s.ch[ch.toNat]? = some c)
  (hready : c.status = .ready)
include hdec hc hready

/-- The head record is copied before the bytes are counted (R179). -/
theorem stepped_readHead {wr : Nat} {rec : TimestampRecord} (hhead : HeadIs c rec)
    (hshown : wr ≠ c.ts.rd) (hi : i = .tsRead ch) :
    Stepped words e (.readHead ch true wr) s s [words] := by
  subst hi
  have hrec : c.ts.readSlot c.ts.rd = rec := by
    have hfirst := c.ts.contents_head?
    rw [hhead.head] at hfirst
    split at hfirst
    · cases hfirst
    · exact (Option.some.inj hfirst).symm
  have hstep : foregroundStep (.readHead ch true wr) s = (.snapRunWr ch rec, s) := by
    simp [foregroundStep, State.ofLane_of_channel hc, hshown, hrec]
  exact .goesOn hdec hc hready hstep (.snapRunWr hhead) (transfer_ne_commandPoint _ _)

/-- A send with room goes over to its transfer with nothing written yet. -/
theorem stepped_decideSend {v : List Byte} {rd : Nat} (hi : Sends ch v i)
    (hroom : v.length ≤ c.tx.cap - c.tx.occ) (hshown : tooFull v rd c = false) :
    Stepped words e (.decideSend ch v rd) s s [words] := by
  have hstep : foregroundStep (.decideSend ch v rd) s =
      (sendTransfer ch v.length (c.tx.wr + 0) v, s.stored ch []) := by
    simp [foregroundStep, State.ofLane_of_channel hc, hshown, State.stored_nil hc]
  refine .other (decide_ne_linearizationPoint _ _ _) ?_
  rw [hstep]
  exact .writing (v := []) hdec hi hc hready hroom

theorem stepped_decideRead {k : ReadKind} {wr : Nat} (hi : Reads ch k i)
    (henough : k.count ≤ c.rx.occ) (hshown : k.count ≤ occFromWr c.rx wr) :
    Stepped words e (.decideRead ch k wr) s s [words] := by
  have hstep : foregroundStep (.decideRead ch k wr) s =
      (readTransfer ch k (c.rx.rd + 0) [] k.count, s) := by
    simp [foregroundStep, State.ofLane_of_channel hc, hshown]
  exact .goesOn hdec hc hready hstep (.read hi (Copied.start henough)) (decide_ne_commandPoint _ _)

theorem stepped_decideRun {rec : TimestampRecord} {wr : Nat} (hhead : HeadIs c rec)
    (henough : rec.length.toNat ≤ c.rx.occ) (hshown : rec.length.toNat ≤ occFromWr c.rx wr)
    (hi : i = .tsRead ch) : Stepped words e (.decideRun ch rec wr) s s [words] := by
  subst hi
  have hstep : foregroundStep (.decideRun ch rec wr) s =
      (runTransfer ch rec (c.rx.rd + 0) [] rec.length.toNat, s) := by
    simp [foregroundStep, State.ofLane_of_channel hc, hshown]
  exact .goesOn hdec hc hready hstep (.run hhead (Copied.start henough)) (decide_ne_commandPoint _ _)

theorem stepped_snapCount (hi : i = .available ch)
    (he : (foregroundStep (.snapCount ch) s).1.CanEnd (foregroundStep (.snapCount ch) s).2 e) :
    Stepped words e (.snapCount ch) s s [words] := by
  subst hi
  have hstep : foregroundStep (.snapCount ch) s = (.answerCount ch c.rx.wr, s) := by
    rw [foregroundStep, State.ofLane_of_channel hc]
  have hset : (Foreground.answerCount ch c.rx.wr).settled s =
      some (ch, .done (BitVec.ofNat 16 c.rx.occ) []) := by
    rw [Foreground.settled, State.ofLane_of_channel hc]
    rfl
  rw [hstep] at he
  exact .settles hdec hstep hset (exec_available_ready hc hready) rfl he

theorem stepped_snapPending (hi : i = .tsAvailable ch)
    (he : (foregroundStep (.snapPending ch c.tsEnable) s).1.CanEnd
      (foregroundStep (.snapPending ch c.tsEnable) s).2 e) :
    Stepped words e (.snapPending ch c.tsEnable) s s [words] := by
  subst hi
  have hstep : foregroundStep (.snapPending ch c.tsEnable) s =
      (.answerPending ch c.tsEnable c.ts.wr, s) := by
    rw [foregroundStep, State.ofLane_of_channel hc]
  have hset : (Foreground.answerPending ch c.tsEnable c.ts.wr).settled s =
      some (ch, .done (boolValue (recordPending c)) []) := by
    rw [Foreground.settled, State.ofLane_of_channel hc]
    rfl
  rw [hstep] at he
  exact .settles hdec hstep hset (exec_tsAvailable_ready hc hready) rfl he

variable (hok : c.RingsOk)
include hok

theorem stepped_snapTxRd {v : List Byte} (hi : Sends ch v i)
    (he : (foregroundStep (.snapTxRd ch v) s).1.CanEnd (foregroundStep (.snapTxRd ch v) s).2 e) :
    Stepped words e (.snapTxRd ch v) s s [words] := by
  have hstep : foregroundStep (.snapTxRd ch v) s = (.decideSend ch v c.tx.rd, s) := by
    rw [foregroundStep, State.ofLane_of_channel hc]
  have hset : (Foreground.decideSend ch v c.tx.rd).settled s =
      if tooFull v c.tx.rd c then some (ch, .raise .bufferFull) else none := by
    rw [Foreground.settled, State.ofLane_of_channel hc]
  obtain ⟨hcommit, hsnap⟩ := commandPoint_sends hi
  rw [hstep] at he
  rcases Nat.lt_or_ge (c.tx.cap - c.tx.occ) v.length with hfull | hroom
  · have hshown : tooFull v c.tx.rd c = true := decide_eq_true hfull
    rw [hshown] at hset
    exact .settles hdec hstep hset (exec_sends_full hi hc hready hok.tx hfull)
      (congrArg some hsnap.symm) he
  · have hshown : tooFull v c.tx.rd c = false := decide_eq_false (Nat.not_lt.mpr hroom)
    rw [hshown] at hset
    obtain rfl : e = .ok := (canEnd_of_open hset).mp he
    exact .goesOn hdec hc hready hstep (.decideSend hi hroom hshown) (by rw [hcommit]; exact nofun)

theorem stepped_snapRxWr {k : ReadKind} (hi : Reads ch k i)
    (he : (foregroundStep (.snapRxWr ch k) s).1.CanEnd (foregroundStep (.snapRxWr ch k) s).2 e) :
    Stepped words e (.snapRxWr ch k) s s [words] := by
  have hstep : foregroundStep (.snapRxWr ch k) s = (.decideRead ch k c.rx.wr, s) := by
    rw [foregroundStep, State.ofLane_of_channel hc]
  have hset : (Foreground.decideRead ch k c.rx.wr).settled s =
      if c.rx.occ < k.count then some (ch, .raise k.shortage) else none := by
    simp only [Foreground.settled, State.ofLane_of_channel hc, decide_eq_true_eq]
    rfl
  obtain ⟨hcommit, hsnap⟩ := commandPoint_reads hi
  rw [hstep] at he
  rcases Nat.lt_or_ge c.rx.occ k.count with hshort | henough
  · rw [if_pos hshort] at hset
    exact .settles hdec hstep hset (exec_reads_short hi hc hready hok.rx hshort)
      (congrArg some hsnap.symm) he
  · rw [if_neg (Nat.not_lt.mpr henough)] at hset
    obtain rfl : e = .ok := (canEnd_of_open hset).mp he
    exact .goesOn hdec hc hready hstep (.decideRead hi henough henough)
      (by rw [hcommit]; exact nofun)

theorem stepped_snapTsWr {on : Bool} (hon : on = c.tsEnable) (hi : i = .tsRead ch)
    (he : (foregroundStep (.snapTsWr ch on) s).1.CanEnd (foregroundStep (.snapTsWr ch on) s).2 e) :
    Stepped words e (.snapTsWr ch on) s s [words] := by
  subst hi
  have hstep : foregroundStep (.snapTsWr ch on) s = (.readHead ch on c.ts.wr, s) := by
    rw [foregroundStep, State.ofLane_of_channel hc]
  have hset : (Foreground.readHead ch on c.ts.wr).settled s =
      if !c.tsEnable || c.ts.empty then some (ch, .raise .timestampUnavailable) else none := by
    rw [Foreground.settled, State.ofLane_of_channel hc, hon]
    rfl
  rw [hstep] at he
  by_cases hnone : c.tsEnable = false ∨ c.ts.contents = []
  · have hunavailable : (!c.tsEnable || c.ts.empty) = true := by
      rw [← hok.ts.empty_iff_contents] at hnone
      simpa using hnone
    rw [if_pos hunavailable] at hset
    exact .settles hdec hstep hset (exec_tsRead_none hc hready hok.ts hnone) rfl he
  · obtain ⟨hoff, hne⟩ := not_or.mp hnone
    have htrue : c.tsEnable = true := by simpa using hoff
    have hempty : c.ts.empty = false := by
      rwa [← hok.ts.empty_iff_contents, Bool.not_eq_true] at hne
    obtain ⟨rec, later, hcont⟩ := List.exists_cons_of_ne_nil hne
    have hhead : HeadIs c rec := ⟨htrue, by rw [hcont]; rfl⟩
    rw [if_neg (by rw [htrue, hempty]; exact nofun)] at hset
    obtain rfl | rfl : e = .ok ∨ e = .underflow := (canEnd_of_open hset).mp he
    all_goals
      rw [htrue] at hon
      subst hon
      exact .goesOn hdec hc hready hstep (.readHead hhead (of_decide_eq_false hempty)) nofun

theorem stepped_snapRunWr {rec : TimestampRecord} (hhead : HeadIs c rec) (hi : i = .tsRead ch)
    (he : (foregroundStep (.snapRunWr ch rec) s).1.CanEnd (foregroundStep (.snapRunWr ch rec) s).2 e) :
    Stepped words e (.snapRunWr ch rec) s s [words] := by
  subst hi
  have hstep : foregroundStep (.snapRunWr ch rec) s = (.decideRun ch rec c.rx.wr, s) := by
    rw [foregroundStep, State.ofLane_of_channel hc]
  have hset : (Foreground.decideRun ch rec c.rx.wr).settled s =
      if c.rx.occ < rec.length.toNat then some (ch, .raise .underflow) else none := by
    simp only [Foreground.settled, State.ofLane_of_channel hc, decide_eq_true_eq]
    rfl
  rw [hstep] at he
  rcases Nat.lt_or_ge c.rx.occ rec.length.toNat with hshort | henough
  · rw [if_pos hshort] at hset
    exact .settles hdec hstep hset
      (exec_tsRead_short hc hready hok.ts hhead.on hhead.head hshort) rfl he
  · rw [if_neg (Nat.not_lt.mpr henough)] at hset
    obtain rfl : e = .ok := (canEnd_of_open hset).mp he
    exact .goesOn hdec hc hready hstep (.decideRun hhead henough henough) nofun

/-- A slot of a read, or its commit. -/
theorem stepped_read {k : ReadKind} {got : List Byte} {left : Nat} (hi : Reads ch k i)
    (hgot : Copied c.rx got left k.count)
    (he : (readTransfer ch k (c.rx.rd + got.length) got left).CanEnd s e) :
    Stepped words e (readTransfer ch k (c.rx.rd + got.length) got left) s s [words] := by
  cases left with
  | zero =>
    obtain rfl := canEnd_readTransfer.mp he
    have hexec := exec_reads_enough hi hc hready hok.rx hgot.enough
    rw [← hgot.all] at hexec
    exact .commits rfl hdec rfl hexec (congrArg some (commandPoint_reads hi).1.symm)
  | succ left =>
    have hstep : foregroundStep (readTransfer ch k (c.rx.rd + got.length) got (left + 1)) s =
        (readTransfer ch k (c.rx.rd + (got ++ [c.rx.readSlot (c.rx.rd + got.length)]).length)
          (got ++ [c.rx.readSlot (c.rx.rd + got.length)]) left, s) := by
      rw [readTransfer, foregroundStep, State.ofLane_of_channel hc, List.length_append]
      rfl
    exact .goesOn hdec hc hready hstep (.read hi hgot.next) (transfer_ne_commandPoint _ _)

/-- A slot of `TS_READ`, or its commit. -/
theorem stepped_run {rec : TimestampRecord} {got : List Byte} {left : Nat} (hhead : HeadIs c rec)
    (hgot : Copied c.rx got left rec.length.toNat) (hi : i = .tsRead ch)
    (he : (runTransfer ch rec (c.rx.rd + got.length) got left).CanEnd s e) :
    Stepped words e (runTransfer ch rec (c.rx.rd + got.length) got left) s s [words] := by
  subst hi
  cases left with
  | zero =>
    obtain rfl := canEnd_runTransfer.mp he
    have hexec := exec_tsRead_enough hc hready hok.ts hhead.on hhead.head hgot.enough
    rw [← hgot.all] at hexec
    exact .commits rfl hdec rfl hexec rfl
  | succ left =>
    have hstep : foregroundStep (runTransfer ch rec (c.rx.rd + got.length) got (left + 1)) s =
        (runTransfer ch rec (c.rx.rd + (got ++ [c.rx.readSlot (c.rx.rd + got.length)]).length)
          (got ++ [c.rx.readSlot (c.rx.rd + got.length)]) left, s) := by
      rw [runTransfer, foregroundStep, State.ofLane_of_channel hc, List.length_append]
      rfl
    exact .goesOn hdec hc hready hstep (.run hhead hgot.next) (transfer_ne_commandPoint _ _)

/-- Every micro-step from a stage with the linearization point ahead. -/
theorem Ahead.step {fg : Foreground} (h : Ahead ch c i fg) (hne : fg ≠ .done)
    (he : (foregroundStep fg s).1.CanEnd (foregroundStep fg s).2 e) :
    Stepped words e fg s s [words] := by
  have hbefore := canEnd_of_step hne he
  cases h with
  | snapTxRd hi => exact stepped_snapTxRd hdec hc hready hok hi he
  | decideSend hi hroom hshown => exact stepped_decideSend hdec hc hready hi hroom hshown
  | snapRxWr hi => exact stepped_snapRxWr hdec hc hready hok hi he
  | decideRead hi henough hshown => exact stepped_decideRead hdec hc hready hi henough hshown
  | read hi hgot => exact stepped_read hdec hc hready hok hi hgot hbefore
  | snapCount => exact stepped_snapCount hdec hc hready rfl he
  | snapPending => exact stepped_snapPending hdec hc hready rfl he
  | snapTsWr => exact stepped_snapTsWr hdec hc hready hok rfl rfl he
  | readHead hhead hshown => exact stepped_readHead hdec hc hready hhead hshown rfl
  | snapRunWr hhead => exact stepped_snapRunWr hdec hc hready hok hhead rfl he
  | decideRun hhead henough hshown =>
    exact stepped_decideRun hdec hc hready hhead henough hshown rfl
  | run hhead hgot => exact stepped_run hdec hc hready hok hhead hgot rfl hbefore

end ahead

/-! ### A send that writes -/

section writing
variable {words : List Word} {e : Code} {a : State} {i : Instr} {ch : Byte} {c : Channel}
  {v todo : List Byte}

/-- An operation on a channel whose TX ring has unpublished bytes. -/
theorem State.onLane_stored (hc : a.ch[ch.toNat]? = some c) (v : List Byte) {f : Lane → Lane}
    (hinst : ∀ l, (f l).inst = l.inst) :
    (a.stored ch v).onLane ch f = a.onLane ch fun l => f (l.stored v) := by
  have hlane : (a.stored ch v).laneOf ch (c.stored v) = (a.laneOf ch c).stored v := by
    rw [State.stored_of_channel hc]
    rfl
  have hch : (f ((a.laneOf ch c).stored v)).inst = ch.toNat := hinst _
  rw [State.onLane_of_channel (State.stored_channel hc v), State.onLane_of_channel hc]
  change (a.stored ch v).commit (f ((a.stored ch v).laneOf ch (c.stored v))) = _
  have hcommit := State.updated_commit a (c.stored v) (f ((a.laneOf ch c).stored v))
  rw [hch] at hcommit
  rw [hlane, State.stored_of_channel hc, hcommit]

theorem publishSend_inst (n : Nat) (l : Lane) : (publishSend n l).inst = l.inst := by
  unfold publishSend
  dsimp only
  split
  · exact armTx_inst _
  · rfl

/-- The slot after the bytes written so far takes the next byte (R64). -/
theorem State.onLane_storeTx (hc : a.ch[ch.toNat]? = some c) (v : List Byte) (b : Byte) :
    (a.stored ch v).onLane ch (storeTx (c.tx.wr + v.length) b) = a.stored ch (v ++ [b]) := by
  rw [State.onLane_stored hc v (f := storeTx _ b) fun _ => rfl, State.stored, State.onLane_of_channel hc,
    State.onLane_of_channel hc, Lane.stored, Lane.stored, Channel.stored_append]
  rfl

/-- A slot of a send, or its commit. -/
theorem stepped_writing (hdec : decodeCommand a.ch.length words = .ok i)
    (hi : Sends ch (v ++ todo) i) (hc : a.ch[ch.toNat]? = some c) (hready : c.status = .ready)
    (hok : c.RingsOk) (hroom : (v ++ todo).length ≤ c.tx.cap - c.tx.occ)
    (he : (sendTransfer ch (v ++ todo).length (c.tx.wr + v.length) todo).CanEnd (a.stored ch v) e) :
    Stepped words e (sendTransfer ch (v ++ todo).length (c.tx.wr + v.length) todo) (a.stored ch v) a
      [words] := by
  cases todo with
  | nil =>
    obtain rfl := canEnd_sendTransfer.mp he
    have hexec := exec_sends_room hi hc hready hok.tx hroom
    rw [List.append_nil] at hexec
    have hstep : foregroundStep (sendTransfer ch (v ++ []).length (c.tx.wr + v.length) [])
        (a.stored ch v) = (.done, (a.onLane ch (sendAll v)).respond ch (.done 0 [])) := by
      rw [sendTransfer, foregroundStep, List.append_nil,
        State.onLane_stored hc v (publishSend_inst _)]
      rfl
    exact .commits State.stored_length hdec hstep hexec
      (congrArg some (commandPoint_sends hi).1.symm)
  | cons b todo =>
    have hsplit : v ++ b :: todo = (v ++ [b]) ++ todo := by rw [List.append_assoc]; rfl
    have hstep : foregroundStep (sendTransfer ch (v ++ b :: todo).length (c.tx.wr + v.length)
        (b :: todo)) (a.stored ch v) =
        (sendTransfer ch ((v ++ [b]) ++ todo).length (c.tx.wr + (v ++ [b]).length) todo,
          a.stored ch (v ++ [b])) := by
      rw [sendTransfer, foregroundStep, State.onLane_storeTx hc, hsplit, List.length_append (as := v)]
      rfl
    refine .other (transfer_ne_linearizationPoint _ _ _) ?_
    rw [hstep]
    rw [hsplit] at hi hroom
    exact .writing hdec hi hc hready hroom

end writing

/-! ### The check -/

theorem onChannel_lt {n : Nat} {ch ch' : Byte} {i j : Instr} (hi : i.channel = some ch)
    (h : onChannel n ch i = .ok j) (hj : j.channel = some ch') : ch'.toNat < n := by
  unfold onChannel at h
  split at h
  · next hok =>
    obtain rfl := Except.ok.inj h
    obtain rfl := Option.some.inj (hi.symm.trans hj)
    exact of_decide_eq_true hok
  · cases h

theorem noArg_lt {n : Nat} {ch ch' : Byte} {arg : Half} {i j : Instr} (hi : i.channel = some ch)
    (h : noArg n ch arg i = .ok j) (hj : j.channel = some ch') : ch'.toNat < n := by
  unfold noArg at h
  split at h
  · exact onChannel_lt hi h hj
  · cases h

/-- A legal command's channel is in the table (R95 c). -/
theorem channel_lt_of_decode {n : Nat} {words : List Word} {i : Instr} {ch : Byte}
    (h : decodeCommand n words = .ok i) (hi : i.channel = some ch) : ch.toNat < n := by
  unfold decodeCommand at h
  split at h
  · cases h
  · split at h
    · cases h
    · split at h
      · cases h
      · unfold decodeFields at h
        split at h
        · unfold decodeInit at h
          split at h
          · exact onChannel_lt rfl h hi
          · cases h
        · unfold decodeSendByte at h
          split at h
          · exact onChannel_lt rfl h hi
          · cases h
        · exact onChannel_lt rfl h hi
        · exact noArg_lt rfl h hi
        · exact noArg_lt rfl h hi
        · exact onChannel_lt rfl h hi
        · exact noArg_lt rfl h hi
        · unfold decodeTsAvailableAll at h
          split at h
          · cases h
            cases hi
          · cases h
        · exact noArg_lt rfl h hi
        · exact noArg_lt rfl h hi
        · cases h

/-- The channel of a legal command has its record. -/
theorem exists_channel_of_decode {s : State} {words : List Word} {i : Instr} {ch : Byte}
    (h : decodeCommand s.ch.length words = .ok i) (hi : i.channel = some ch) :
    ∃ c, s.ch[ch.toNat]? = some c :=
  ⟨_, List.getElem?_eq_getElem (channel_lt_of_decode h hi)⟩

/-- Once its check is passed a command is neither illegal nor not ready (R63). -/
theorem commandPoint_ne_check {i : Instr} {e : Code} (hi : i.isCommand = true)
    (hlegal : e ≠ .illegalCommand) (hready : e ≠ .notReady) : commandPoint i e ≠ .check := by
  rw [commandPoint.eq_def, if_neg (not_or.mpr ⟨hlegal, hready⟩)]
  cases i with
  | sendByte | sendBytes | readByte | readBytes =>
    dsimp only
    split <;> exact nofun
  | tsRead =>
    dsimp only
    split
    · exact nofun
    · split <;> exact nofun
  | init | available | tsAvailable | tsAvailableAll | status => exact nofun
  | _ => cases hi

/-- The check of an illegal command answers it (R95). -/
theorem stepped_check_illegal {words : List Word} {e : Code} {s : State} {err : DecodeError}
    (hdec : decodeCommand s.ch.length words = .error err) :
    Stepped words e (.check words) s s [words] := by
  obtain ⟨hcheck, hrun⟩ := checkWords_illegal hdec
  refine .point ?_ ?_
  · rw [Foreground.next, isLegalInit, linearizationPoint, hdec]
    rfl
  · rw [foregroundStep, hcheck, transition_command, hrun]
    exact .responded

/-- The check of a legal command that is no `INIT` is no `INIT`'s whole. -/
theorem next_check {n : Nat} {words : List Word} {i : Instr}
    (hdec : decodeCommand n words = .ok i) (hi : ∀ ch o, i ≠ .init ch o) :
    (Foreground.check words).next n = some .check := by
  rw [Foreground.next, isLegalInit, hdec]
  cases i with
  | init ch o => exact absurd rfl (hi ch o)
  | _ => rfl

section check
variable {words : List Word} {e : Code} {s : State}

/-- The check of a legal data command (R132, R170). -/
theorem stepped_check_data {i : Instr} {ch : Byte} {go : Checked → Foreground}
    {body : Lane → Lane × Reply} (hdec : decodeCommand s.ch.length words = .ok i)
    (hch : i.channel = some ch) (hcheck : checkInstr i s = checkReady ch go s)
    (hexec : exec i s = .next (s.command ch (whenReady body)))
    (hinit : ∀ ch o, i ≠ .init ch o) (hahead : ∀ c, Ahead ch c i (go c.checked))
    (hcodes : ∀ k, (go k).CanEnd s e → e ≠ .illegalCommand ∧ e ≠ .notReady)
    (he : (checkWords words s).1.CanEnd (checkWords words s).2 e) :
    Stepped words e (.check words) s s [words] := by
  obtain ⟨c, hc⟩ := exists_channel_of_decode hdec hch
  have hnext := next_check hdec hinit
  rw [checkWords_of_decode hdec, hcheck] at he
  by_cases hready : c.status = .ready
  · have hgo := checkReady_of_ready hc hready go
    rw [hgo] at he
    obtain ⟨hlegal, hnot⟩ := hcodes _ he
    refine .goesOn hdec hc hready ?_ (hahead c) ?_
    · rw [foregroundStep, checkWords_of_decode hdec, hcheck, hgo]
    · rw [hnext]
      exact fun h => commandPoint_ne_check (isCommand_of_decode hdec) hlegal hnot
        (Option.some.inj h).symm
  · have hstop := checkReady_of_not hc hready go
    rw [hstop] at he
    obtain rfl := canEnd_respond.mp he
    rw [State.command_whenReady_of_not hc hready] at hexec
    refine .commits rfl hdec ?_ hexec hnext
    rw [foregroundStep, checkWords_of_decode hdec, hcheck, hstop]

/-- `INIT` answers OK or InitError (R134). -/
theorem initBody_code (o : InitOptions) (f : Word) (l : Lane) :
    (initBody o f l).2.code = .ok ∨ (initBody o f l).2.code = .initError := by
  rcases initBody_cases o f l with he | he <;> rw [he]
  · exact .inr rfl
  · cases (l.configure o f).1 with
    | ok => exact .inl rfl
    | rejected => exact .inr rfl
    | failed => exact .inr rfl

/-- A legal `INIT` is done whole in its check (R134, R68 c). -/
theorem stepped_check_init {ch : Byte} {o : InitOptions}
    (hdec : decodeCommand s.ch.length words = .ok (.init ch o))
    (he : (checkWords words s).1.CanEnd (checkWords words s).2 e) :
    Stepped words e (.check words) s s [words] := by
  obtain ⟨c, hc⟩ := exists_channel_of_decode hdec rfl
  have hexec : exec (.init ch o) s = .next (s.command ch (initBody o s.fClk)) := rfl
  have hcheck : checkWords words s = (.done, s.command ch (initBody o s.fClk)) :=
    checkWords_of_decode hdec
  rw [hcheck, State.command_of_channel hc, canEnd_respond] at he
  have hindivisible : commandPoint (.init ch o) e = .indivisible := by
    rcases initBody_code o s.fClk (s.laneOf ch c) with hcode | hcode <;> rw [hcode] at he <;>
      subst he <;> rfl
  refine .commits rfl hdec hcheck hexec ?_
  rw [hindivisible, Foreground.next, isLegalInit, hdec]
  rfl

/-- The check of a legal `STATUS` reads the `INIT`-written fields (R68 d). -/
theorem stepped_check_status {ch : Byte}
    (hdec : decodeCommand s.ch.length words = .ok (.status ch))
    (he : (checkWords words s).1.CanEnd (checkWords words s).2 e) :
    Stepped words e (.check words) s s [words] := by
  obtain ⟨c, hc⟩ := exists_channel_of_decode hdec rfl
  have hcheck : checkWords words s = (.readFlags ch c.checked, s) := by
    rw [checkWords_of_decode hdec, checkInstr, checkChannel, State.lane_of_channel hc]
  rw [hcheck] at he
  have hok : e = .ok := he.trans (State.ofLane_of_channel hc _ _)
  subst hok
  refine .other ?_ ?_
  · rw [next_check hdec nofun, linearizationPoint_of_decode hdec]
    exact nofun
  · rw [foregroundStep, hcheck]
    exact .flags hdec hc

theorem stepped_check_all (hdec : decodeCommand s.ch.length words = .ok .tsAvailableAll)
    (he : (checkWords words s).1.CanEnd (checkWords words s).2 e) :
    Stepped words e (.check words) s s [words] := by
  have hcheck : checkWords words s = (.readAll, s) := checkWords_of_decode hdec
  rw [hcheck] at he
  obtain rfl : e = .ok := he
  refine .other ?_ ?_
  · rw [next_check hdec nofun, linearizationPoint_of_decode hdec]
    exact nofun
  · rw [foregroundStep, hcheck]
    exact .all hdec

/-- Every check. -/
theorem stepped_check (he : (checkWords words s).1.CanEnd (checkWords words s).2 e) :
    Stepped words e (.check words) s s [words] := by
  have hok : e = .ok → e ≠ .illegalCommand ∧ e ≠ .notReady := by
    rintro rfl
    exact ⟨nofun, nofun⟩
  have hsend : ∀ {ch v}, (Foreground.snapTxRd ch v).CanEnd s e →
      e ≠ .illegalCommand ∧ e ≠ .notReady := by
    rintro ch v (rfl | rfl) <;> exact ⟨nofun, nofun⟩
  have hread : ∀ {ch k}, (Foreground.snapRxWr ch k).CanEnd s e →
      e ≠ .illegalCommand ∧ e ≠ .notReady := by
    rintro ch (_ | n) (rfl | rfl) <;> exact ⟨nofun, nofun⟩
  have hrun : ∀ {ch on}, (Foreground.snapTsWr ch on).CanEnd s e →
      e ≠ .illegalCommand ∧ e ≠ .notReady := by
    rintro ch on ((rfl | rfl) | rfl) <;> exact ⟨nofun, nofun⟩
  cases hdec : decodeCommand s.ch.length words with
  | error err => exact stepped_check_illegal hdec
  | ok i =>
    cases i with
    | init ch o => exact stepped_check_init hdec he
    | status ch => exact stepped_check_status hdec he
    | tsAvailableAll => exact stepped_check_all hdec he
    | sendByte ch b =>
      exact stepped_check_data hdec rfl rfl rfl nofun (fun _ => .snapTxRd (.byte b))
        (fun _ => hsend) he
    | sendBytes ch v =>
      exact stepped_check_data hdec rfl rfl rfl nofun (fun _ => .snapTxRd (.bytes v))
        (fun _ => hsend) he
    | available ch =>
      exact stepped_check_data hdec rfl rfl rfl nofun (fun _ => .snapCount) (fun _ => hok) he
    | readByte ch =>
      exact stepped_check_data hdec rfl rfl rfl nofun (fun _ => .snapRxWr .byte) (fun _ => hread) he
    | readBytes ch n =>
      exact stepped_check_data hdec rfl rfl rfl nofun (fun _ => .snapRxWr (.bytes n))
        (fun _ => hread) he
    | tsAvailable ch =>
      exact stepped_check_data hdec rfl rfl rfl nofun (fun _ => .snapPending) (fun _ => hok) he
    | tsRead ch =>
      exact stepped_check_data hdec rfl rfl rfl nofun (fun _ => .snapTsWr) (fun _ => hrun) he
    | _ => cases isCommand_of_decode hdec

end check

/-! ### Every micro-step -/

section sim
variable {words : List Word} {e : Code} {fg : Foreground} {s a : State} {owed : List (List Word)}

/-- A settled answer is given in a micro-step that is no linearization point. -/
theorem stepped_settled {ch : Byte} {r : Reply} (h : fg.settled s = some (ch, r)) :
    Stepped words e fg s (s.respond ch r) [] := by
  refine .other ?_ ?_
  · cases fg with
    | decideSend | decideRead | decideRun | answerCount | answerPending =>
      exact decide_ne_linearizationPoint _ _ _
    | readHead => exact transfer_ne_linearizationPoint _ _ _
    | _ => cases h
  · rw [foregroundStep_of_settled h]
    exact .responded

/-- `STATUS` reads the fields that events may change in its last micro-step (R68 d). -/
theorem stepped_flags {ch : Byte} {c : Channel}
    (hdec : decodeCommand s.ch.length words = .ok (.status ch)) (hc : s.ch[ch.toNat]? = some c)
    (he : (Foreground.readFlags ch c.checked).CanEnd s e) :
    Stepped words e (.readFlags ch c.checked) s s [words] := by
  have hok : e = .ok := he.trans (State.ofLane_of_channel hc _ _)
  subst hok
  have hexec : exec (.status ch) s = .next (s.respond ch (statusReply c.checked c)) :=
    congrArg _ (State.command_only_answers hc (body := statusBody) rfl)
  refine .commits rfl hdec ?_ hexec rfl
  rw [foregroundStep, State.ofLane_of_channel hc]

theorem stepped_all (hdec : decodeCommand s.ch.length words = .ok .tsAvailableAll)
    (he : Foreground.readAll.CanEnd s e) : Stepped words e .readAll s s [words] := by
  obtain rfl : e = .ok := he
  exact .commits rfl hdec rfl rfl rfl

/-- Every micro-step keeps the two runs together. -/
theorem Sim.step (h : Sim words fg s a owed) (ha : a.TableOk) (hne : fg ≠ .done)
    (he : (foregroundStep fg s).1.CanEnd (foregroundStep fg s).2 e) :
    Stepped words e fg s a owed := by
  have hbefore := canEnd_of_step hne he
  cases h with
  | responded => exact absurd rfl hne
  | begun => exact stepped_check he
  | settled hset => exact stepped_settled hset
  | ahead hdec hc hready h => exact h.step hdec hc hready (ha.ringsOk hc) hne he
  | writing hdec hi hc hready hroom =>
    exact stepped_writing hdec hi hc hready (ha.ringsOk hc) hroom hbefore
  | flags hdec hc => exact stepped_flags hdec hc hbefore
  | all hdec => exact stepped_all hdec hbefore

end sim

/-! ### Whole runs -/

/-- `order` is the atomic run of a micro-step run with the events `ids` and the commands `commands` still to
come (R69). -/
structure Linearized (a : State) (order : List Transition) (final : State) (ids : List Byte)
    (commands : List (List Word)) : Prop where
  final : atomicRun a order = final
  events : Transition.events order = ids
  commands : Transition.commands order = commands

section linearized
variable {a final : State} {order : List Transition} {ids : List Byte} {commands : List (List Word)}

theorem Linearized.nil (a : State) : Linearized a [] a [] [] := ⟨rfl, rfl, rfl⟩

theorem Linearized.event {id : Byte} (h : Linearized (dispatch id a) order final ids commands) :
    Linearized a (.event id :: order) final (id :: ids) commands :=
  ⟨h.final, congrArg (id :: ·) h.events, h.commands⟩

theorem Linearized.command {words : List Word}
    (h : Linearized (transition a (.command words)) order final ids commands) :
    Linearized a (.command words :: order) final ids (words :: commands) :=
  ⟨h.final, h.events, congrArg (words :: ·) h.commands⟩

end linearized

/-- A whole command keeps the table well formed. -/
theorem transition_tableOk {a : State} (h : a.TableOk) (words : List Word) :
    (transition a (.command words)).TableOk := by
  rw [transition_command]
  cases he : runCommand words a with
  | next t =>
    unfold runCommand at he
    split at he
    · exact (exec_keeps_table h he).1
    · cases he
      exact h
  | fault r => exact h
  | refused r => exact h

/-- The command that is in progress once the next one stands at its check. -/
theorem Sim.present {m : Micro} {a : State} {owed : List (List Word)}
    (h : Sim m.current m.fg m.st a owed) (hbusy : ¬ m.Finished) :
    m.present.fg ≠ .done ∧ ∃ owed', Sim m.present.current m.present.fg m.st a owed' ∧
      owed' ++ m.present.waiting = owed ++ m.waiting := by
  by_cases hfg : m.fg = .done
  · rw [hfg] at h
    obtain ⟨rfl, rfl⟩ := h.of_done
    obtain ⟨words, later, hw⟩ := List.exists_cons_of_ne_nil fun hw => hbusy ⟨hfg, hw⟩
    rw [m.present_next hfg hw, hw]
    exact ⟨nofun, [words], .begun, rfl⟩
  · rw [m.present_busy hfg]
    exact ⟨hfg, owed, h, rfl⟩

/-- Where nothing is in progress and nothing waits, the foreground's move is no move. -/
theorem microMove_foreground_finished {m : Micro} (h : m.Finished) : microMove m .foreground = m := by
  rw [microMove_foreground, m.present_finished h, m.advance_finished h.1]

/-- The transition a micro-step of a command in progress stands for. -/
theorem Micro.linearizes_of_outcome {m : Micro} {moves : List Move} {e : Code} (hne : m.fg ≠ .done)
    (h : m.outcome moves = some e) : m.linearizes moves =
      if m.fg.next m.st.ch.length = some (linearizationPoint m.st.ch.length m.current e) then
        [.command m.current] else [] := by
  rw [Micro.linearizes, h, Option.map_some]
  simp only [hne, ne_eq, not_false_eq_true, and_true]

/-- Two runs that stand together stay together to the end of the micro-step run. -/
theorem Sim.linearized {moves : List Move} {m : Micro} {a : State} {owed : List (List Word)}
    (h : Sim m.current m.fg m.st a owed) (ha : a.TableOk) (hfin : (microRun m moves).Finished) :
    Linearized a (m.linearize moves) (microRun m moves).st (eventsOf moves) (owed ++ m.waiting) := by
  induction moves generalizing m a owed with
  | nil =>
    obtain ⟨hfg, hw⟩ : m.fg = .done ∧ m.waiting = [] := hfin
    rw [hfg] at h
    obtain ⟨rfl, rfl⟩ := h.of_done
    rw [hw]
    exact .nil m.st
  | cons x rest ih =>
    cases x with
    | event id =>
      exact (ih (m := microMove m (.event id)) (h.event ha id) (dispatch_tableOk ha id) hfin).event
    | foreground =>
      by_cases hdone : m.Finished
      · have hmove := microMove_foreground_finished hdone
        rw [microRun_cons, hmove] at hfin ⊢
        rw [Micro.linearize, hmove, m.present_finished hdone, m.linearizes_done _ hdone.1]
        exact ih h ha hfin
      · obtain ⟨hne, owed', h', howed⟩ := h.present hdone
        have hfin' : (microRun m.present (.foreground :: rest)).Finished := by
          rw [microRun_cons, microMove_foreground, m.present.present_busy hne]
          exact hfin
        obtain ⟨e, he⟩ := m.present.exists_outcome hne hfin'
        have hend := Micro.canEnd_of_outcome_step he
        rw [← m.present_st] at h'
        rw [← howed, m.linearize_foreground, Micro.linearizes_of_outcome hne he]
        cases h'.step ha hne hend with
        | point hpoint hsim =>
          rw [if_pos hpoint]
          exact (ih (m := m.present.advance) hsim (transition_tableOk ha _) hfin).command
        | other hother hsim =>
          rw [if_neg hother]
          exact ih (m := m.present.advance) hsim ha hfin

/-- Settles O50: the run and its atomic run stand together before the first command. -/
theorem microStepRunsLinearize : Obligations.MicroStepRunsLinearize := by
  intro s commands moves hs _ hfin
  have h := Sim.linearized (m := .ofCommands commands s) .responded hs hfin
  exact ⟨h.final, h.events, h.commands⟩

end Sys2Proof.Machine

/-!
SUPPORT and statements settled: what the decoder answers, said once (R83, R95), and from it the round
trip, the accepted words, the illegal commands and the split of a stream (R80 to R87, R90, R97, R102).
-/

namespace Sys2Proof

/-! ### What the decoder answers -/

/-- R95 (a): `op` is none of 0x01 to 0x0A. -/
abbrev UnknownOp (op : Byte) : Prop := op.toNat = 0 ∨ 10 < op.toNat

/-- R95 (b): a reserved field of the header (R84) or of the `INIT` payload (R87) is non-zero. -/
abbrev ReservedSet (op ch : Byte) (arg : Half) (payload : List Word) : Prop :=
  (op = 1 ∧ (initArgReserved arg ≠ 0 ∨ initWordReserved7 (payload.getD 1 0) ≠ 0 ∨
      initWordReserved31 (payload.getD 1 0) ≠ 0)) ∨
    (op = 2 ∧ arg.extractLsb' 8 8 ≠ 0) ∨ (op ∈ [4, 5, 7, 9, 10] ∧ arg ≠ 0) ∨
    (op = 8 ∧ (arg ≠ 0 ∨ ch ≠ 0))

/-- R95 (c): the command names a channel that the engine does not have. -/
abbrev ChannelMissing (nCh : Nat) (op ch : Byte) : Prop := op ≠ 8 ∧ nCh ≤ ch.toNat

/-- The command of a legal header and payload (R86). -/
def commandOf (op ch : Byte) (arg : Half) (payload : List Word) : Instr :=
  match op.toNat with
  | 1 => .init ch (initOptions arg (payload.getD 0 0) (payload.getD 1 0))
  | 2 => .sendByte ch (arg.extractLsb' 0 8)
  | 3 => .sendBytes ch (unpackBytes arg.toNat payload)
  | 4 => .available ch
  | 5 => .readByte ch
  | 6 => .readBytes ch arg
  | 7 => .tsAvailable ch
  | 9 => .tsRead ch
  | 10 => .status ch
  | _ => .tsAvailableAll

theorem onChannel_eq (nCh : Nat) (ch : Byte) (i : Instr) :
    onChannel nCh ch i = if nCh ≤ ch.toNat then .error .noSuchChannel else .ok i := by
  by_cases h : nCh ≤ ch.toNat
  · rw [if_pos h, onChannel, channelOk, decide_eq_false (Nat.not_lt.mpr h)]
    rfl
  · rw [if_neg h, onChannel, channelOk, decide_eq_true (Nat.not_le.mp h)]
    rfl

/-- The opcodes of R86, the five commands without an argument (R84) together. -/
theorem op_cases {op : Byte} (h : ¬ UnknownOp op) :
    op = 1 ∨ op = 2 ∨ op = 3 ∨ op = 6 ∨ op = 8 ∨ op ∈ [4, 5, 7, 9, 10] := by
  revert op
  decide

theorem decodeFields_of_unknown {op : Byte} (h : UnknownOp op) (nCh : Nat) (ch : Byte) (arg : Half)
    (payload : List Word) : decodeFields nCh op ch arg payload = .error .unknownOp := by
  unfold decodeFields
  split
  case h_11 => rfl
  all_goals omega

/-- The decoder's three checks in their order, and the command where none of them fires (R86, R95). -/
theorem decodeFields_eq (nCh : Nat) (op ch : Byte) (arg : Half) (payload : List Word) :
    decodeFields nCh op ch arg payload =
      if UnknownOp op then .error .unknownOp
      else if ReservedSet op ch arg payload then .error .reservedField
      else if ChannelMissing nCh op ch then .error .noSuchChannel
      else .ok (commandOf op ch arg payload) := by
  by_cases hop : UnknownOp op
  · rw [if_pos hop, decodeFields_of_unknown hop]
  · rw [if_neg hop]
    rcases op_cases hop with rfl | rfl | rfl | rfl | rfl | hmem
    · simp [-not_and, ← not_and_or, decodeFields, decodeInit, onChannel_eq, commandOf, ReservedSet,
        ChannelMissing]
    · simp [decodeFields, decodeSendByte, onChannel_eq, commandOf, ReservedSet, ChannelMissing]
    · simp [decodeFields, onChannel_eq, commandOf, ReservedSet, ChannelMissing]
    · simp [decodeFields, onChannel_eq, commandOf, ReservedSet, ChannelMissing]
    · simp [-not_and, ← not_and_or, decodeFields, decodeTsAvailableAll, commandOf, ReservedSet,
        ChannelMissing]
    · fin_cases hmem <;>
        simp [decodeFields, noArg, onChannel_eq, commandOf, ReservedSet, ChannelMissing]

/-- Words of the length their header gives are decoded by their fields (R83). -/
theorem decodeCommand_of_length {h : Word} {payload : List Word}
    (hlen : commandLength h = payload.length + 1) (nCh : Nat) : decodeCommand nCh (h :: payload) =
      decodeFields nCh (headerOp h) (headerCh h) (headerArg h) payload := by
  rw [decodeCommand, if_neg (by omega), if_neg (by omega)]

theorem decodeCommand_headerWord {op ch : Byte} {arg : Half} {payload : List Word}
    (hlen : commandLength (headerWord op ch arg) = payload.length + 1) (nCh : Nat) :
    decodeCommand nCh (headerWord op ch arg :: payload) = decodeFields nCh op ch arg payload := by
  rw [decodeCommand_of_length hlen, headerOp_headerWord, headerCh_headerWord, headerArg_headerWord]

theorem exists_headerWord (h : Word) : ∃ op ch arg, h = headerWord op ch arg :=
  ⟨_, _, _, (headerWord_fields h).symm⟩

/-- What the decoder accepts has its header's length and passes the three checks (R83, R95). -/
theorem decodeCommand_ok_cases {nCh : Nat} {words : List Word} {i : Instr}
    (h : decodeCommand nCh words = .ok i) : ∃ op ch arg payload,
      words = headerWord op ch arg :: payload ∧
      commandLength (headerWord op ch arg) = payload.length + 1 ∧ ¬ UnknownOp op ∧
      ¬ ReservedSet op ch arg payload ∧ i = commandOf op ch arg payload := by
  cases words with
  | nil => cases h
  | cons header payload =>
    have hlen : commandLength header = payload.length + 1 := by
      rw [decodeCommand] at h
      split_ifs at h
      omega
    obtain ⟨op, ch, arg, rfl⟩ := exists_headerWord header
    rw [decodeCommand_headerWord hlen, decodeFields_eq] at h
    split_ifs at h with hop hres hmiss
    exact ⟨op, ch, arg, payload, rfl, hlen, hop, hres, (Except.ok.inj h).symm⟩

/-! ### Well-formed commands -/

/-- A command is well formed iff its channel is in the table and its counts fit (R84, R95 c). -/
theorem Instr.wf_iff_of_isCommand {i : Instr} (hi : i.isCommand = true) (nCh : Nat) :
    i.wf nCh = true ↔ (∀ ch, i.channel = some ch → ch.toNat < nCh) ∧ i.countsOk = true := by
  have hnames : i.namesChannel nCh = i.channel.all (channelOk nCh) :=
    Instr.namesChannel.eq_2 nCh i (by rintro _ rfl; cases hi)
  have hring : i.ringOk = true := by
    revert hi
    cases i <;> simp [Instr.isCommand, Instr.ringOk]
  rw [Instr.wf, hnames, hring]
  cases i.channel <;> simp [channelOk]

/-! ### Decoding what was encoded -/

theorem onChannel_of_lt {nCh : Nat} {ch : Byte} (h : ch.toNat < nCh) (i : Instr) :
    onChannel nCh ch i = .ok i := by
  rw [onChannel_eq, if_neg (by omega)]

theorem decodeInit_encoded {nCh : Nat} {ch : Byte} (h : ch.toNat < nCh) (o : InitOptions) :
    decodeInit nCh ch (initArg o) o.baud (initWord2 o) = .ok (.init ch o) := by
  rw [decodeInit, if_pos (initReserved_zero o), initOptions_encoded, onChannel_of_lt h]

/-- `SEND_BYTE`'s `arg`, bit by bit (R84). -/
theorem getLsbD_sendByteArg (b : Byte) (i : Nat) :
    (0#8 ++ b : BitVec 16).getLsbD i = if i < 8 then b.getLsbD i else false := by
  simp only [BitVec.getLsbD_append, BitVec.getLsbD_zero]

theorem decodeSendByte_encoded {nCh : Nat} {ch : Byte} (h : ch.toNat < nCh) (b : Byte) :
    decodeSendByte nCh ch (0#8 ++ b : BitVec 16) = .ok (.sendByte ch b) := by
  have hhigh : (0#8 ++ b : BitVec 16).extractLsb' 8 8 = 0 := by
    apply BitVec.eq_of_getLsbD_eq
    intro i _
    simp [getLsbD_sendByteArg]
  have hlow : (0#8 ++ b : BitVec 16).extractLsb' 0 8 = b := by
    apply BitVec.eq_of_getLsbD_eq
    intro i hi
    simp [getLsbD_sendByteArg, hi]
  rw [decodeSendByte, if_pos hhigh, hlow, onChannel_of_lt h]

/-- The bytes read back from an encoded `SEND_BYTES` are the ones put in (R84, R90). -/
theorem unpackBytes_encoded {bytes : List Byte} (h : bytes.length < 2 ^ 16) :
    unpackBytes (BitVec.ofNat 16 bytes.length).toNat (packBytes bytes) = bytes := by
  rw [BitVec.toNat_ofNat, Nat.mod_eq_of_lt h, unpack_pack]

/-- Every operation whose counts fit is encoded in as many words as its header says (R83, R101). -/
theorem lengthOk_encode {i : Instr} (h : i.countsOk = true) :
    Laws.EncodedLength.lengthOk (encode i) := by
  cases i with
  | init ch o => exact Laws.EncodedLength.init ch o h
  | sendByte ch b => exact Laws.EncodedLength.sendByte ch b h
  | sendBytes ch v => exact Laws.EncodedLength.sendBytes ch v h
  | available ch => exact Laws.EncodedLength.available ch h
  | readByte ch => exact Laws.EncodedLength.readByte ch h
  | readBytes ch n => exact Laws.EncodedLength.readBytes ch n h
  | tsAvailable ch => exact Laws.EncodedLength.tsAvailable ch h
  | tsAvailableAll => exact Laws.EncodedLength.tsAvailableAll h
  | tsRead ch => exact Laws.EncodedLength.tsRead ch h
  | status ch => exact Laws.EncodedLength.status ch h
  | _ => trivial

/-- The operations of the ports are the commands and the event (R101). -/
theorem Instr.isCommand_or_event {i : Instr} (h : i.requestable = true) :
    i.isCommand = true ∨ ∃ id, i = .dispatch id := by
  cases i with
  | dispatch id => exact .inr ⟨id, rfl⟩
  | _ => exact .inl h

/-- Command by command: the words have the length their header gives, and the fields the decoder reads
back from them are the ones put in. -/
theorem decode_encode_of_isCommand {nCh : Nat} {i : Instr} (hi : i.isCommand = true)
    (hwf : i.wf nCh = true) : decode nCh (encode i) = .ok i := by
  obtain ⟨hch, hcount⟩ := (Instr.wf_iff_of_isCommand hi nCh).mp hwf
  have hlen := lengthOk_encode hcount
  cases i with
  | init ch o =>
    exact (decodeCommand_headerWord hlen nCh).trans (decodeInit_encoded (hch ch rfl) o)
  | sendByte ch b =>
    exact (decodeCommand_headerWord hlen nCh).trans (decodeSendByte_encoded (hch ch rfl) b)
  | sendBytes ch bytes =>
    refine (decodeCommand_headerWord hlen nCh).trans ((onChannel_of_lt (hch ch rfl) _).trans ?_)
    rw [unpackBytes_encoded (of_decide_eq_true hcount)]
  | tsAvailableAll => exact decodeCommand_headerWord hlen nCh
  | readBytes ch | available ch | readByte ch | tsAvailable ch | tsRead ch | status ch =>
    exact (decodeCommand_headerWord hlen nCh).trans (onChannel_of_lt (hch ch rfl) _)
  | _ => cases hi

/-! ### Encoding what was decoded -/

theorem sendByteArg_of_reserved {arg : Half} (h : arg.extractLsb' 8 8 = 0) :
    (0#8 ++ arg.extractLsb' 0 8 : BitVec 16) = arg := by
  apply BitVec.eq_of_getLsbD_eq
  intro i hi
  rw [getLsbD_sendByteArg]
  split
  · simp [*]
  · have hbit := congrArg (fun v => v.getLsbD (i - 8)) h
    simpa [show i - 8 < 8 by omega, show 8 + (i - 8) = i by omega] using hbit.symm

/-- Payload words hold four bytes each (R54). -/
theorem length_unpackBytes {n : Nat} {ws : List Word} (h : n ≤ 4 * ws.length) :
    (unpackBytes n ws).length = n := by
  have hbytes : (ws.flatMap bytesOfWord).length = 4 * ws.length := by
    simp [List.length_flatMap, bytesOfWord, Nat.mul_comm]
  rw [unpackBytes, List.length_take, hbytes, Nat.min_eq_left h]

/-- The payload the encoder writes for accepted words: theirs, with zeros for the padding of a
`SEND_BYTES` (R90). -/
def canonicalPayload (op : Byte) (arg : Half) (payload : List Word) : List Word :=
  if op = 3 then packBytes (unpackBytes arg.toNat payload) else payload

section payload
variable {op ch : Byte} {arg : Half} {payload : List Word}

/-- Every command but `INIT` and `SEND_BYTES` is its header alone (R82, R83). -/
theorem payload_eq_nil (hlen : commandLength (headerWord op ch arg) = payload.length + 1)
    (h1 : op ≠ 1) (h3 : op ≠ 3) : payload = [] := by
  unfold commandLength at hlen
  rw [headerOp_headerWord] at hlen
  split at hlen
  · next he => exact absurd (BitVec.eq_of_toNat_eq he) h1
  · next he => exact absurd (BitVec.eq_of_toNat_eq he) h3
  · exact List.length_eq_zero_iff.mp (by omega)

theorem length_payload_init (hlen : commandLength (headerWord 1 ch arg) = payload.length + 1) :
    payload.length = 2 := by
  simp only [commandLength, headerOp_headerWord] at hlen
  exact (Nat.succ.inj hlen).symm

/-- A `SEND_BYTES` has the words for its bytes (R83, R90). -/
theorem length_payload_sendBytes
    (hlen : commandLength (headerWord 3 ch arg) = payload.length + 1) :
    payload.length = payloadWords arg.toNat := by
  simp only [commandLength, headerOp_headerWord, headerArg_headerWord] at hlen
  change 1 + _ = _ at hlen
  omega

theorem length_unpackBytes_sendBytes
    (hlen : commandLength (headerWord 3 ch arg) = payload.length + 1) :
    (unpackBytes arg.toNat payload).length = arg.toNat := by
  apply length_unpackBytes
  rw [length_payload_sendBytes hlen, payloadWords]
  omega

theorem length_canonicalPayload
    (hlen : commandLength (headerWord op ch arg) = payload.length + 1) :
    (canonicalPayload op arg payload).length = payload.length := by
  unfold canonicalPayload
  split
  · next hop =>
    subst hop
    rw [packBytes_length, length_unpackBytes_sendBytes hlen, length_payload_sendBytes hlen]
  · rfl

/-- The five commands without an argument encode to their opcode and channel (R84, R86). -/
theorem encode_commandOf_noArg (hop : op ∈ [4, 5, 7, 9, 10]) (ch : Byte) (arg : Half)
    (payload : List Word) : encode (commandOf op ch arg payload) = .command [headerWord op ch 0] := by
  fin_cases hop <;> rfl

/-- A legal command encodes to its own header and the canonical payload (R84, R87, R90). -/
theorem encode_commandOf (hlen : commandLength (headerWord op ch arg) = payload.length + 1)
    (hop : ¬ UnknownOp op) (hres : ¬ ReservedSet op ch arg payload) :
    encode (commandOf op ch arg payload) =
      .command (headerWord op ch arg :: canonicalPayload op arg payload) := by
  rcases op_cases hop with rfl | rfl | rfl | rfl | rfl | hmem
  · obtain ⟨baud, word2, rfl⟩ := List.length_eq_two.mp (length_payload_init hlen)
    obtain ⟨harg, h7, h31⟩ : initArgReserved arg = 0 ∧ initWordReserved7 word2 = 0 ∧
        initWordReserved31 word2 = 0 := by simpa [ReservedSet] using hres
    change Encoded.command [headerWord 1 ch (initArg (initOptions arg baud word2)), baud,
      initWord2 (initOptions arg baud word2)] = _
    rw [initArg_initOptions _ _ _ harg, initWord2_initOptions _ _ _ h7 h31]
    rfl
  · obtain rfl := payload_eq_nil hlen (by decide) (by decide)
    have hhigh : arg.extractLsb' 8 8 = 0 := by simpa [ReservedSet] using hres
    change Encoded.command [headerWord 2 ch (0#8 ++ arg.extractLsb' 0 8 : BitVec 16)] = _
    rw [sendByteArg_of_reserved hhigh]
    rfl
  · simp [commandOf, encode, length_unpackBytes_sendBytes hlen, canonicalPayload]
  · obtain rfl := payload_eq_nil hlen (by decide) (by decide)
    rfl
  · obtain rfl := payload_eq_nil hlen (by decide) (by decide)
    obtain ⟨rfl, rfl⟩ : arg = 0 ∧ ch = 0 := by simpa [ReservedSet] using hres
    rfl
  · have h1 : op ≠ 1 := by
      rintro rfl
      simp at hmem
    have h3 : op ≠ 3 := by
      rintro rfl
      simp at hmem
    obtain rfl := payload_eq_nil hlen h1 h3
    have harg : arg = 0 := by
      by_contra h0
      exact hres (.inr (.inr (.inl ⟨hmem, h0⟩)))
    rw [encode_commandOf_noArg hmem, harg, canonicalPayload, if_neg h3]

/-- Only opcode 3 stands for a `SEND_BYTES` (R86). -/
theorem op_of_sendBytes (hop : ¬ UnknownOp op) {c : Byte} {bytes : List Byte}
    (h : commandOf op ch arg payload = .sendBytes c bytes) :
    op = 3 ∧ unpackBytes arg.toNat payload = bytes := by
  rcases op_cases hop with rfl | rfl | rfl | rfl | rfl | hmem
  · cases h
  · cases h
  · exact ⟨rfl, (Instr.sendBytes.inj h).2⟩
  · cases h
  · cases h
  · fin_cases hmem <;> cases h

theorem commandOf_countsOk (op ch : Byte) (arg : Half) (payload : List Word) :
    (commandOf op ch arg payload).countsOk = true := by
  have hbytes : (unpackBytes arg.toNat payload).length < 2 ^ 16 :=
    Nat.lt_of_le_of_lt (List.length_take_le _ _) arg.isLt
  unfold commandOf
  split
  case h_3 => exact decide_eq_true hbytes
  all_goals rfl

end payload

namespace Machine

/-- Settles O1: an event decodes to itself, a command by `decode_encode_of_isCommand`. -/
theorem decodeEncodeRoundTrip : Obligations.DecodeEncodeRoundTrip := by
  intro nCh i hwf hreq
  rcases Instr.isCommand_or_event hreq with hi | ⟨id, rfl⟩
  · exact decode_encode_of_isCommand hi hwf
  · rfl

/-- Settles O2: accepted words pass the decoder's checks, and what they decode to encodes to their own
header and the canonical payload. -/
theorem acceptedWordsAreTheEncoding : Obligations.AcceptedWordsAreTheEncoding := by
  intro nCh words i h
  have hi := isCommand_of_decode h
  have hlt := fun ch => channel_lt_of_decode (ch := ch) h
  obtain ⟨op, ch, arg, payload, rfl, hlen, hop, hres, rfl⟩ := decodeCommand_ok_cases h
  refine ⟨(Instr.wf_iff_of_isCommand hi nCh).mpr ⟨hlt, commandOf_countsOk op ch arg payload⟩, hi,
    _, encode_commandOf hlen hop hres, ?_, rfl, fun hne => ?_, fun c bytes hb => ?_⟩
  · rw [List.length_cons, length_canonicalPayload hlen, List.length_cons]
  · rw [canonicalPayload, if_neg]
    rintro rfl
    exact hne _ _ rfl
  · obtain ⟨rfl, rfl⟩ := op_of_sendBytes hop hb
    rw [length_unpackBytes_sendBytes hlen]
    rfl

/-! ### Illegal commands -/

theorem isCommand_cons_iff {h : Word} {payload : List Word} :
    IsCommand (h :: payload) ↔ commandLength h = payload.length + 1 := by
  constructor
  · rintro ⟨_, _, heq, hlen⟩
    obtain ⟨rfl, rfl⟩ := List.cons.inj heq
    exact hlen.symm
  · intro hlen
    exact ⟨h, payload, rfl, hlen.symm⟩

/-- A complete command does not decode iff one of the three checks fires (R95). -/
theorem decodeCommand_fails_iff {nCh : Nat} {h : Word} {payload : List Word}
    (hlen : commandLength h = payload.length + 1) :
    (¬ ∃ i, decodeCommand nCh (h :: payload) = .ok i) ↔ UnknownOp (headerOp h) ∨
      ReservedSet (headerOp h) (headerCh h) (headerArg h) payload ∨
      ChannelMissing nCh (headerOp h) (headerCh h) := by
  rw [decodeCommand_of_length hlen, decodeFields_eq]
  split_ifs with hop hres hmiss
  · exact iff_of_true (by simp) (.inl hop)
  · exact iff_of_true (by simp) (.inr (.inl hres))
  · exact iff_of_true (by simp) (.inr (.inr hmiss))
  · exact iff_of_false (by simp) (not_or.mpr ⟨hop, not_or.mpr ⟨hres, hmiss⟩⟩)

/-- The reserved field of `INIT`'s `arg`, as bits of the header (R81, R84). -/
theorem initArgReserved_headerArg (h : Word) :
    initArgReserved (headerArg h) = h.extractLsb' 2 6 := by
  apply BitVec.eq_of_getLsbD_eq
  intro i hi
  simp [initArgReserved, headerArg, hi]

/-- The reserved field of `SEND_BYTE`'s `arg`, as bits of the header (R81, R84). -/
theorem sendByteReserved_headerArg (h : Word) :
    (headerArg h).extractLsb' 8 8 = h.extractLsb' 8 8 := by
  apply BitVec.eq_of_getLsbD_eq
  intro i hi
  simp [headerArg, hi]

/-- A command that does not decode is answered IllegalCommand, and nothing else happens (R95). -/
theorem step_of_illegal {s : State} {h : Word} {payload : List Word} {rest : List PortItem}
    (harrival : nextArrival s.cmdBuf s.stimulus = .command (h :: payload) rest)
    (hill : ¬ ∃ i, decodeCommand s.ch.length (h :: payload) = .ok i) :
    step s = .next ({ s with cmdBuf := [], stimulus := rest }.answered (headerCh h)
      .illegalCommand 0 []) := by
  rw [step, harrival]
  cases hd : decodeCommand s.ch.length (h :: payload) with
  | ok i => exact absurd ⟨i, hd⟩ hill
  | error e =>
    simp only [runCommand, hd]
    rfl

/-- Settles O4: the three checks of the decoder, their reserved fields read as bits of the words. -/
theorem illegalCommandsAreAnswered : Obligations.IllegalCommandsAreAnswered := by
  refine ⟨fun nCh h payload hc => ?_, fun s h payload rest => step_of_illegal⟩
  rw [decodeCommand_fails_iff (isCommand_cons_iff.mp hc), ← initArgReserved_headerArg,
    ← sendByteReserved_headerArg]
  rfl

/-! ### Streams of words -/

/-- Every complete command is decoded or refused for one of R95's three reasons (R102). -/
theorem decodeCommand_verdict (nCh : Nat) {words : List Word} (hc : IsCommand words) :
    (∃ i, i.isCommand = true ∧ decodeCommand nCh words = .ok i) ∨
      ∃ e, e ∈ [DecodeError.unknownOp, .reservedField, .noSuchChannel] ∧
        decodeCommand nCh words = .error e := by
  obtain ⟨h, payload, rfl, hlen⟩ := hc
  have hd := (decodeCommand_of_length hlen.symm nCh).trans (decodeFields_eq ..)
  split_ifs at hd
  · exact .inr ⟨_, by simp, hd⟩
  · exact .inr ⟨_, by simp, hd⟩
  · exact .inr ⟨_, by simp, hd⟩
  · exact .inl ⟨_, isCommand_of_decode hd, hd⟩

/-- A command is cut from a stream in one way: its header gives its length (R83). -/
theorem isCommand_append_inj {c c' rest rest' : List Word} (hc : IsCommand c) (hc' : IsCommand c')
    (h : c ++ rest = c' ++ rest') : c = c' ∧ rest = rest' := by
  obtain ⟨w, payload, rfl, hlen⟩ := hc
  obtain ⟨w', payload', rfl, hlen'⟩ := hc'
  obtain ⟨rfl, -⟩ := List.cons.inj h
  exact List.append_inj h (hlen.trans hlen'.symm)

/-- Words that begin with a whole command are no incomplete one. -/
theorem not_isIncomplete_append {c rest : List Word} (hc : IsCommand c) :
    ¬ IsIncomplete (c ++ rest) := by
  obtain ⟨w, payload, rfl, hlen⟩ := hc
  rw [← incomplete_iff]
  simp only [List.length_cons] at hlen
  simp only [List.cons_append, commandComplete, List.length_append, decide_eq_false_iff_not, not_not]
  omega

/-- A split of a stream into complete commands and an incomplete tail (R102). -/
def SplitsInto (words : List Word) (p : List (List Word) × List Word) : Prop :=
  words = p.1.flatten ++ p.2 ∧ (∀ c ∈ p.1, IsCommand c) ∧ IsIncomplete p.2

theorem SplitsInto.cons {c words : List Word} {p : List (List Word) × List Word} (hc : IsCommand c)
    (h : SplitsInto words p) : SplitsInto (c ++ words) (c :: p.1, p.2) := by
  obtain ⟨rfl, hall, htail⟩ := h
  exact ⟨by simp, List.forall_mem_cons.mpr ⟨hc, hall⟩, htail⟩

theorem exists_splitsInto (words : List Word) : ∃ p, SplitsInto words p := by
  by_cases hinc : IsIncomplete words
  · exact ⟨([], words), rfl, by simp, hinc⟩
  · cases words with
    | nil => exact absurd (.inl rfl) hinc
    | cons h payload =>
      have hle : commandLength h ≤ (h :: payload).length := by
        by_contra hlt
        exact hinc (.inr ⟨h, payload, rfl, by omega⟩)
      have hpos := commandLength_pos h
      have hc : IsCommand ((h :: payload).take (commandLength h)) := by
        refine ⟨h, payload.take (commandLength h - 1), ?_, ?_⟩
        · rw [← List.take_succ_cons, Nat.sub_add_cancel hpos]
        · rw [List.length_take, Nat.min_eq_left hle]
      obtain ⟨p, hp⟩ := exists_splitsInto ((h :: payload).drop (commandLength h))
      have hcons := hp.cons hc
      rw [List.take_append_drop] at hcons
      exact ⟨_, hcons⟩
termination_by words.length
decreasing_by
  rw [List.length_drop]
  omega

theorem splits_unique {cs cs' : List (List Word)} {tail tail' : List Word}
    (hcs : ∀ c ∈ cs, IsCommand c) (hcs' : ∀ c ∈ cs', IsCommand c) (htail : IsIncomplete tail)
    (htail' : IsIncomplete tail') (h : cs.flatten ++ tail = cs'.flatten ++ tail') :
    cs = cs' ∧ tail = tail' := by
  induction cs generalizing cs' with
  | nil =>
    cases cs' with
    | nil => exact ⟨rfl, h⟩
    | cons c' cs' =>
      obtain rfl : tail = c' ++ (cs'.flatten ++ tail') := by simpa using h
      exact absurd htail (not_isIncomplete_append (hcs' c' (by simp)))
  | cons c cs ih =>
    obtain ⟨hc, hcs⟩ := List.forall_mem_cons.mp hcs
    cases cs' with
    | nil =>
      obtain rfl : c ++ (cs.flatten ++ tail) = tail' := by simpa using h
      exact absurd htail' (not_isIncomplete_append hc)
    | cons c' cs' =>
      obtain ⟨hc', hlater⟩ := List.forall_mem_cons.mp hcs'
      obtain ⟨rfl, hrest⟩ := isCommand_append_inj hc hc' (by simpa using h)
      obtain ⟨rfl, rfl⟩ := ih hcs hlater hrest
      exact ⟨rfl, rfl⟩

theorem SplitsInto.unique {words : List Word} {p p' : List (List Word) × List Word}
    (h : SplitsInto words p) (h' : SplitsInto words p') : p = p' := by
  obtain ⟨heq, hcs, htail⟩ := h
  obtain ⟨heq', hcs', htail'⟩ := h'
  obtain ⟨hfst, hsnd⟩ := splits_unique hcs hcs' htail htail' (heq.symm.trans heq')
  exact Prod.ext hfst hsnd

/-- Settles O3: the header of each command says where it ends, and the decoder's checks say the rest. -/
theorem streamSplitsInOneWay : Obligations.StreamSplitsInOneWay := by
  refine ⟨fun words => ?_, fun nCh words => decodeCommand_verdict nCh⟩
  obtain ⟨p, hp⟩ := exists_splitsInto words
  exact ⟨p, hp, fun p' hp' => SplitsInto.unique hp' hp⟩

/-- Settles O5, each sample by evaluation of the decoder. -/
theorem sampleWordsDecode : Obligations.SampleWordsDecode := by
  unfold Obligations.SampleWordsDecode
  decide

end Machine
end Sys2Proof

/-!
SUPPORT and statements settled: the step on an incomplete command, with an event behind it or with
nothing (R80, R97).
-/

namespace Sys2Proof.Machine

section arrival
variable {buf words : List Word} {rest : List PortItem}

/-- A begun command takes in all the words before an event or the end, if it lacks as many (R80, R83). -/
theorem takeMissing_of_short {h : Word} {payload : List Word}
    (hlen : (h :: payload ++ words).length ≤ commandLength h)
    (hr : ∀ w later, rest ≠ .word w :: later) :
    takeMissing (h :: payload) (words.map .word ++ rest) = (h :: payload ++ words, rest) := by
  have hwanted : words.length ≤ wordsMissing (h :: payload) := by
    simp only [List.length_append, List.length_cons, wordsMissing] at hlen ⊢
    omega
  rw [takeMissing, takeWords_short hwanted hr]

/-- The words of an incomplete command are all taken in (R80). -/
theorem collect_of_isIncomplete (hinc : IsIncomplete (buf ++ words))
    (hr : ∀ w later, rest ≠ .word w :: later) :
    collect buf (words.map .word ++ rest) = (buf ++ words, rest) := by
  rcases hinc with hnil | ⟨h, payload, heq, hlt⟩
  · obtain ⟨rfl, rfl⟩ := List.append_eq_nil_iff.mp hnil
    have hnone : takeMissing [] rest = ([], rest) := by
      have hshort := takeWords_short (k := wordsMissing []) (ws := []) (Nat.zero_le _) hr
      rw [List.map_nil, List.nil_append] at hshort
      rw [takeMissing, hshort, List.nil_append]
    rw [List.map_nil, List.nil_append, collect, hnone]
    rfl
  · cases buf with
    | nil =>
      obtain rfl : words = h :: payload := heq
      have hheader : takeMissing [] ((h :: payload).map .word ++ rest) =
          ([h], payload.map .word ++ rest) := by
        simp [takeMissing, wordsMissing, takeWords]
      rw [collect, hheader]
      exact takeMissing_of_short (Nat.le_of_lt hlt) hr
    | cons h' begun =>
      obtain rfl : h' = h := (List.cons.inj heq).1
      have hall : takeMissing (h' :: begun ++ words) rest = (h' :: begun ++ words, rest) := by
        simpa using takeMissing_of_short (words := []) (by simpa using Nat.le_of_lt hlt) hr
      rw [collect, takeMissing_of_short (Nat.le_of_lt hlt) hr]
      exact hall

/-- Behind the words of an incomplete command an event is served next (R97). -/
theorem nextArrival_event (hinc : IsIncomplete (buf ++ words)) (id : Byte) (later : List PortItem) :
    nextArrival buf (words.map .word ++ .event id :: later) = .event id (buf ++ words) later := by
  rw [nextArrival, collect_of_isIncomplete hinc (by simp)]
  simp only [(incomplete_iff _).mpr hinc, Bool.false_eq_true, if_false]

/-- An incomplete command with nothing behind it is waited for (R80). -/
theorem nextArrival_waiting (hinc : IsIncomplete (buf ++ words)) :
    nextArrival buf (words.map .word) = .waiting (buf ++ words) := by
  have hcol := collect_of_isIncomplete (rest := []) hinc (by simp)
  rw [List.append_nil] at hcol
  rw [nextArrival, hcol]
  simp only [(incomplete_iff _).mpr hinc, Bool.false_eq_true, if_false]

end arrival

/-- Settles O9: the event is what arrives next. -/
theorem stepServesTheNextEvent : Obligations.StepServesTheNextEvent := by
  intro s id words rest hinc hstim
  rw [step, hstim, nextArrival_event hinc]
  rfl

/-- Settles O10: nothing to serve arrives. -/
theorem incompleteCommandWaits : Obligations.IncompleteCommandWaits := by
  intro s words hinc hstim
  rw [step, hstim, nextArrival_waiting hinc]

end Sys2Proof.Machine

/-!
SUPPORT and statements settled: operations without their channel (R95, R97, R140, R170), the reads of a
Ready channel by its slots (R176, R179), and the mask of pending records (R93, R178).
-/

namespace Sys2Proof

/-! ### Mask words -/

/-- Bit `i` of the number a list of bits stands for (R7). -/
theorem testBit_natOfBits (bits : List Bool) (i : Nat) :
    (natOfBits bits).testBit i = bits.getD i false := by
  induction bits generalizing i with
  | nil => simp [natOfBits]
  | cons b bits ih =>
    have hbit : natOfBits (b :: bits) = Nat.bit b (natOfBits bits) := by
      rw [Nat.bit_val, natOfBits, Nat.add_comm]
    rw [hbit]
    cases i with
    | zero => rw [Nat.testBit_bit_zero, List.getD_cons_zero]
    | succ i => rw [Nat.testBit_bit_succ, ih, List.getD_cons_succ]

theorem length_maskWords (bits : List Bool) : (maskWords bits).length = (bits.length + 31) / 32 := by
  simp [maskWords]

/-- Bit `k mod 32` of mask word `k div 32` is bit `k`, and 0 beyond the last (R93). -/
theorem getLsbD_maskWords (bits : List Bool) (k : Nat) :
    ((maskWords bits).getD (k / 32) 0).getLsbD (k % 32) = bits.getD k false := by
  have hk : k % 32 < 32 := Nat.mod_lt _ (by decide)
  by_cases hword : k / 32 < (bits.length + 31) / 32
  · have hget : (maskWords bits).getD (k / 32) 0 =
        BitVec.ofNat 32 (natOfBits ((bits.drop (32 * (k / 32))).take 32)) := by
      simp [maskWords, hword]
    rw [hget, BitVec.getLsbD_ofNat, testBit_natOfBits]
    simp [hk, Nat.div_add_mod]
  · have hbeyond : bits.length ≤ k := by omega
    have hnone : (maskWords bits).length ≤ k / 32 := by
      rw [length_maskWords]
      exact Nat.le_of_not_lt hword
    simp [hnone, hbeyond]

namespace Machine

/-! ### Operations without their channel -/

/-- Settles O24: a command on a channel that the table does not have (R95, R170). -/
theorem commandsNeedAChannel : Obligations.CommandsNeedAChannel := by
  intro s i ch hcmd hch hlen
  rw [FailsWith, exec_of_absent hch hlen, if_pos hcmd]

/-- Settles O41: an event without a lane, or with one that is not Ready (R97, R140). -/
theorem eventWithoutReadyChannelDoesNothing : Obligations.EventWithoutReadyChannelDoesNothing := by
  intro s id hnot
  rw [exec_dispatch]
  rcases s.lane_cases id.toNat with ⟨-, hlen, -⟩ | ⟨c, hc, -, -⟩
  · rw [dispatch_of_absent hlen]
  · rw [dispatch_of_channel hc, if_neg (hnot c hc)]

/-! ### Reads by their slots -/

/-- The oldest bytes of the RX ring are the ones in the slots from its read cursor on (R10, R25). -/
theorem RingBuffer.Ok.slotsAre_take {α : Type} [Inhabited α] {q : RingBuffer α} (h : q.Ok) {n : Nat}
    (hn : n ≤ q.occ) : q.SlotsAre q.rd n (q.contents.take n) := by
  rw [← q.memRead_rd hn]
  exact RingBuffer.slotsAre_memRead h q.rd n

/-- The head of a ring that holds something stands in the slot of its read cursor (R10, R25). -/
theorem RingBuffer.Ok.exists_head {α : Type} [Inhabited α] {q : RingBuffer α} (h : q.Ok)
    (hne : q.occ ≠ 0) :
    ∃ x, q.store[q.rd % q.cap]? = some x ∧ q.contents.head? = some x := by
  obtain ⟨⟨hcap, -⟩, -, -, -, hlen⟩ := h
  obtain ⟨x, hx⟩ := RingBuffer.slot_exists hcap hlen q.rd
  exact ⟨x, hx, by rw [q.contents_head?, if_neg hne, RingBuffer.readSlot_eq hx]⟩

/-- Work on a lane that changes its record alone, as an update of that record (R38). -/
theorem State.onLane_of_record {s : State} {ch : Byte} {c d : Channel} {f : Lane → Lane}
    (hc : s.ch[ch.toNat]? = some c) (hf : f (s.laneOf ch c) = { s.laneOf ch c with chan := d }) :
    s.onLane ch f = s.updated ch.toNat d [] := by
  rw [State.onLane_of_channel hc, hf, State.commit_eq]
  exact congrArg (State.updated · _ _ _) (s.withDraws_self _)

/-- Settles O31, with the oldest bytes of the RX ring as the answer. -/
theorem readBytesResult : Obligations.ReadBytesResult := by
  intro s ch n c hc hr hok
  refine ⟨fun henough => ⟨_, hok.rx.slotsAre_take henough, ?_⟩, fun hshort =>
    exec_reads_short (.bytes n) hc hr hok.rx hshort⟩
  rw [← State.onLane_of_record hc (f := publishRead n.toNat)
    (d := { c with rx := c.rx.withRemoved n.toNat }) rfl]
  exact exec_reads_enough (.bytes n) hc hr hok.rx henough

/-- Settles O38: the record at the head of the TS ring decides how many bytes are read. -/
theorem tsReadResult : Obligations.TsReadResult := by
  intro s ch c hc hr hok
  refine ⟨fun hnone => exec_tsRead_none hc hr hok.ts (hnone.imp_right fun h0 => ?_), fun hon hne => ?_⟩
  · rw [← List.length_eq_zero_iff, RingBuffer.contents_length, h0]
  · obtain ⟨rec, hslot, hhead⟩ := hok.ts.exists_head hne
    refine ⟨rec, hslot, exec_tsRead_short hc hr hok.ts hon hhead, fun henough =>
      ⟨_, hok.rx.slotsAre_take henough, ?_⟩⟩
    rw [← State.onLane_of_record hc (f := publishRun rec.length.toNat)
      (d := { c with rx := c.rx.withRemoved rec.length.toNat, ts := c.ts.withRemoved 1 }) rfl]
    exact exec_tsRead_enough hc hr hok.ts hon hhead henough

/-! ### Pending records -/

/-- A channel's bit in the answer of `TS_AVAILABLE_ALL`, in the spec's terms (R178). -/
theorem pendingBit_iff {c : Channel} (h : c.RingsOk) :
    pendingBit c = true ↔ c.status = .ready ∧ c.tsEnable = true ∧ c.ts.occ ≠ 0 := by
  obtain ⟨-, hrd, hwr, -⟩ := h.ts
  have hempty := RingBuffer.empty_iff hrd hwr
  simp [pendingBit, recordPending, ← hempty]

/-- Settles O37: the mask's bits are the channels' bits, and its value is their disjunction. -/
theorem tsAvailableAllResult : Obligations.TsAvailableAllResult := by
  intro s hok
  have hbits := getLsbD_maskWords (s.ch.map pendingBit)
  refine ⟨boolValue ((s.ch.map pendingBit).any id), maskWords (s.ch.map pendingBit), rfl, ?_,
    fun k c hc => ?_, fun k hk => ?_, ?_⟩
  · rw [length_maskWords, List.length_map]
  · rw [hbits, ← pendingBit_iff (hok c (List.mem_of_getElem? hc))]
    simp [hc]
  · rw [hbits]
    simp [hk]
  · have hany : (s.ch.map pendingBit).any id = true ↔
        ∃ c ∈ s.ch, c.status = .ready ∧ c.tsEnable = true ∧ c.ts.occ ≠ 0 := by
      rw [List.any_map, List.any_eq_true]
      exact exists_congr fun c => and_congr_right fun hc => pendingBit_iff (hok c hc)
    simp only [boolValue, hany]

end Machine
end Sys2Proof

/-!
SUPPORT and statements settled: the ring primitives by themselves (R110 to R119), and the operations that
move bytes through one of them on a Ready channel (R143, R173 to R175).
-/

namespace Sys2Proof.Machine

/-! ### The primitives on a well-formed ring, by their cursors and slots -/

section ring
variable {α : Type} {q : RingBuffer α}

/-- The occupied count as the residue it stands for (R24, R117). -/
theorem RingBuffer.Ok.natCast_occ (h : q.Ok) :
    (q.occ : Int) = ((q.wr : Int) - q.rd) % (2 * q.cap) := by
  obtain ⟨⟨hcap, -⟩, -⟩ := h
  have hmod : ((2 * q.cap : Nat) : Int) ≠ 0 := by omega
  rw [RingBuffer.occ, Int.toNat_of_nonneg (Int.emod_nonneg _ hmod), Nat.cast_mul, Nat.cast_ofNat]

/-- `IS_EMPTY` tells whether the occupied count is 0 (R118). -/
theorem RingBuffer.Ok.empty_eq_decide (h : q.Ok) : q.empty = decide (q.occ = 0) := by
  obtain ⟨-, hrd, hwr, -⟩ := h
  rw [Bool.eq_iff_iff, RingBuffer.empty_iff hrd hwr, decide_eq_true_eq]

/-- `PUSH_BULK` of more than fits (R115). -/
theorem RingBuffer.pushBulk_of_lt {v : List α} (h : q.cap - q.occ < v.length) :
    q.pushBulk v = (q, false) := if_pos h

/-- `PUSH_BULK` of no more than fits (R115). -/
theorem RingBuffer.pushBulk_of_le {v : List α} (h : v.length ≤ q.cap - q.occ) :
    q.pushBulk v = ((q.memWrite q.wr v).publishWr v.length, true) := if_neg (Nat.not_lt.mpr h)

variable [Inhabited α]

/-- The slot of the read cursor is there, and is what a read at that cursor answers (R10). -/
theorem RingBuffer.Ok.getElem?_rd (h : q.Ok) :
    q.store[q.rd % q.cap]? = some (q.readSlot q.rd) := by
  obtain ⟨⟨hcap, -⟩, -, -, -, hlen⟩ := h
  obtain ⟨x, hx⟩ := RingBuffer.slot_exists hcap hlen q.rd
  rw [hx, RingBuffer.readSlot_eq hx]

/-- `PEEK` by the slot of the read cursor (R119). -/
theorem RingBuffer.Ok.peek_eq (h : q.Ok) :
    q.peek = if q.occ = 0 then none else q.store[q.rd % q.cap]? := by
  rw [h.peek_eq_head?, q.contents_head?, h.getElem?_rd]

/-- `POP` on equal cursors (R114). -/
theorem RingBuffer.pop_of_eq (h : q.wr = q.rd) : q.pop = (q, none) := by
  rcases q.pop_cases with ⟨-, hp⟩ | ⟨hne, -⟩
  · exact hp
  · exact absurd h (of_decide_eq_false hne)

/-- `POP` on cursors that differ (R114). -/
theorem RingBuffer.pop_of_ne (h : q.wr ≠ q.rd) :
    q.pop = (q.withRemoved 1, some (q.readSlot q.rd)) := by
  rcases q.pop_cases with ⟨he, -⟩ | ⟨-, hp⟩
  · exact absurd (of_decide_eq_true he) h
  · exact hp

/-- `POP_BULK` of more than is held (R116). -/
theorem RingBuffer.popBulk_of_lt {n : Nat} (h : q.occ < n) : q.popBulk n = (q, none) := if_pos h

/-- `POP_BULK` of no more than is held (R116). -/
theorem RingBuffer.popBulk_of_le {n : Nat} (h : n ≤ q.occ) :
    q.popBulk n = (q.withRemoved n, some (q.memRead q.rd n)) := if_neg (Nat.not_lt.mpr h)

end ring

/-! ### A ring primitive executed by itself -/

/-- One ring of a channel record: the ring that stands there, and the record with another in its
place. -/
structure Channel.RingAt (c : Channel) (α : Type) where
  ring : RingBuffer α
  put : RingBuffer α → Channel
  put_ring : put ring = c

/-- The ring `rx` of a channel record. -/
def Channel.rxAt (c : Channel) : c.RingAt Byte where
  ring := c.rx
  put q := { c with rx := q }
  put_ring := rfl

/-- The ring `tx` of a channel record. -/
def Channel.txAt (c : Channel) : c.RingAt Byte where
  ring := c.tx
  put q := { c with tx := q }
  put_ring := rfl

/-- The ring `ts` of a channel record. -/
def Channel.tsAt (c : Channel) : c.RingAt TimestampRecord where
  ring := c.ts
  put q := { c with ts := q }
  put_ring := rfl

/-- Executed by itself, `i` leaves the ring `r.1` in place of the ring at `p`, returns `r.2`, and does
nothing else. -/
def Channel.RingAt.Runs {α β : Type} {c : Channel} (p : c.RingAt α) (s : State) (ch : Byte)
    (i : Instr) (ret : β → OpReturn) (r : RingBuffer α × β) : Prop :=
  exec i s = .next ((s.updated ch.toNat (p.put r.1) []).returned (ret r.2))

section runs
variable {α β : Type} {s : State} {ch : Byte} {c : Channel} {p : c.RingAt α} {i : Instr}
  {ret : β → OpReturn} {r : RingBuffer α × β} {q : RingBuffer α} {y : β}

/-- An operation on a ring runs as its work on the channel's lane says. -/
theorem runs_of_laneOp (hc : s.ch[ch.toNat]? = some c) (hi : i.channel = some ch)
    (hop : laneOp s.fClk i (s.laneOf ch c) =
      ({ s.laneOf ch c with chan := p.put r.1 }, none, some (ret r.2))) : p.Runs s ch i ret r := by
  rw [Channel.RingAt.Runs, exec_of_channel hi hc, hop, State.finish_returning,
    State.commit_eq, State.withDraws_self]

/-- A primitive that leaves its ring only returns its value. -/
theorem Channel.RingAt.Runs.kept (h : p.Runs s ch i ret r) (hc : s.ch[ch.toNat]? = some c)
    (hr : r = (p.ring, y)) : exec i s = .next (s.returned (ret y)) := by
  rwa [Channel.RingAt.Runs, hr, p.put_ring, State.updated_self hc] at h

/-- A primitive that changes its ring returns its value and changes nothing else. -/
theorem Channel.RingAt.Runs.changed (h : p.Runs s ch i ret r) (hr : r = (q, y)) :
    exec i s = .next ((s.updated ch.toNat (p.put q) []).returned (ret y)) := by
  subst hr
  exact h

end runs

namespace Channel.RingAt

section primitives
variable {α : Type} {s : State} {ch : Byte} {c : Channel} {p : c.RingAt α} {i : Instr}

/-- `PUSH` by itself (R113). -/
theorem Runs.push {x : α} (h : p.Runs s ch i .bool (p.ring.push x))
    (hc : s.ch[ch.toNat]? = some c) : exec i s = .next
      (if p.ring.occ = p.ring.cap then s.returned (.bool false)
       else (s.updated ch.toNat (p.put (p.ring.withPushed x)) []).returned (.bool true)) := by
  rcases p.ring.push_cases x with ⟨hfull, hp⟩ | ⟨hroom, hp⟩
  · rw [if_pos hfull]
    exact h.kept hc hp
  · rw [if_neg hroom]
    exact h.changed hp

/-- `PUSH_BULK` by itself of elements that fit (R115). -/
theorem Runs.pushBulk {v : List α} (h : p.Runs s ch i .bool (p.ring.pushBulk v)) (hok : p.ring.Ok)
    (hv : v.length ≤ p.ring.cap - p.ring.occ) : ∃ q, p.ring.HasStored v q ∧
      exec i s = .next ((s.updated ch.toNat (p.put q) []).returned (.bool true)) :=
  ⟨_, RingBuffer.hasStored_pushed hok hv, h.changed (RingBuffer.pushBulk_of_le hv)⟩

variable [Inhabited α]

/-- `POP` by itself of a ring that holds something (R114). -/
theorem Runs.pop {ret : Option α → OpReturn} (h : p.Runs s ch i ret p.ring.pop) (hok : p.ring.Ok)
    (hne : p.ring.wr ≠ p.ring.rd) : ∃ x, p.ring.store[p.ring.rd % p.ring.cap]? = some x ∧
      exec i s = .next ((s.updated ch.toNat (p.put (p.ring.withRemoved 1)) []).returned
        (ret (some x))) :=
  ⟨_, hok.getElem?_rd, h.changed (RingBuffer.pop_of_ne hne)⟩

/-- `POP_BULK` by itself of no more than is held (R116). -/
theorem Runs.popBulk {ret : Option (List α) → OpReturn} {n : Nat}
    (h : p.Runs s ch i ret (p.ring.popBulk n)) (hok : p.ring.Ok) (hn : n ≤ p.ring.occ) :
    ∃ v, p.ring.SlotsAre p.ring.rd n v ∧
      exec i s = .next ((s.updated ch.toNat (p.put (p.ring.withRemoved n)) []).returned
        (ret (some v))) :=
  ⟨_, RingBuffer.slotsAre_memRead hok _ n, h.changed (RingBuffer.popBulk_of_le hn)⟩

/-- The three queries by themselves (R117, R118, R119). -/
theorem queries {count empty peek : Instr} {ret : Option α → OpReturn}
    (hcount : p.Runs s ch count .count (p.ring, p.ring.occ))
    (hempty : p.Runs s ch empty .bool (p.ring, p.ring.empty))
    (hpeek : p.Runs s ch peek ret (p.ring, p.ring.peek))
    (hc : s.ch[ch.toNat]? = some c) (hok : p.ring.Ok) :
    (∃ n, exec count s = .next (s.returned (.count n)) ∧
      (n : Int) = ((p.ring.wr : Int) - p.ring.rd) % (2 * p.ring.cap)) ∧
    exec empty s = .next (s.returned (.bool (decide (p.ring.occ = 0)))) ∧
    exec peek s = .next (s.returned
      (ret (if p.ring.occ = 0 then none else p.ring.store[p.ring.rd % p.ring.cap]?))) := by
  rw [← hok.empty_eq_decide, ← hok.peek_eq]
  exact ⟨⟨_, hcount.kept hc rfl, hok.natCast_occ⟩, hempty.kept hc rfl, hpeek.kept hc rfl⟩

end primitives

end Channel.RingAt

/-- Settles O14: `PUSH` on each of the three rings. -/
theorem pushResult : Obligations.PushResult := by
  intro s ch c hc
  exact ⟨fun b => (runs_of_laneOp (p := c.rxAt) hc rfl rfl).push hc,
    fun b => (runs_of_laneOp (p := c.txAt) hc rfl rfl).push hc,
    fun r => (runs_of_laneOp (p := c.tsAt) hc rfl rfl).push hc⟩

/-- Settles O15: `POP` on each of the three rings, with equal and with different cursors. -/
theorem popResult : Obligations.PopResult := by
  intro s ch c hc hok
  have hrx : c.rxAt.Runs s ch (.pop ch .rx) .byte c.rx.pop := runs_of_laneOp hc rfl rfl
  have htx : c.txAt.Runs s ch (.pop ch .tx) .byte c.tx.pop := runs_of_laneOp hc rfl rfl
  have hts : c.tsAt.Runs s ch (.pop ch .ts) .record c.ts.pop := runs_of_laneOp hc rfl rfl
  exact ⟨fun he => hrx.kept hc (RingBuffer.pop_of_eq he),
    fun he => htx.kept hc (RingBuffer.pop_of_eq he),
    fun he => hts.kept hc (RingBuffer.pop_of_eq he),
    hrx.pop hok.rx, htx.pop hok.tx, hts.pop hok.ts⟩

/-- Settles O16: `PUSH_BULK` on each of the three rings, of elements that do not fit and that fit. -/
theorem pushBulkResult : Obligations.PushBulkResult := by
  intro s ch c hc hok
  have hrx (v) : c.rxAt.Runs s ch (.pushBulk ch (.rx v)) .bool (c.rx.pushBulk v) :=
    runs_of_laneOp hc rfl rfl
  have htx (v) : c.txAt.Runs s ch (.pushBulk ch (.tx v)) .bool (c.tx.pushBulk v) :=
    runs_of_laneOp hc rfl rfl
  have hts (v) : c.tsAt.Runs s ch (.pushBulk ch (.ts v)) .bool (c.ts.pushBulk v) :=
    runs_of_laneOp hc rfl rfl
  exact ⟨fun v hv => (hrx v).kept hc (RingBuffer.pushBulk_of_lt hv),
    fun v hv => (htx v).kept hc (RingBuffer.pushBulk_of_lt hv),
    fun v hv => (hts v).kept hc (RingBuffer.pushBulk_of_lt hv),
    fun v => (hrx v).pushBulk hok.rx, fun v => (htx v).pushBulk hok.tx,
    fun v => (hts v).pushBulk hok.ts⟩

/-- Settles O17: `POP_BULK` on each of the three rings, of more than is held and of no more. -/
theorem popBulkResult : Obligations.PopBulkResult := by
  intro s ch c n hc hok
  have hrx : c.rxAt.Runs s ch (.popBulk ch .rx n) .bytes (c.rx.popBulk n) := runs_of_laneOp hc rfl rfl
  have htx : c.txAt.Runs s ch (.popBulk ch .tx n) .bytes (c.tx.popBulk n) := runs_of_laneOp hc rfl rfl
  have hts : c.tsAt.Runs s ch (.popBulk ch .ts n) .records (c.ts.popBulk n) :=
    runs_of_laneOp hc rfl rfl
  exact ⟨fun hn => hrx.kept hc (RingBuffer.popBulk_of_lt hn),
    fun hn => htx.kept hc (RingBuffer.popBulk_of_lt hn),
    fun hn => hts.kept hc (RingBuffer.popBulk_of_lt hn),
    hrx.popBulk hok.rx, htx.popBulk hok.tx, hts.popBulk hok.ts⟩

/-- Settles O18: the queries leave the ring they are asked about. -/
theorem ringQueriesResult : Obligations.RingQueriesResult := by
  intro s ch c hc hok ring
  cases ring with
  | rx =>
    exact Channel.RingAt.queries (p := c.rxAt) (runs_of_laneOp hc rfl rfl)
      (runs_of_laneOp hc rfl rfl) (runs_of_laneOp hc rfl rfl) hc hok.rx
  | tx =>
    exact Channel.RingAt.queries (p := c.txAt) (runs_of_laneOp hc rfl rfl)
      (runs_of_laneOp hc rfl rfl) (runs_of_laneOp hc rfl rfl) hc hok.tx
  | ts =>
    exact Channel.RingAt.queries (p := c.tsAt) (runs_of_laneOp hc rfl rfl)
      (runs_of_laneOp hc rfl rfl) (runs_of_laneOp hc rfl rfl) hc hok.ts

/-! ### The transmit side -/

section transmit
variable {s : State} {ch : Byte} {c : Channel}

/-- Work on a lane that changes its record and makes calls, as an update of the state (R36, R38). -/
theorem State.onLane_of_calls {d : Channel} {calls : List DrvCall} {f : Lane → Lane}
    (hc : s.ch[ch.toNat]? = some c)
    (hf : f (s.laneOf ch c) = { s.laneOf ch c with chan := d, calls := calls }) :
    s.onLane ch f = s.updated ch.toNat d calls := by
  rw [State.onLane_of_channel hc, hf, State.commit_eq]
  exact congrArg (State.updated · _ _ _) (s.withDraws_self _)

/-- `TX_PUMP` by itself (R143). -/
theorem exec_txPump_of_channel (hc : s.ch[ch.toNat]? = some c) (hok : c.tx.Ok) :
    exec (.txPump ch) s = .next
      (s.updated ch.toNat c.transmitted (c.transmitCalls (c.tx.readSlot c.tx.rd))) := by
  rw [exec_of_channel rfl hc, laneOp, txPump_eq hok, State.finish_silent, State.commit_eq,
    State.withDraws_self, List.nil_append]

/-- The commit of a send of at least one byte arms the transmitter (R171, R173). -/
theorem sendAll_of_pos {v : List Byte} (hv : 0 < v.length) (l : Lane) : sendAll v l =
    { l with
      chan := { l.chan with tx := (l.chan.tx.memWrite l.chan.tx.wr v).publishWr v.length
                            txArmed := true }
      calls := l.calls ++ l.chan.armCalls } := by
  rw [sendAll, publishSend, if_pos hv, armTx_eq]
  rfl

/-- The commit of an empty send changes nothing (R173). -/
theorem sendAll_nil {l : Lane} (h : l.chan.tx.Ok) : sendAll [] l = l := by
  obtain ⟨-, -, hwr, -⟩ := h
  have hsame : l.chan.tx.publishWr 0 = l.chan.tx := by
    rw [RingBuffer.publishWr, RingBuffer.advance, Nat.add_zero, Nat.mod_eq_of_lt hwr]
  exact congrArg (fun q => { l with chan := { l.chan with tx := q } }) hsame

end transmit

/-- Settles O28: the two forms of what the pump does to the record, by the occupied count. -/
theorem txPumpResult : Obligations.TxPumpResult := by
  intro s ch c hc hok
  have hexec := exec_txPump_of_channel hc hok.tx
  rw [Channel.transmitted, Channel.transmitCalls] at hexec
  refine ⟨fun hne => ⟨_, hok.tx.getElem?_rd, ?_⟩, fun h0 => ?_⟩
  · rwa [if_neg hne, if_neg hne] at hexec
  · rwa [if_pos h0, if_pos h0] at hexec

/-- Settles O26: the bytes are stored, published and the transmitter armed, or nothing is to be stored,
or they do not fit. -/
theorem sendBytesResult : Obligations.SendBytesResult := by
  intro s ch v c hc hr hok
  refine ⟨fun hpos hroom => ⟨_, RingBuffer.hasStored_pushed hok.tx hroom, ?_⟩, ?_, fun hfull =>
    exec_sends_full (.bytes v) hc hr hok.tx hfull⟩
  · rw [exec_sends_room (.bytes v) hc hr hok.tx hroom,
      State.onLane_of_calls hc (sendAll_of_pos hpos (s.laneOf ch c))]
    rfl
  · rintro rfl
    rw [exec_sends_room (.bytes []) hc hr hok.tx (Nat.zero_le _),
      State.onLane_of_record hc (sendAll_nil (l := s.laneOf ch c) hok.tx), State.updated_self hc]
    rfl

/-! ### The receive side -/

/-- Settles O29: a capacity is below `2 ^ 16`, so the count fits the value field. -/
theorem availableResult : Obligations.AvailableResult := by
  intro s ch c hc hr hok
  obtain ⟨⟨-, hcap⟩, -, -, hle, -⟩ := hok.rx
  have hvalue : (BitVec.ofNat 16 c.rx.occ).toNat = c.rx.occ :=
    Nat.mod_eq_of_lt (lt_of_le_of_lt (hle.trans hcap) (by decide))
  exact ⟨BitVec.ofNat 16 c.rx.occ, hvalue, hvalue.trans_le hle, exec_available_ready hc hr⟩

/-- Settles O30: the head of the RX ring is the answer. -/
theorem readByteResult : Obligations.ReadByteResult := by
  intro s ch c hc hr hok
  refine ⟨fun hne => ?_, fun h0 =>
    exec_reads_short .byte hc hr hok.rx (Nat.lt_one_iff.mpr h0)⟩
  obtain ⟨b, hslot, hhead⟩ := hok.rx.exists_head hne
  obtain ⟨later, hcont⟩ := List.head?_eq_some_iff.mp hhead
  have hanswer : ReadKind.one.answer (c.rx.contents.take 1) = .done (b.setWidth 16) [] := by
    rw [hcont]
    rfl
  have hvalue : (b.setWidth 16).toNat = b.toNat := BitVec.toNat_setWidth_of_le (by decide)
  refine ⟨b, b.setWidth 16, hslot, hvalue, ?_⟩
  rw [← State.onLane_of_record hc (f := publishRead 1) (d := { c with rx := c.rx.withRemoved 1 }) rfl]
  have hexec := exec_reads_enough .byte hc hr hok.rx (Nat.pos_of_ne_zero hne)
  rw [ReadKind.count, hanswer] at hexec
  exact hexec

end Sys2Proof.Machine

/-!
SUPPORT and statements settled: the channel lifecycle (R130 to R135), and what a step keeps of every channel.
-/

namespace Sys2Proof.Machine

/-! ### `INIT` -/

/-- The lifecycle states in which `INIT` configures the channel (R130). -/
abbrev Channel.Startable (c : Channel) : Prop :=
  c.status = .uninitialized ∨ c.status = .initError

/-- What `INIT` can make of a channel record (R130, R134). -/
inductive Channel.InitStep (c : Channel) : Channel → Prop
  | refused : c.InitStep c
  | succeeded (hs : c.Startable) (o : InitOptions) : c.InitStep (readyChannel o c)
  | failed (hs : c.Startable) {st : Lifecycle} (hst : st = .initError ∨ st = .fault) :
      c.InitStep { c with status := st }

section init
variable {l : Lane} {s : State} {ch : Byte} {c : Channel}

theorem initBody_of_closed (h : l.chan.status = .ready ∨ l.chan.status = .fault) (o : InitOptions)
    (f : Word) : initBody o f l = (l, .raise .initError) := by
  rcases h with h | h <;> rw [initBody, h]

theorem initBody_of_startable (h : l.chan.Startable) (o : InitOptions) (f : Word) :
    initBody o f l = initConfigured o (l.configure o f).1 (l.configure o f).2 := by
  rcases h with h | h <;> rw [initBody, h]

theorem Channel.startable_or_closed (c : Channel) :
    c.Startable ∨ c.status = .ready ∨ c.status = .fault := by
  unfold Channel.Startable
  cases c.status <;> simp

theorem initBody_initStep (o : InitOptions) (f : Word) (l : Lane) :
    l.chan.InitStep (initBody o f l).1.chan := by
  rcases l.chan.startable_or_closed with hs | hclosed
  · rw [initBody_of_startable hs]
    cases (l.configure o f).1 with
    | ok => exact .succeeded hs o
    | rejected => exact .failed hs (.inl rfl)
    | failed => exact .failed hs (.inr rfl)
  · rw [initBody_of_closed hclosed]
    exact .refused

/-- The lane of a channel once `configure` has answered `r` (R133, R134). -/
def State.configuredLane (s : State) (ch : Byte) (c : Channel) (o : InitOptions) (r : CfgResult) :
    Lane :=
  { s.laneOf ch c with
    draws := (s.drawsAt ch.toNat).tookConfigure ch.toNat
    calls := [.configure o.baud o.charLength o.parity o.stopBits s.fClk r] }

theorem State.laneOf_configure (s : State) (ch : Byte) (c : Channel) (o : InitOptions) :
    (s.laneOf ch c).configure o s.fClk =
      (s.nextConfigure ch.toNat, s.configuredLane ch c o (s.nextConfigure ch.toNat)) := rfl

/-- `INIT` on a channel it configures: the configure answer decides the rest (R130, R134). -/
theorem exec_init_of_startable (hc : s.ch[ch.toNat]? = some c) (hs : c.Startable) (o : InitOptions)
    {r : CfgResult} (hr : s.nextConfigure ch.toNat = r) :
    exec (.init ch o) s = .next
      ((s.commit (initConfigured o r (s.configuredLane ch c o r)).1).respond ch
        (initConfigured o r (s.configuredLane ch c o r)).2) := by
  rw [exec_of_channel rfl hc, laneOp, initBody_of_startable (l := s.laneOf ch c) hs,
    State.laneOf_configure, hr]
  exact congrArg _ (s.finish_answering ch _ _)

end init

/-- Settles O20: the branch of `INIT` that `CFG_OK` takes. -/
theorem initSucceeds : Obligations.InitSucceeds := by
  intro s ch o c hc hs hr
  rw [exec_init_of_startable hc hs o hr]
  rfl

/-- Settles O21: `INIT` on a closed channel, and the two branches of another answer than `CFG_OK`. -/
theorem initFails : Obligations.InitFails := by
  intro s ch o c hc
  refine ⟨fun hclosed => ?_, fun hs r hr hne => ?_⟩
  · exact congrArg Host.Outcome.next
      (State.command_only_answers hc (initBody_of_closed (l := s.laneOf ch c) hclosed o s.fClk))
  · rw [exec_init_of_startable hc hs o hr]
    cases r with
    | ok => exact absurd rfl hne
    | rejected => rfl
    | failed => rfl

/-! ### A channel that is not Ready -/

/-- Settles O23: the Ready check of the data commands, and what the operations without one do. -/
theorem notReadyChannels : Obligations.NotReadyChannels := by
  intro s ch c hc hn
  have hraise (body : Lane → Lane × Reply) :
      .next (s.command ch (whenReady body)) =
        (.next (s.answered ch .notReady 0 []) : Host.Outcome State Fault Refusal) :=
    congrArg _ (State.command_whenReady_of_not hc hn body)
  have hmask : ((maskWords (s.ch.map pendingBit)).getD (ch.toNat / 32) 0).getLsbD
      (ch.toNat % 32) = false := by
    rw [getLsbD_maskWords]
    simp [hc, pendingBit, hn]
  have hevent : exec (.dispatch ch) s = .next s :=
    eventWithoutReadyChannelDoesNothing s ch fun d hd => by
      obtain rfl := Option.some.inj (hc.symm.trans hd)
      exact hn
  exact ⟨fun _ => hraise _, fun _ => hraise _, hraise _, hraise _, fun _ => hraise _, hraise _,
    hraise _, statusResult s ch c hc, ⟨_, _, rfl, hmask⟩, hevent⟩

/-! ### What a step relates -/

/-- `exec_relates` for a step, which runs an operation of a port on one channel or leaves the table
alone. -/
theorem step_relates {P : Channel → Channel → Prop} (hrefl : ∀ c, P c c) {s t : State}
    (hlane : ∀ i : Instr, i.requestable = true →
      ∀ l : Lane, P l.chan (laneOp s.fClk i l).1.chan) (h : step s = .next t) :
    t.ch.length = s.ch.length ∧
      ∀ (k : Nat) (c d : Channel), s.ch[k]? = some c → t.ch[k]? = some d → P c d := by
  rcases step_cases h with ⟨buf, rest, i, -, hreq, he⟩ | ⟨buf, rest, rs, -, rfl⟩
  · exact exec_relates (s := { s with cmdBuf := buf, stimulus := rest }) hrefl (hlane i hreq) he
  · refine ⟨rfl, fun k c d hc hd => ?_⟩
    obtain rfl := Option.some.inj (hc.symm.trans hd)
    exact hrefl c

/-- A property of channel records that every operation of the ports keeps on its lane is kept by every
step on every channel. -/
theorem step_keeps_channels {Q : Channel → Prop} {s t : State}
    (hlane : ∀ i : Instr, i.requestable = true →
      ∀ l : Lane, Q l.chan → Q (laneOp s.fClk i l).1.chan)
    (h : step s = .next t) (hs : ∀ c ∈ s.ch, Q c) : ∀ d ∈ t.ch, Q d := by
  obtain ⟨hlen, hrel⟩ := step_relates (P := fun c d => Q c → Q d) (fun _ => id) hlane h
  intro d hd
  obtain ⟨k, hk, rfl⟩ := List.getElem_of_mem hd
  have hk' : k < s.ch.length := hlen ▸ hk
  exact hrel k _ _ (List.getElem?_eq_getElem hk') (List.getElem?_eq_getElem hk)
    (hs _ (List.getElem_mem hk'))

/-! ### The lifecycle -/

/-- R131's moves of the lifecycle status. -/
abbrev Channel.MovesForward (c d : Channel) : Prop :=
  d.status = c.status ∨ (c.Startable ∧ d.status ≠ .uninitialized)

theorem Channel.InitStep.movesForward {c d : Channel} (h : c.InitStep d) : c.MovesForward d := by
  cases h with
  | refused => exact .inl rfl
  | succeeded hs o => exact .inr ⟨hs, nofun⟩
  | failed hs hst => exact .inr ⟨hs, by rcases hst with rfl | rfl <;> exact nofun⟩

/-- R226 permits every command to the foreground. -/
theorem permits_foreground_of_isCommand {i : Instr} (h : i.isCommand = true) :
    permits .foreground i = true := by
  revert h
  cases i <;> simp [permits, Instr.isCommand]

/-- Only `INIT` moves the lifecycle: events and the other commands keep the status (R130). -/
theorem laneOp_movesForward {i : Instr} (hreq : i.requestable = true) (f : Word) (l : Lane) :
    l.chan.MovesForward (laneOp f i l).1.chan := by
  rcases Instr.isCommand_or_event hreq with hcmd | ⟨id, rfl⟩
  · by_cases hinit : ∃ ch o, i = .init ch o
    · obtain ⟨ch, o, rfl⟩ := hinit
      exact (initBody_initStep o f l).movesForward
    · have hother : ∀ ch o, i ≠ .init ch o := fun ch o he => hinit ⟨ch, o, he⟩
      exact .inl (laneOp_keepsInterrupt (permits_foreground_of_isCommand hcmd) hother f l).config.status
  · exact .inl (laneOp_keepsForeground rfl f l).config.status

/-- Settles O22, by what each operation of the ports does to the status on its lane. -/
theorem lifecycleMovesOnlyForward : Obligations.LifecycleMovesOnlyForward := by
  intro s t k c d h
  exact (step_relates (P := Channel.MovesForward) (fun _ => .inl rfl)
    (fun i hreq => laneOp_movesForward hreq s.fClk) h).2 k c d

end Sys2Proof.Machine

/-!
SUPPORT and statement settled: what an operation of the ports makes of the record of its channel, and the
invariants of the channel record (R132, R146, R147, R160, R164, R166).
-/

namespace Sys2Proof.Machine

/-! ### What an operation of the ports makes of a channel record -/

/-- What an operation of the ports can make of the record of its channel, in the terms of Safety: beyond
`INIT`, nothing on a channel that is not Ready (R132), and on a Ready one a send, a read, or an event. -/
inductive Channel.PortStep (c : Channel) : Channel → Prop
  | kept : c.PortStep c
  | init {d : Channel} (h : c.InitStep d) : c.PortStep d
  | sent (hr : c.status = .ready) (tx : RingBuffer Byte) (armed : Bool) :
      c.PortStep { c with tx := tx, txArmed := armed }
  | read (hr : c.status = .ready) {n : Nat} (hn : n ≤ c.rx.occ) :
      c.PortStep { c with rx := c.rx.withRemoved n }
  | recordRead (hr : c.status = .ready) (hon : c.tsEnable = true) {n : Nat} (hn : n ≤ c.rx.occ)
      (hne : c.ts.occ ≠ 0) :
      c.PortStep { c with rx := c.rx.withRemoved n, ts := c.ts.withRemoved 1 }
  | event (hr : c.status = .ready) {d : Channel} (ht : d = c ∨ d = c.transmitted) : c.PortStep d
  | eventReceived (hr : c.status = .ready) {d : Channel} (ht : d = c ∨ d = c.transmitted) (b : Byte)
      (now : Word) : c.PortStep (d.received b now)

section portStep
variable {l : Lane}

/-- Behind the Ready check only what the body does on a Ready channel counts. -/
theorem whenReady_portStep {body : Lane → Lane × Reply}
    (h : l.chan.status = .ready → l.chan.PortStep (body l).1.chan) :
    l.chan.PortStep (whenReady body l).1.chan := by
  by_cases hr : l.chan.status = .ready
  · rw [whenReady_of_ready hr]
    exact h hr
  · rw [whenReady_of_not hr]
    exact .kept

theorem sendBytesBody_portStep (hr : l.chan.status = .ready) (v : List Byte) :
    l.chan.PortStep (sendBytesBody v l).1.chan := by
  unfold sendBytesBody
  dsimp only
  split
  · split
    · rw [armTx_eq]
      exact .sent hr _ _
    · exact .sent hr _ _
  · exact .kept

theorem sendByteBody_portStep (hr : l.chan.status = .ready) (hok : l.chan.tx.Ok) (b : Byte) :
    l.chan.PortStep (sendByteBody b l).1.chan := by
  rw [sendByteBody_eq hok]
  exact sendBytesBody_portStep hr [b]

theorem readByteBody_portStep (hr : l.chan.status = .ready) (hok : l.chan.rx.Ok) :
    l.chan.PortStep (readByteBody l).1.chan := by
  rcases Nat.lt_or_ge l.chan.rx.occ 1 with hshort | henough
  · rw [readByteBody_short hok hshort]
    exact .kept
  · rw [readByteBody_enough hok henough]
    exact .read hr henough

theorem readBytesBody_portStep (hr : l.chan.status = .ready) (n : Half) :
    l.chan.PortStep (readBytesBody n l).1.chan := by
  rcases Nat.lt_or_ge l.chan.rx.occ n.toNat with hshort | henough
  · rw [readBytesBody_short hshort]
    exact .kept
  · rw [readBytesBody_enough henough]
    exact .read hr henough

theorem tsReadRecord_portStep (hr : l.chan.status = .ready) (hok : l.chan.ts.Ok)
    (hon : l.chan.tsEnable = true) (hne : l.chan.ts.occ ≠ 0) (rec : TimestampRecord) :
    l.chan.PortStep (tsReadRecord rec l).1.chan := by
  have hempty : l.chan.ts.empty = false := by rw [hok.empty_eq_decide, decide_eq_false hne]
  rcases Nat.lt_or_ge l.chan.rx.occ rec.length.toNat with hshort | henough
  · rw [tsReadRecord_short hshort]
    exact .kept
  · rw [tsReadRecord_enough hempty henough]
    exact .recordRead hr hon henough hne

theorem tsReadBody_portStep (hr : l.chan.status = .ready) (hok : l.chan.ts.Ok) :
    l.chan.PortStep (tsReadBody l).1.chan := by
  cases hon : l.chan.tsEnable with
  | false =>
    rw [tsReadBody_none hok (.inl hon)]
    exact .kept
  | true =>
    by_cases h0 : l.chan.ts.occ = 0
    · have hnil : l.chan.ts.contents = [] :=
        List.length_eq_zero_iff.mp (l.chan.ts.contents_length.trans h0)
      rw [tsReadBody_none hok (.inr hnil)]
      exact .kept
    · obtain ⟨rec, -, hhead⟩ := hok.exists_head h0
      rw [tsReadBody_record hok hon hhead]
      exact tsReadRecord_portStep hr hok hon h0 rec

theorem dispatchReady_portStep (hr : l.chan.status = .ready) (hok : l.chan.RingsOk) :
    l.chan.PortStep (dispatchReady l).chan := by
  rw [dispatchReady_eq hok.rx hok.tx]
  dsimp only
  split
  · split
    · exact .eventReceived hr (.inr rfl) _ _
    · exact .eventReceived hr (.inl rfl) _ _
  · split
    · exact .event hr (.inr rfl)
    · exact .kept

/-- Everything an operation of the ports can make of the record of its channel. -/
theorem laneOp_portStep {i : Instr} (hreq : i.requestable = true) (f : Word)
    (hok : l.chan.RingsOk) : l.chan.PortStep (laneOp f i l).1.chan := by
  cases i with
  | init ch o => exact .init (initBody_initStep o f l)
  | sendByte ch b => exact whenReady_portStep fun hr => sendByteBody_portStep hr hok.tx b
  | sendBytes ch v => exact whenReady_portStep fun hr => sendBytesBody_portStep hr v
  | available ch => exact whenReady_portStep (body := availableBody) fun _ => .kept
  | readByte ch => exact whenReady_portStep fun hr => readByteBody_portStep hr hok.rx
  | readBytes ch n => exact whenReady_portStep fun hr => readBytesBody_portStep hr n
  | tsAvailable ch => exact whenReady_portStep (body := tsAvailableBody) fun _ => .kept
  | tsAvailableAll => exact .kept
  | tsRead ch => exact whenReady_portStep fun hr => tsReadBody_portStep hr hok.ts
  | status ch => exact .kept
  | dispatch id =>
    rw [laneOp]
    dsimp only
    split
    · exact dispatchReady_portStep ‹_› hok
    · exact .kept
  | _ => nomatch hreq

end portStep

/-! ### The invariants, change by change -/

/-- The invariants of the record that are not about the lifecycle (R146, R147, R160, R164, R166). -/
structure Channel.ServiceOk (c : Channel) : Prop where
  oneByte : c.OneByteWhenEmptyPolicy
  noTimestamps : c.NoTimestampsWhenOff
  overflow : c.OverflowConsistent
  records : c.RecordsOk

/-- Storing one element in a ring with room: well-formedness, occupied count and abstract value. -/
theorem RingBuffer.Ok.withPushed_spec {α : Type} [Inhabited α] {q : RingBuffer α} (h : q.Ok)
    (hroom : q.occ ≠ q.cap) (x : α) :
    (q.withPushed x).Ok ∧ (q.withPushed x).occ = q.occ + 1 ∧
      (q.withPushed x).contents = q.contents ++ [x] := by
  obtain ⟨-, -, -, hle, -⟩ := id h
  have hfit : [x].length ≤ q.cap - q.occ := by rw [List.length_singleton]; omega
  exact (RingBuffer.hasStored_withPushed h x).spec h hfit

/-- The run length after one more byte is never 0 (R166). -/
theorem Channel.nextRunLength_ne_zero (c : Channel) : c.nextRunLength ≠ 0 := by
  unfold Channel.nextRunLength
  split
  · decide
  · rw [← satInc_eq]
    exact satInc_ne_zero _

/-- The record a marker emits has a length and points into the RX ring (R164, R166). -/
theorem Channel.emittedRecord_ok {c : Channel} (hok : c.rx.Ok) (now : Word) :
    (c.emittedRecord now).length ≠ 0 ∧ (c.emittedRecord now).streamPosition.toNat < c.rx.cap := by
  obtain ⟨⟨hpos, -⟩, -⟩ := hok
  have hlt : c.rx.wr % c.rx.cap < c.rx.cap := Nat.mod_lt _ hpos
  exact ⟨c.nextRunLength_ne_zero, (Nat.mod_le _ _).trans_lt hlt⟩

section changes
variable {c : Channel}

theorem Channel.ServiceOk.read (h : c.ServiceOk) (hok : c.rx.Ok) {n : Nat} (hn : n ≤ c.rx.occ) :
    ({ c with rx := c.rx.withRemoved n } : Channel).ServiceOk := by
  obtain ⟨-, hocc, -⟩ := RingBuffer.withRemoved_spec hok hn
  refine ⟨fun hp => ?_, h.noTimestamps, h.overflow, h.records⟩
  obtain ⟨hle, hflag, hcount⟩ := h.oneByte hp
  exact ⟨hocc.trans_le ((Nat.sub_le _ _).trans hle), hflag, hcount⟩

theorem Channel.ServiceOk.recordRemoved (h : c.ServiceOk) (hok : c.ts.Ok) (hon : c.tsEnable = true)
    (hne : c.ts.occ ≠ 0) : ({ c with ts := c.ts.withRemoved 1 } : Channel).ServiceOk := by
  obtain ⟨-, -, hcont⟩ := RingBuffer.withRemoved_spec hok (Nat.one_le_iff_ne_zero.mpr hne)
  refine ⟨h.oneByte, fun hoff => absurd (hon.symm.trans hoff) nofun, h.overflow, fun r hr => ?_⟩
  rw [hcont] at hr
  exact h.records r (List.mem_of_mem_drop hr)

theorem Channel.ServiceOk.transmitted (h : c.ServiceOk) : c.transmitted.ServiceOk := by
  unfold Channel.transmitted
  split <;> exact ⟨h.oneByte, h.noTimestamps, h.overflow, h.records⟩

/-- A discarded byte: only ALWAYS_DRAIN discards (R145, R146, R147). -/
theorem Channel.ServiceOk.overflowed (h : c.ServiceOk) (hp : c.policy = .alwaysDrain) :
    c.overflowed.ServiceOk := by
  have hcount : c.overflowed.ovfCount ≠ 0 := by
    rw [Channel.overflowed, ← satInc_eq]
    exact satInc_ne_zero _
  exact ⟨fun hp' => absurd (hp.symm.trans hp') nofun, h.noTimestamps, iff_of_true rfl hcount,
    h.records⟩

/-- A byte observed, which happens with timestamps on only (R160, R161). -/
theorem Channel.ServiceOk.observed (h : c.ServiceOk) (hrx : c.rx.Ok) (hts : c.ts.Ok)
    (hon : c.tsEnable = true) (b : Byte) (now : Word) : (c.observed b now).ServiceOk := by
  have hoff {p : Prop} (he : c.tsEnable = false) : p := absurd (hon.symm.trans he) nofun
  unfold Channel.observed
  split
  · exact ⟨h.oneByte, fun he => hoff he, h.overflow, h.records⟩
  · split
    · exact ⟨h.oneByte, fun he => hoff he, h.overflow, h.records⟩
    · next hroom =>
      obtain ⟨-, -, hcont⟩ := hts.withPushed_spec hroom (c.emittedRecord now)
      refine ⟨h.oneByte, fun he => hoff he, h.overflow, fun r hr => ?_⟩
      rcases List.mem_append.mp (hcont ▸ hr) with hold | hnew
      · exact h.records r hold
      · obtain rfl := List.mem_singleton.mp hnew
        exact Channel.emittedRecord_ok hrx now

/-- A byte accepted: under DRAIN_WHEN_EMPTY the ring was empty (R145, R147, R160). -/
theorem Channel.ServiceOk.accepted (h : c.ServiceOk) (hrx : c.rx.Ok) (hts : c.ts.Ok)
    (hroom : c.rx.occ ≠ c.rx.cap) (hp : c.policy = .drainWhenEmpty → c.rx.occ = 0) (b : Byte)
    (now : Word) : (c.accepted b now).ServiceOk := by
  obtain ⟨hok, hocc, -⟩ := hrx.withPushed_spec hroom b
  have hpushed : ({ c with rx := c.rx.withPushed b } : Channel).ServiceOk := by
    refine ⟨fun hpol => ?_, h.noTimestamps, h.overflow, h.records⟩
    obtain ⟨-, hflag, hcount⟩ := h.oneByte hpol
    exact ⟨by rw [hocc, hp hpol], hflag, hcount⟩
  unfold Channel.accepted
  split
  · exact hpushed.observed hok hts ‹_› b now
  · exact hpushed

/-- The receive half of an event (R144 to R147). -/
theorem Channel.ServiceOk.received (h : c.ServiceOk) (hrx : c.rx.Ok) (hts : c.ts.Ok) (b : Byte)
    (now : Word) : (c.received b now).ServiceOk := by
  obtain ⟨⟨hpos, -⟩, -⟩ := id hrx
  unfold Channel.received
  cases hp : c.policy with
  | alwaysDrain =>
    dsimp only
    split
    · exact h.overflowed hp
    · exact h.accepted hrx hts ‹_› (fun hp' => absurd (hp.symm.trans hp') nofun) b now
  | drainWhenEmpty =>
    dsimp only
    split
    · next h0 => exact h.accepted hrx hts (by omega) (fun _ => h0) b now
    · exact h

/-- A successful `INIT` starts from a record that is as reset left it, and empties the rings (R134). -/
theorem Channel.ServiceOk.atInit (h : c.ServiceOk) (hrx : c.rx.Ok) (hts : c.ts.Ok)
    (hquiet : c.rxOvf = false ∧ c.ovfCount = 0 ∧ c.tsOvf = false) (o : InitOptions) :
    (readyChannel o c).ServiceOk := by
  obtain ⟨hflag, hcount, htsOvf⟩ := hquiet
  obtain ⟨-, hocc, -⟩ := RingBuffer.restart_spec hrx
  obtain ⟨-, -, hnil⟩ := RingBuffer.restart_spec hts
  refine ⟨fun _ => ⟨hocc.trans_le (Nat.zero_le 1), hflag, hcount⟩, fun _ => ⟨rfl, rfl, rfl, htsOvf⟩,
    h.overflow, fun r hr => ?_⟩
  have hr' : r ∈ c.ts.restart.contents := hr
  rw [hnil] at hr'
  cases hr'

theorem Channel.transmitted_frame (c : Channel) : c.transmitted.status = c.status ∧
    c.transmitted.rx = c.rx ∧ c.transmitted.ts = c.ts := by
  unfold Channel.transmitted
  split <;> exact ⟨rfl, rfl, rfl⟩

theorem Channel.observed_status (c : Channel) (b : Byte) (now : Word) :
    (c.observed b now).status = c.status := by
  unfold Channel.observed
  split
  · rfl
  · split <;> rfl

theorem Channel.accepted_status (c : Channel) (b : Byte) (now : Word) :
    (c.accepted b now).status = c.status := by
  unfold Channel.accepted
  split
  · exact Channel.observed_status { c with rx := c.rx.withPushed b } b now
  · rfl

theorem Channel.received_status (c : Channel) (b : Byte) (now : Word) :
    (c.received b now).status = c.status := by
  unfold Channel.received
  split <;> split
  · rfl
  · exact c.accepted_status b now
  · exact c.accepted_status b now
  · rfl

end changes

/-! ### The invariants of the record together -/

/-- The invariants of the record: of one that is not Ready, and of any (R132, R135). -/
structure Channel.RecordInv (c : Channel) : Prop where
  quiet : c.QuietUntilReady
  service : c.ServiceOk

section together
variable {c d : Channel}

/-- Of a Ready channel nothing is to be shown but the part that is not about the lifecycle. -/
theorem Channel.ServiceOk.recordInv (h : c.ServiceOk) (hr : c.status = .ready) : c.RecordInv :=
  ⟨fun hn => absurd hr hn, h⟩

theorem Channel.Startable.not_ready (h : c.Startable) : c.status ≠ .ready := by
  rcases h with h | h <;> rw [h] <;> exact nofun

theorem Channel.InitStep.recordInv (hstep : c.InitStep d) (hok : c.RingsOk) (h : c.RecordInv) :
    d.RecordInv := by
  cases hstep with
  | refused => exact h
  | succeeded hs o =>
    obtain ⟨-, -, -, -, -, -, -, -, hflag, hcount, htsOvf⟩ := h.quiet hs.not_ready
    exact (h.service.atInit hok.rx hok.ts ⟨hflag, hcount, htsOvf⟩ o).recordInv rfl
  | failed hs hst =>
    obtain ⟨hone, hnone, hovf, hrec⟩ := h.service
    exact ⟨fun _ => h.quiet hs.not_ready, ⟨hone, hnone, hovf, hrec⟩⟩

/-- Serving the transmit condition or not, an event leaves a Ready record that meets the invariants, with
its RX and TS rings as they were (R140, R143). -/
theorem Channel.ServiceOk.maybe_transmitted (h : c.ServiceOk) (hok : c.RingsOk)
    (hr : c.status = .ready) (ht : d = c ∨ d = c.transmitted) :
    d.ServiceOk ∧ d.status = .ready ∧ d.rx.Ok ∧ d.ts.Ok := by
  rcases ht with rfl | rfl
  · exact ⟨h, hr, hok.rx, hok.ts⟩
  · obtain ⟨hst, hrx, hts⟩ := c.transmitted_frame
    exact ⟨h.transmitted, hst.trans hr, hrx ▸ hok.rx, hts ▸ hok.ts⟩

/-- Every operation of the ports keeps the invariants of the record of its channel. -/
theorem Channel.PortStep.recordInv (hstep : c.PortStep d) (hok : c.RingsOk) (h : c.RecordInv) :
    d.RecordInv := by
  have hs := h.service
  cases hstep with
  | kept => exact h
  | init hinit => exact hinit.recordInv hok h
  | sent hr tx armed =>
    obtain ⟨hone, hnone, hovf, hrec⟩ := hs
    exact Channel.ServiceOk.recordInv ⟨hone, hnone, hovf, hrec⟩ hr
  | read hr hn => exact (hs.read hok.rx hn).recordInv hr
  | recordRead hr hon hn hne =>
    exact ((hs.recordRemoved hok.ts hon hne).read hok.rx hn).recordInv hr
  | event hr ht =>
    obtain ⟨hs', hr', -⟩ := hs.maybe_transmitted hok hr ht
    exact hs'.recordInv hr'
  | eventReceived hr ht b now =>
    obtain ⟨hs', hr', hrx, hts⟩ := hs.maybe_transmitted hok hr ht
    exact (hs'.received hrx hts b now).recordInv ((Channel.received_status _ b now).trans hr')

end together

/-- Settles O56: what an operation of the ports makes of a record, and what that keeps, on every
channel. -/
theorem channelInvariantsAreKept : Obligations.ChannelInvariantsAreKept := by
  intro s t htable hinv h d hd
  obtain ⟨-, -, hrings⟩ := htable
  have hstart : ∀ c ∈ s.ch, c.RingsOk ∧ c.RecordInv := fun c hc => by
    obtain ⟨hquiet, hone, hnone, hovf, hrec⟩ := hinv c hc
    exact ⟨hrings c hc, hquiet, hone, hnone, hovf, hrec⟩
  have hlane (i : Instr) (hreq : i.requestable = true) (l : Lane)
      (hl : l.chan.RingsOk ∧ l.chan.RecordInv) :
      (laneOp s.fClk i l).1.chan.RingsOk ∧ (laneOp s.fClk i l).1.chan.RecordInv := by
    obtain ⟨hok, hrec⟩ := hl
    exact ⟨laneOp_ringsOk s.fClk i hok, (laneOp_portStep hreq s.fClk hok).recordInv hok hrec⟩
  obtain ⟨-, hquiet, hone, hnone, hovf, hrec⟩ := step_keeps_channels hlane h hstart d hd
  exact ⟨hquiet, hone, hnone, hovf, hrec⟩

end Sys2Proof.Machine

/-!
SUPPORT and statements settled: the event and its two receive pumps, by their results, and the bounds
of one event (R140 to R149, R248).
-/

namespace Sys2Proof.Machine

/-! ### The receive pumps and the event executed by themselves -/

/-- An operation that only works on its channel's lane, as replaced draws, a replaced record and added
calls (R36, R38). -/
theorem exec_of_silent_lane {s : State} {i : Instr} {ch : Byte} {c : Channel} {l : Lane}
    (hi : i.channel = some ch) (hc : s.ch[ch.toNat]? = some c)
    (hop : laneOp s.fClk i (s.laneOf ch c) = (l, none, none)) :
    exec i s = .next ((s.withDraws ch.toNat l.draws).updated ch.toNat l.chan l.calls) := by
  have hl : l.inst = ch.toNat := by simpa only [hop] using laneOp_inst s.fClk i (s.laneOf ch c)
  rw [exec_of_channel hi hc, hop, State.finish_silent, State.commit_eq, hl]

/-- Settles O33: the pump on the lane of the channel, whatever its RX ring holds. -/
theorem rxPumpAlwaysDrainResult : Obligations.RxPumpAlwaysDrainResult := by
  intro s ch c hc
  exact exec_of_silent_lane (i := .rxPumpAlwaysDrain ch) rfl hc
    (congrArg (·, none, none) (rxPumpAlwaysDrain_eq _))

/-- Settles O34: the pump on the lane of the channel, by whether its RX ring is empty. -/
theorem rxPumpDrainWhenEmptyResult : Obligations.RxPumpDrainWhenEmptyResult := by
  intro s ch c hc hok
  have hpump := rxPumpDrainWhenEmpty_eq (l := s.laneOf ch c) hok.rx
  refine ⟨fun hne => ?_, fun h0 => ?_⟩
  · rw [if_neg hne] at hpump
    rw [exec_of_channel rfl hc, laneOp, hpump, State.finish_silent, State.commit_self hc]
  · rw [if_pos h0] at hpump
    exact exec_of_silent_lane (i := .rxPumpDrainWhenEmpty ch) rfl hc
      (congrArg (·, none, none) hpump)

/-- `DISPATCH` on a Ready channel is its algorithm on the lane (R140). -/
theorem laneOp_dispatch_of_ready {l : Lane} (hr : l.chan.status = .ready) (f : Word) (id : Byte) :
    laneOp f (.dispatch id) l = (dispatchReady l, none, none) :=
  congrArg (·, none, none) (if_pos hr)

/-- Settles O40: the algorithm on the lane of the channel. -/
theorem dispatchResult : Obligations.DispatchResult := by
  intro s ch c hc hr hok
  refine ⟨c.tx.readSlot c.tx.rd, fun _ => hok.tx.getElem?_rd, ?_⟩
  have hop := laneOp_dispatch_of_ready (l := s.laneOf ch c) hr s.fClk ch
  rw [dispatchReady_eq hok.rx hok.tx] at hop
  exact exec_of_silent_lane rfl hc hop

/-- Settles O57: two bytes are more than the ring holds. -/
theorem twoByteReadUnderflowsWhenEmptyPolicy :
    Obligations.TwoByteReadUnderflowsWhenEmptyPolicy := by
  intro s ch n c hc hr hpolicy hone hn
  obtain ⟨hocc, -, -⟩ := hone hpolicy
  have hshort : c.rx.occ < n.toNat := hocc.trans_lt hn
  exact congrArg _ (State.command_whenReady_answers hc hr
    (readBytesBody_short (l := s.laneOf ch c) hshort))

/-! ### What one event moves -/

/-- The number of elements is as before, or one more. -/
abbrev AtMostOneMore (before after : Nat) : Prop := after = before ∨ after = before + 1

/-- Receiving leaves the TX ring and the transmitter alone and adds at most a byte and a record. -/
structure Channel.ReceivesOne (c d : Channel) : Prop where
  rx : AtMostOneMore c.rx.occ d.rx.occ
  ts : AtMostOneMore c.ts.occ d.ts.occ
  tx : d.tx = c.tx

/-- One event moves at most one byte in each direction and adds at most one record (R149). -/
structure Channel.MovesOne (c d : Channel) : Prop where
  rx : AtMostOneMore c.rx.occ d.rx.occ
  tx : AtMostOneMore d.tx.occ c.tx.occ
  ts : AtMostOneMore c.ts.occ d.ts.occ

section moves
variable {c d : Channel}

theorem Channel.receivesOne_refl (c : Channel) : c.ReceivesOne c := ⟨.inl rfl, .inl rfl, rfl⟩

theorem Channel.movesOne_refl (c : Channel) : c.MovesOne c := ⟨.inl rfl, .inl rfl, .inl rfl⟩

theorem Channel.ReceivesOne.movesOne (h : c.ReceivesOne d) : c.MovesOne d :=
  ⟨h.rx, .inl (congrArg _ h.tx.symm), h.ts⟩

theorem Channel.observed_receivesOne (hok : c.ts.Ok) (b : Byte) (now : Word) :
    c.ReceivesOne (c.observed b now) ∧ (c.observed b now).rx = c.rx := by
  unfold Channel.observed
  split
  · exact ⟨⟨.inl rfl, .inl rfl, rfl⟩, rfl⟩
  · split
    · exact ⟨⟨.inl rfl, .inl rfl, rfl⟩, rfl⟩
    · next hroom =>
      obtain ⟨-, hocc, -⟩ := hok.withPushed_spec hroom (c.emittedRecord now)
      exact ⟨⟨.inl rfl, .inr hocc, rfl⟩, rfl⟩

theorem Channel.accepted_receivesOne (hrx : c.rx.Ok) (hts : c.ts.Ok) (hroom : c.rx.occ ≠ c.rx.cap)
    (b : Byte) (now : Word) : c.ReceivesOne (c.accepted b now) := by
  obtain ⟨-, hocc, -⟩ := hrx.withPushed_spec hroom b
  unfold Channel.accepted
  split
  · obtain ⟨⟨-, hrecords, htx⟩, hsame⟩ :=
      Channel.observed_receivesOne (c := { c with rx := c.rx.withPushed b }) hts b now
    exact ⟨.inr (by rw [hsame, hocc]), hrecords, htx⟩
  · exact ⟨.inr hocc, .inl rfl, rfl⟩

theorem Channel.received_receivesOne (hrx : c.rx.Ok) (hts : c.ts.Ok) (b : Byte) (now : Word) :
    c.ReceivesOne (c.received b now) := by
  obtain ⟨⟨hcap, -⟩, -⟩ := id hrx
  unfold Channel.received
  split
  · split
    · exact ⟨.inl rfl, .inl rfl, rfl⟩
    · exact Channel.accepted_receivesOne hrx hts ‹_› b now
  · split
    · exact Channel.accepted_receivesOne hrx hts (by omega) b now
    · exact c.receivesOne_refl

theorem Channel.transmitted_movesOne (hok : c.tx.Ok) : c.MovesOne c.transmitted := by
  unfold Channel.transmitted
  split
  · exact ⟨.inl rfl, .inl rfl, .inl rfl⟩
  · next hne =>
    have hpos : 1 ≤ c.tx.occ := Nat.one_le_iff_ne_zero.mpr hne
    obtain ⟨-, hocc, -⟩ := RingBuffer.withRemoved_spec hok hpos
    exact ⟨.inl rfl, .inr (by rw [hocc, Nat.sub_add_cancel hpos]), .inl rfl⟩

/-- The transmit half and then the receive half of an event (R140). -/
theorem Channel.transmitted_received_movesOne (hok : c.RingsOk) (b : Byte) (now : Word) :
    c.MovesOne (c.transmitted.received b now) := by
  obtain ⟨-, hrx, hts⟩ := c.transmitted_frame
  obtain ⟨hbyte, hrecord, htx⟩ :=
    Channel.received_receivesOne (c := c.transmitted) (hrx ▸ hok.rx) (hts ▸ hok.ts) b now
  rw [hrx] at hbyte
  rw [hts] at hrecord
  exact ⟨hbyte, htx ▸ (Channel.transmitted_movesOne hok.tx).tx, hrecord⟩

theorem Channel.transmitCalls_length_le (c : Channel) (b : Byte) :
    (c.transmitCalls b).length ≤ 2 := by
  unfold Channel.transmitCalls
  split <;> simp

theorem Channel.receiveCalls_length_le (c : Channel) (b : Byte) :
    (c.receiveCalls b).length ≤ 1 := by
  unfold Channel.receiveCalls
  split <;> simp

end moves

section event
variable {l : Lane}

theorem dispatchReady_movesOne (hok : l.chan.RingsOk) : l.chan.MovesOne (dispatchReady l).chan := by
  rw [dispatchReady_eq hok.rx hok.tx]
  dsimp only
  split
  · split
    · exact Channel.transmitted_received_movesOne hok _ _
    · exact (Channel.received_receivesOne hok.rx hok.ts _ _).movesOne
  · split
    · exact Channel.transmitted_movesOne hok.tx
    · exact l.chan.movesOne_refl

/-- One status read, at most two calls to transmit and at most one to receive (R140, R149). -/
theorem dispatchReady_calls (hok : l.chan.RingsOk) :
    ∃ calls, (dispatchReady l).calls = l.calls ++ calls ∧ calls.length ≤ 4 := by
  rw [dispatchReady_eq hok.rx hok.tx]
  refine ⟨_, rfl, ?_⟩
  have htransmit := l.chan.transmitCalls_length_le (l.chan.tx.readSlot l.chan.tx.rd)
  have hreceive := l.chan.receiveCalls_length_le l.data
  simp only [List.length_append, List.length_singleton, apply_ite List.length, List.length_nil]
  split <;> split <;> omega

end event

/-- An event on the lane of a channel: the bounds of R149, Ready or not. -/
theorem laneOp_dispatch_bounded {l : Lane} (hok : l.chan.RingsOk) (f : Word) (id : Byte) :
    l.chan.MovesOne (laneOp f (.dispatch id) l).1.chan ∧
      ∃ calls, (laneOp f (.dispatch id) l).1.calls = l.calls ++ calls ∧ calls.length ≤ 4 := by
  rw [laneOp]
  dsimp only
  split
  · exact ⟨dispatchReady_movesOne hok, dispatchReady_calls hok⟩
  · exact ⟨l.chan.movesOne_refl, [], (List.append_nil _).symm, Nat.zero_le 4⟩

/-- Settles O42, by what the event does on the lane of its channel. -/
theorem dispatchIsBounded : Obligations.DispatchIsBounded := by
  intro s t id c d hc hok h hd
  rw [exec_of_channel rfl hc] at h
  cases h
  obtain ⟨⟨hrx, htx, hts⟩, calls, hcalls, hlen⟩ :=
    laneOp_dispatch_bounded (l := s.laneOf id c) hok s.fClk id
  rw [State.finish_ch, laneOp_inst, List.getElem?_set_self', hc] at hd
  obtain rfl := Option.some.inj hd
  refine ⟨⟨_, State.finish_drvTrace _ _ _, ?_⟩, hrx, htx.imp Eq.symm Eq.symm, hts⟩
  rw [hcalls, List.length_map]
  exact hlen

end Sys2Proof.Machine

/-!
SUPPORT and statement settled: the enable and disable pairs of a transmitter alternate (R143, R171,
R212).
-/

namespace Sys2Proof.Machine

/-! ### Alternating pairs -/

/-- Whole armed periods, and then an enable pair exactly if the transmitter is armed (R171). -/
def ArmingSequence (armed : Bool) (calls : List DrvCall) : Prop :=
  ∃ k, calls = armedPeriods k ++ if armed then [.enableTransmitPath, .enableTransmitInterrupt] else []

section pairs
variable {calls : List DrvCall}

theorem armingAlternates_iff (i : Nat) (c : Channel) (trace : List DrvEntry) :
    ArmingAlternates i c trace ↔ ArmingSequence c.txArmed (armingCalls i trace) := Iff.rfl

/-- An idle transmitter's sequence goes on with an enable pair (R171). -/
theorem ArmingSequence.enable (h : ArmingSequence false calls) :
    ArmingSequence true (calls ++ [.enableTransmitPath, .enableTransmitInterrupt]) := by
  obtain ⟨k, rfl⟩ := h
  exact ⟨k, by simp⟩

/-- An armed transmitter's sequence goes on with a disable pair, which ends the period (R143). -/
theorem ArmingSequence.disable (h : ArmingSequence true calls) :
    ArmingSequence false (calls ++ [.disableTransmitInterrupt, .disableTransmitPath]) := by
  obtain ⟨k, rfl⟩ := h
  exact ⟨k + 1, by simp [armedPeriods]⟩

end pairs

/-! ### Work on a lane -/

/-- The lane's calls, behind the enable and disable calls made before it was taken, make a sequence in
which its channel's `tx_armed` shows the last pair. -/
def Lane.Alternates (earlier : List DrvCall) (l : Lane) : Prop :=
  ArmingSequence l.chan.txArmed (earlier ++ l.calls.filter isArming)

/-- The work from `l` to `l'` neither arms nor disarms. -/
structure Lane.KeepsArming (l l' : Lane) : Prop where
  armed : l'.chan.txArmed = l.chan.txArmed
  calls : l'.calls.filter isArming = l.calls.filter isArming

section lane
variable {l l' : Lane} {earlier : List DrvCall}

theorem Lane.keepsArming_refl (l : Lane) : l.KeepsArming l := ⟨rfl, rfl⟩

theorem Lane.KeepsArming.trans {a b c : Lane} (h : a.KeepsArming b) (h' : b.KeepsArming c) :
    a.KeepsArming c :=
  ⟨h'.armed.trans h.armed, h'.calls.trans h.calls⟩

theorem Lane.KeepsArming.alternates (h : l.KeepsArming l') (hl : l.Alternates earlier) :
    l'.Alternates earlier := by
  rwa [Lane.Alternates, h.armed, h.calls]

/-- A call that is no enable or disable call keeps what is armed. -/
theorem Lane.keepsArming_of_call {d : DrvCall} (harmed : l'.chan.txArmed = l.chan.txArmed)
    (hcalls : l'.calls = l.calls ++ [d]) (hd : isArming d = false) : l.KeepsArming l' :=
  ⟨harmed, by simp [hcalls, hd]⟩

/-- The enable pair, made on an idle transmitter. -/
theorem Lane.Alternates.enable (h : l.Alternates earlier) (hidle : l.chan.txArmed = false)
    (harmed : l'.chan.txArmed = true)
    (hcalls : l'.calls = l.calls ++ [.enableTransmitPath, .enableTransmitInterrupt]) :
    l'.Alternates earlier := by
  rw [Lane.Alternates, hidle] at h
  rw [Lane.Alternates, harmed, hcalls, List.filter_append, ← List.append_assoc]
  exact ArmingSequence.enable h

/-- The disable pair, made on an armed transmitter. -/
theorem Lane.Alternates.disable (h : l.Alternates earlier) (harmed : l.chan.txArmed = true)
    (hidle : l'.chan.txArmed = false)
    (hcalls : l'.calls = l.calls ++ [.disableTransmitInterrupt, .disableTransmitPath]) :
    l'.Alternates earlier := by
  rw [Lane.Alternates, harmed] at h
  rw [Lane.Alternates, hidle, hcalls, List.filter_append, ← List.append_assoc]
  exact ArmingSequence.disable h

/-! ### The environment -/

theorem Lane.readStatusFlags_keepsArming (l : Lane) : l.KeepsArming l.readStatusFlags.2 :=
  Lane.keepsArming_of_call rfl rfl rfl

theorem Lane.readDataRegister_keepsArming (l : Lane) : l.KeepsArming l.readDataRegister.2 :=
  Lane.keepsArming_of_call rfl rfl rfl

theorem Lane.configure_keepsArming (l : Lane) (o : InitOptions) (f : Word) :
    l.KeepsArming (l.configure o f).2 :=
  Lane.keepsArming_of_call rfl rfl rfl

/-! ### The receive side neither arms nor disarms -/

theorem Channel.observed_txArmed (c : Channel) (b : Byte) (now : Word) :
    (c.observed b now).txArmed = c.txArmed := by
  unfold Channel.observed
  split
  · rfl
  · split <;> rfl

theorem observe_keepsArming (b : Byte) (l : Lane) : l.KeepsArming (observe b l) := by
  rw [observe_eq]
  exact ⟨l.chan.observed_txArmed b l.now, rfl⟩

theorem acceptByte_keepsArming (b : Byte) (l : Lane) : l.KeepsArming (acceptByte b l) := by
  have hpush : l.KeepsArming { l with chan := { l.chan with rx := (l.chan.rx.push b).1 } } :=
    ⟨rfl, rfl⟩
  unfold acceptByte
  dsimp only
  split
  · exact hpush.trans (observe_keepsArming b _)
  · exact hpush

theorem rxPumpAlwaysDrain_keepsArming (l : Lane) : l.KeepsArming (rxPumpAlwaysDrain l) := by
  unfold rxPumpAlwaysDrain
  dsimp only
  split
  · exact l.readDataRegister_keepsArming.trans (acceptByte_keepsArming _ _)
  · exact l.readDataRegister_keepsArming.trans ⟨rfl, rfl⟩

theorem rxPumpDrainWhenEmpty_keepsArming (l : Lane) : l.KeepsArming (rxPumpDrainWhenEmpty l) := by
  unfold rxPumpDrainWhenEmpty
  split
  · exact l.readDataRegister_keepsArming.trans (acceptByte_keepsArming _ _)
  · exact l.keepsArming_refl

theorem rxPump_keepsArming (l : Lane) : l.KeepsArming (rxPump l) := by
  unfold rxPump
  split
  · exact rxPumpAlwaysDrain_keepsArming l
  · exact rxPumpDrainWhenEmpty_keepsArming l

/-! ### The transmit side -/

/-- `ARM_TX` makes the enable pair on an idle transmitter only (R171). -/
theorem armTx_alternates (h : l.Alternates earlier) : (armTx l).Alternates earlier := by
  rw [armTx_eq, Channel.armCalls]
  cases hidle : l.chan.txArmed with
  | true => exact Lane.KeepsArming.alternates (l := l) ⟨hidle.symm, by simp⟩ h
  | false => exact h.enable hidle rfl rfl

/-- `TX_PUMP` on an armed transmitter sends a byte, or makes the disable pair (R143). -/
theorem txPump_alternates (harmed : l.chan.txArmed = true) (h : l.Alternates earlier) :
    (txPump l).Alternates earlier := by
  unfold txPump
  split
  · exact Lane.KeepsArming.alternates (l := l) (Lane.keepsArming_of_call rfl rfl rfl) h
  · exact h.disable harmed rfl (List.append_assoc _ _ _)

/-- An event pumps the transmit side of an armed transmitter only (R140). -/
theorem dispatchReady_alternates (h : l.Alternates earlier) :
    (dispatchReady l).Alternates earlier := by
  have h1 : l.readStatusFlags.2.Alternates earlier := l.readStatusFlags_keepsArming.alternates h
  unfold dispatchReady
  dsimp only
  have h2 : (if txReady l.readStatusFlags.1 && l.readStatusFlags.2.chan.txArmed then
      txPump l.readStatusFlags.2 else l.readStatusFlags.2).Alternates earlier := by
    split
    · next hx => exact txPump_alternates (Bool.and_eq_true_iff.mp hx).2 h1
    · exact h1
  split
  · exact (rxPump_keepsArming _).alternates h2
  · exact h2

/-! ### The commands -/

theorem whenReady_alternates {body : Lane → Lane × Reply} (h : l.Alternates earlier)
    (hbody : (body l).1.Alternates earlier) : (whenReady body l).1.Alternates earlier := by
  rcases whenReady_cases body l with he | he <;> rw [he]
  · exact hbody
  · exact h

theorem whenReady_keepsArming {body : Lane → Lane × Reply} (h : l.KeepsArming (body l).1) :
    l.KeepsArming (whenReady body l).1 := by
  rcases whenReady_cases body l with he | he <;> rw [he]
  · exact h
  · exact l.keepsArming_refl

theorem sendByteBody_alternates (h : l.Alternates earlier) (b : Byte) :
    (sendByteBody b l).1.Alternates earlier := by
  unfold sendByteBody
  split
  · exact armTx_alternates h
  · exact h

theorem sendBytesBody_alternates (h : l.Alternates earlier) (v : List Byte) :
    (sendBytesBody v l).1.Alternates earlier := by
  unfold sendBytesBody
  dsimp only
  split
  · split
    · exact armTx_alternates h
    · exact h
  · exact h

/-- `INIT` keeps `tx_armed`, and enables receiving only (R134, R135). -/
theorem initBody_keepsArming (o : InitOptions) (f : Word) (l : Lane) :
    l.KeepsArming (initBody o f l).1 := by
  rcases initBody_cases o f l with he | he <;> rw [he]
  · exact l.keepsArming_refl
  · refine (l.configure_keepsArming o f).trans ?_
    cases (l.configure o f).1 with
    | ok => exact ⟨rfl, by simp [initConfigured, isArming]⟩
    | rejected => exact ⟨rfl, rfl⟩
    | failed => exact ⟨rfl, rfl⟩

theorem readByteBody_keepsArming (l : Lane) : l.KeepsArming (readByteBody l).1 := by
  unfold readByteBody
  split <;> exact ⟨rfl, rfl⟩

theorem readBytesBody_keepsArming (n : Half) (l : Lane) : l.KeepsArming (readBytesBody n l).1 := by
  unfold readBytesBody
  split <;> exact ⟨rfl, rfl⟩

theorem tsReadBody_keepsArming (l : Lane) : l.KeepsArming (tsReadBody l).1 := by
  unfold tsReadBody tsReadRecord
  split
  · split
    · split <;> exact ⟨rfl, rfl⟩
    · exact l.keepsArming_refl
  · exact l.keepsArming_refl

/-- Every operation of the ports keeps the pairs of its channel alternating. -/
theorem laneOp_alternates {i : Instr} (hreq : i.requestable = true) (f : Word)
    (h : l.Alternates earlier) : (laneOp f i l).1.Alternates earlier := by
  cases i with
  | init ch o => exact (initBody_keepsArming o f l).alternates h
  | sendByte ch b => exact whenReady_alternates h (sendByteBody_alternates h b)
  | sendBytes ch v => exact whenReady_alternates h (sendBytesBody_alternates h v)
  | available ch => exact whenReady_alternates (body := availableBody) h h
  | readByte ch => exact (whenReady_keepsArming (readByteBody_keepsArming l)).alternates h
  | readBytes ch n => exact (whenReady_keepsArming (readBytesBody_keepsArming n l)).alternates h
  | tsAvailable ch => exact whenReady_alternates (body := tsAvailableBody) h h
  | tsAvailableAll => exact h
  | tsRead ch => exact (whenReady_keepsArming (tsReadBody_keepsArming l)).alternates h
  | status ch => exact h
  | dispatch id =>
    rw [laneOp]
    dsimp only
    split
    · exact dispatchReady_alternates h
    · exact h
  | _ => nomatch hreq

end lane

/-! ### The whole state -/

/-- The pairs of every channel of the table alternate. -/
def State.Alternates (s : State) : Prop :=
  ∀ k c, s.ch[k]? = some c → ArmingAlternates k c s.drvTrace

/-- The enable and disable calls a trace shows for a channel after calls of its own. -/
theorem armingCalls_append_self (i : Nat) (trace : List DrvEntry) (calls : List DrvCall) :
    armingCalls i (trace ++ calls.map fun d => { inst := i, call := d }) =
      armingCalls i trace ++ calls.filter isArming := by
  rw [armingCalls, callsOf_append, callsOf_self, List.filter_append]
  rfl

/-- Every operation of the ports keeps the pairs of every channel alternating. -/
theorem exec_alternates {s t : State} {i : Instr} (hreq : i.requestable = true)
    (h : exec i s = .next t) (hs : s.Alternates) : t.Alternates := by
  rcases exec_cases h with ⟨ch, c, hi, hc, rfl⟩ | ⟨-, r, rfl⟩ | rfl
  · intro k d hd
    by_cases hk : k = ch.toNat
    · subst hk
      have hlane : (s.laneOf ch c).Alternates (armingCalls ch.toNat s.drvTrace) := by
        rw [Lane.Alternates, List.filter_nil, List.append_nil]
        exact hs _ c hc
      rw [State.finish_ch, laneOp_inst, List.getElem?_set_self', hc] at hd
      obtain rfl := Option.some.inj hd
      rw [armingAlternates_iff, State.finish_drvTrace, laneOp_inst, armingCalls_append_self]
      exact laneOp_alternates hreq s.fClk hlane
    · obtain ⟨hch, -, hcalls⟩ := channelsAreIsolated s _ i ch hi h k hk
      rw [armingAlternates_iff, armingCalls, hcalls]
      exact hs k d (hch ▸ hd)
  · exact hs
  · exact hs

/-- Settles O55: a step is an operation of a port on the arrivals taken in, or leaves the table and the
trace alone. -/
theorem armingAlternatesIsKept : Obligations.ArmingAlternatesIsKept := by
  intro s t hs h
  rcases step_cases h with ⟨buf, rest, i, -, hreq, he⟩ | ⟨buf, rest, rs, -, rfl⟩
  · exact exec_alternates (s := { s with cmdBuf := buf, stimulus := rest }) hreq he hs
  · exact hs

end Sys2Proof.Machine

/-!
SUPPORT and statements settled: the correlator by itself (R161 to R166), and the pairing of records with
bytes (R167, R179).
-/

namespace Sys2Proof.Machine

/-- Settles O35: what `OBSERVE` makes of the lane of the channel. -/
theorem observeResult : Obligations.ObserveResult := by
  intro s ch b c hc
  exact exec_of_silent_lane (i := .observe ch b) rfl hc (congrArg (·, none, none) (observe_eq b _))

/-! ### Bytes split into the runs of records -/

/-- The bytes are the runs of the records, in order, and then an unfinished run of `n` bytes: what R167
says of the abstract values of the two rings. -/
def SplitIntoRuns (marker : Byte) (bytes : List Byte) (recs : List TimestampRecord) (n : Nat) : Prop :=
  ∃ (runs : List (List Byte)) (tail : List Byte),
    bytes = runs.flatten ++ tail ∧
      List.Forall₂ (fun run r => ClosedRun marker run ∧ run.length = r.length.toNat) runs recs ∧
      tail.length = n ∧ marker ∉ tail

theorem Channel.paired_iff (c : Channel) :
    c.Paired ↔ SplitIntoRuns c.marker c.rx.contents c.ts.contents c.runLength.toNat := Iff.rfl

section runs
variable {marker : Byte} {bytes : List Byte} {recs : List TimestampRecord} {n : Nat}

theorem splitIntoRuns_nil (marker : Byte) : SplitIntoRuns marker [] [] 0 :=
  ⟨[], [], rfl, .nil, rfl, List.not_mem_nil⟩

/-- A closed run holds at least its marker (R163). -/
theorem ClosedRun.length_pos {run : List Byte} (h : ClosedRun marker run) : 1 ≤ run.length := by
  obtain ⟨hlast, -⟩ := h
  exact List.length_pos_of_mem (List.mem_of_getLast? hlast)

/-- A byte that is not the marker lengthens the unfinished run (R161). -/
theorem SplitIntoRuns.add_byte (h : SplitIntoRuns marker bytes recs n) {b : Byte} (hb : b ≠ marker) :
    SplitIntoRuns marker (bytes ++ [b]) recs (n + 1) := by
  obtain ⟨runs, tail, rfl, hruns, rfl, hfree⟩ := h
  refine ⟨runs, tail ++ [b], List.append_assoc _ _ _, hruns, List.length_append, fun hmem => ?_⟩
  rcases List.mem_append.mp hmem with hold | hnew
  · exact hfree hold
  · exact hb (List.mem_singleton.mp hnew).symm

/-- The marker closes the unfinished run and counts in it (R163). -/
theorem SplitIntoRuns.close_run (h : SplitIntoRuns marker bytes recs n) {r : TimestampRecord}
    (hr : r.length.toNat = n + 1) :
    SplitIntoRuns marker (bytes ++ [marker]) (recs ++ [r]) 0 := by
  obtain ⟨runs, tail, rfl, hruns, rfl, hfree⟩ := h
  have hclosed : ClosedRun marker (tail ++ [marker]) :=
    ⟨List.getLast?_concat, by rwa [List.dropLast_concat]⟩
  have hlen : (tail ++ [marker]).length = r.length.toNat := by rw [List.length_append, hr]; rfl
  refine ⟨runs ++ [tail ++ [marker]], [], ?_, ?_, rfl, List.not_mem_nil⟩
  · rw [List.flatten_concat, List.append_nil, List.append_assoc]
  · exact List.rel_append hruns (.cons ⟨hclosed, hlen⟩ .nil)

/-- The oldest record's bytes are the oldest bytes, and without them the rest is split as before
(R167, R179). -/
theorem SplitIntoRuns.remove_run {r : TimestampRecord} (h : SplitIntoRuns marker bytes (r :: recs) n) :
    r.length.toNat ≤ bytes.length ∧
      SplitIntoRuns marker (bytes.drop r.length.toNat) recs n := by
  obtain ⟨runs, tail, rfl, hruns, htail⟩ := h
  obtain ⟨run, later, ⟨-, hlen⟩, hlater, rfl⟩ := List.forall₂_cons_right_iff.mp hruns
  rw [List.flatten_cons, List.append_assoc]
  exact ⟨by rw [← hlen, List.length_append]; exact Nat.le_add_right _ _,
    later, tail, List.drop_left' hlen, hlater, htail⟩

/-- Every byte belongs to a pending record or to the unfinished run (R167). -/
theorem SplitIntoRuns.length_eq (h : SplitIntoRuns marker bytes recs n) :
    bytes.length = (recs.map fun r => r.length.toNat).sum + n := by
  obtain ⟨runs, tail, rfl, hruns, rfl, -⟩ := h
  have hlens : runs.map List.length = recs.map fun r => r.length.toNat := by
    rw [← List.forall₂_eq_eq_eq, List.forall₂_map_left_iff, List.forall₂_map_right_iff]
    exact hruns.imp fun _ _ ⟨_, hlen⟩ => hlen
  rw [List.length_append, List.length_flatten, hlens]

/-- Every pending record counts its marker (R163, R167). -/
theorem SplitIntoRuns.one_le_length (h : SplitIntoRuns marker bytes recs n) {r : TimestampRecord}
    (hr : r ∈ recs) : 1 ≤ r.length.toNat := by
  obtain ⟨runs, -, -, hruns, -⟩ := h
  obtain ⟨k, hk, rfl⟩ := List.getElem_of_mem hr
  obtain ⟨hclosed, hlen⟩ := hruns.get (hruns.length_eq ▸ hk) hk
  exact hlen ▸ hclosed.length_pos

end runs

/-! ### The pairing, change by change -/

/-- R167's promise of a channel record: paired, as long as its premise on the record holds. -/
def Channel.PairingHolds (c : Channel) : Prop := c.PairingApplies → c.Paired

/-- `d` is `c` in all that R167 speaks of. -/
structure Channel.SameRuns (c d : Channel) : Prop where
  tsEnable : d.tsEnable = c.tsEnable
  marker : d.marker = c.marker
  tsOvf : d.tsOvf = c.tsOvf
  rx : d.rx = c.rx
  ts : d.ts = c.ts
  runLength : d.runLength = c.runLength

section changes
variable {c d : Channel}

theorem Channel.SameRuns.pairingHolds (hsame : c.SameRuns d) (h : c.PairingHolds) :
    d.PairingHolds := by
  unfold Channel.PairingHolds
  rw [d.paired_iff, Channel.PairingApplies, hsame.tsEnable, hsame.marker, hsame.tsOvf, hsame.rx,
    hsame.ts, hsame.runLength]
  exact h

/-- The unfinished run lies in the RX ring, so its length does not saturate (R166, R167). -/
theorem Channel.Paired.nextRunLength_toNat (h : c.Paired) (hok : c.rx.Ok) :
    c.nextRunLength.toNat = c.runLength.toNat + 1 := by
  obtain ⟨⟨-, hcap⟩, -, -, hle, -⟩ := hok
  have hlen := SplitIntoRuns.length_eq h
  rw [RingBuffer.contents_length] at hlen
  have hrun : c.runLength.toNat ≤ 32767 := by unfold Config.maxCapacity at hcap; omega
  unfold Channel.nextRunLength
  split
  · next h0 => rw [h0]; rfl
  · split
    · next hmax => rw [hmax] at hrun; exact absurd hrun (by decide)
    · exact BitVec.toNat_add_of_lt (show c.runLength.toNat + 1 < 2 ^ 16 by omega)

/-- A byte accepted into the RX ring and observed: it lengthens the unfinished run, closes it with a
record, or loses the record (R145, R161, R165). -/
theorem Channel.PairingHolds.accepted (h : c.PairingHolds) (hok : c.RingsOk)
    (hroom : c.rx.occ ≠ c.rx.cap) (b : Byte) (now : Word) : (c.accepted b now).PairingHolds := by
  obtain ⟨-, -, hrx⟩ := hok.rx.withPushed_spec hroom b
  unfold Channel.accepted
  split
  · unfold Channel.observed
    split
    · next hother =>
      intro happ
      have hp := h happ
      rw [Channel.paired_iff]
      change SplitIntoRuns c.marker (c.rx.withPushed b).contents c.ts.contents c.nextRunLength.toNat
      rw [hrx, hp.nextRunLength_toNat hok.rx]
      exact SplitIntoRuns.add_byte hp hother
    · next hmarker =>
      obtain rfl : b = c.marker := not_not.mp hmarker
      split
      · exact fun ⟨_, hlost⟩ => nomatch hlost
      · next htsRoom =>
        intro happ
        have hp := h happ
        obtain ⟨-, -, hts⟩ := hok.ts.withPushed_spec htsRoom
          (({ c with rx := c.rx.withPushed c.marker } : Channel).emittedRecord now)
        rw [Channel.paired_iff]
        dsimp only
        rw [hrx, hts]
        exact SplitIntoRuns.close_run hp (hp.nextRunLength_toNat hok.rx)
  · next hoff => exact fun ⟨hon, _⟩ => absurd hon hoff

/-- The receive half of an event (R144 to R147). -/
theorem Channel.PairingHolds.received (h : c.PairingHolds) (hok : c.RingsOk) (b : Byte) (now : Word) :
    (c.received b now).PairingHolds := by
  obtain ⟨⟨hcap, -⟩, -⟩ := hok.rx
  unfold Channel.received
  split <;> split
  · exact Channel.SameRuns.pairingHolds ⟨rfl, rfl, rfl, rfl, rfl, rfl⟩ h
  · exact h.accepted hok ‹_› b now
  · exact h.accepted hok (by omega) b now
  · exact h

/-- Serving the transmit condition touches nothing R167 speaks of (R143). -/
theorem Channel.transmitted_sameRuns (c : Channel) : c.SameRuns c.transmitted := by
  unfold Channel.transmitted
  split <;> exact ⟨rfl, rfl, rfl, rfl, rfl, rfl⟩

/-- A successful `INIT` starts with nothing received (R134). -/
theorem Channel.InitStep.pairingHolds (hstep : c.InitStep d) (hok : c.RingsOk) (h : c.PairingHolds) :
    d.PairingHolds := by
  cases hstep with
  | refused => exact h
  | succeeded hs o =>
    obtain ⟨-, -, hrx⟩ := RingBuffer.restart_spec hok.rx
    obtain ⟨-, -, hts⟩ := RingBuffer.restart_spec hok.ts
    intro _
    rw [Channel.paired_iff, readyChannel]
    dsimp only
    rw [hrx, hts]
    exact splitIntoRuns_nil o.marker
  | failed hs hst => exact Channel.SameRuns.pairingHolds ⟨rfl, rfl, rfl, rfl, rfl, rfl⟩ h

/-- The record at the head of the TS ring splits the abstract value there. -/
theorem Channel.Paired.head_run (h : c.Paired) {r : TimestampRecord}
    (hhead : c.ts.contents.head? = some r) :
    r.length.toNat ≤ c.rx.occ ∧
      SplitIntoRuns c.marker (c.rx.contents.drop r.length.toNat) (c.ts.contents.drop 1)
        c.runLength.toNat := by
  obtain ⟨later, hcont⟩ := List.head?_eq_some_iff.mp hhead
  rw [c.paired_iff, hcont] at h
  rw [hcont, ← RingBuffer.contents_length]
  exact h.remove_run

/-- A record removed together with its bytes (R179). -/
theorem Channel.Paired.recordRemoved (h : c.Paired) (hok : c.RingsOk) {r : TimestampRecord}
    (hhead : c.ts.contents.head? = some r) :
    ({ c with rx := c.rx.withRemoved r.length.toNat, ts := c.ts.withRemoved 1 } : Channel).Paired := by
  obtain ⟨henough, hrest⟩ := h.head_run hhead
  have hone : 1 ≤ c.ts.occ := by
    rw [← RingBuffer.contents_length]
    exact List.length_pos_of_mem (List.mem_of_head? hhead)
  obtain ⟨-, -, hrx⟩ := RingBuffer.withRemoved_spec hok.rx henough
  obtain ⟨-, -, hts⟩ := RingBuffer.withRemoved_spec hok.ts hone
  rw [Channel.paired_iff]
  dsimp only
  rwa [hrx, hts]

end changes

/-! ### The pairing, operation by operation -/

section operations
variable {l : Lane}

theorem whenReady_pairingHolds {body : Lane → Lane × Reply} (h : l.chan.PairingHolds)
    (hbody : (body l).1.chan.PairingHolds) : (whenReady body l).1.chan.PairingHolds := by
  rcases whenReady_cases body l with he | he <;> rw [he]
  · exact hbody
  · exact h

theorem sendBytesBody_sameRuns (v : List Byte) (l : Lane) :
    l.chan.SameRuns (sendBytesBody v l).1.chan := by
  unfold sendBytesBody
  dsimp only
  split
  · split
    · rw [armTx_eq]
      exact ⟨rfl, rfl, rfl, rfl, rfl, rfl⟩
    · exact ⟨rfl, rfl, rfl, rfl, rfl, rfl⟩
  · exact ⟨rfl, rfl, rfl, rfl, rfl, rfl⟩

/-- `TS_READ` removes nothing, or the oldest record and as many bytes as it counts (R179). -/
theorem tsReadBody_chan (hok : l.chan.ts.Ok) :
    (tsReadBody l).1.chan = l.chan ∨ ∃ r, l.chan.ts.contents.head? = some r ∧
      (tsReadBody l).1.chan =
        { l.chan with rx := l.chan.rx.withRemoved r.length.toNat, ts := l.chan.ts.withRemoved 1 } := by
  cases hon : l.chan.tsEnable with
  | false => exact .inl (by rw [tsReadBody_none hok (.inl hon)])
  | true =>
    cases hhead : l.chan.ts.contents.head? with
    | none =>
      exact .inl (by rw [tsReadBody_none hok (.inr (List.head?_eq_none_iff.mp hhead))])
    | some r =>
      rw [tsReadBody_record hok hon hhead]
      rcases Nat.lt_or_ge l.chan.rx.occ r.length.toNat with hshort | henough
      · exact .inl (by rw [tsReadRecord_short hshort])
      · have hne : l.chan.ts.empty = false := by
          rw [Bool.eq_false_iff, Ne, hok.empty_iff_contents, ← List.head?_eq_none_iff, hhead]
          exact nofun
        exact .inr ⟨r, rfl, by rw [tsReadRecord_enough hne henough]; rfl⟩

theorem tsReadBody_pairingHolds (h : l.chan.PairingHolds) (hok : l.chan.RingsOk) :
    (tsReadBody l).1.chan.PairingHolds := by
  rcases tsReadBody_chan hok.ts with he | ⟨r, hhead, he⟩ <;> rw [he]
  · exact h
  · exact fun happ => (h happ).recordRemoved hok hhead

theorem dispatchReady_pairingHolds (h : l.chan.PairingHolds) (hok : l.chan.RingsOk) :
    (dispatchReady l).chan.PairingHolds := by
  have hpump {m : Lane} (hm : m.chan.PairingHolds) (hmok : m.chan.RingsOk) :
      (rxPump m).chan.PairingHolds := by
    rw [rxPump_eq hmok.rx]
    exact hm.received hmok _ _
  have h1 : l.readStatusFlags.2.chan.PairingHolds := h
  have hok1 : l.readStatusFlags.2.chan.RingsOk := hok
  have htx : (txPump l.readStatusFlags.2).chan.PairingHolds := by
    rw [txPump_eq hok1.tx]
    exact l.chan.transmitted_sameRuns.pairingHolds h
  rcases dispatchReady_cases l with (he | he) | he | he <;> rw [he]
  · exact h1
  · exact htx
  · exact hpump h1 hok1
  · exact hpump htx (txPump_ringsOk hok1)

/-- Every operation of the ports but the two plain reads keeps R167's promise of its channel. -/
theorem laneOp_pairingHolds {i : Instr} (hreq : i.requestable = true) (hbyte : ∀ ch, i ≠ .readByte ch)
    (hbytes : ∀ ch n, i ≠ .readBytes ch n) (f : Word) (hok : l.chan.RingsOk)
    (h : l.chan.PairingHolds) : (laneOp f i l).1.chan.PairingHolds := by
  cases i with
  | init ch o => exact (initBody_initStep o f l).pairingHolds hok h
  | sendByte ch b =>
    refine whenReady_pairingHolds h ?_
    rw [sendByteBody_eq hok.tx]
    exact (sendBytesBody_sameRuns [b] l).pairingHolds h
  | sendBytes ch v => exact whenReady_pairingHolds h ((sendBytesBody_sameRuns v l).pairingHolds h)
  | available ch => exact whenReady_pairingHolds (body := availableBody) h h
  | readByte ch => exact absurd rfl (hbyte ch)
  | readBytes ch n => exact absurd rfl (hbytes ch n)
  | tsAvailable ch => exact whenReady_pairingHolds (body := tsAvailableBody) h h
  | tsAvailableAll => exact h
  | tsRead ch => exact whenReady_pairingHolds h (tsReadBody_pairingHolds h hok)
  | status ch => exact h
  | dispatch id =>
    rw [laneOp]
    dsimp only
    split
    · exact dispatchReady_pairingHolds h hok
    · exact h
  | _ => nomatch hreq

end operations

/-- Settles O58: what an operation of the ports does on its lane, for every channel of the table. -/
theorem pairingIsKept : Obligations.PairingIsKept := by
  intro s t i ⟨_, _, hrings⟩ hpaired hreq hbyte hbytes he d hd
  obtain ⟨hlen, hrel⟩ := exec_relates
    (P := fun c d => c.RingsOk → c.PairingHolds → d.PairingHolds) (fun _ _ => id)
    (fun _ => laneOp_pairingHolds hreq hbyte hbytes s.fClk) he
  obtain ⟨k, hk, rfl⟩ := List.getElem_of_mem hd
  have hmem := List.getElem_mem (hlen ▸ hk : k < s.ch.length)
  exact hrel k _ _ (List.getElem?_eq_getElem _) (List.getElem?_eq_getElem hk) (hrings _ hmem)
    (hpaired _ hmem)

/-! ### What the pairing gives -/

/-- Settles O59: the lengths of the runs, and the bytes of the oldest record in the RX ring. -/
theorem pairingMakesTimestampReadsSucceed : Obligations.PairingMakesTimestampReadsSucceed := by
  intro s ch c hc hr hok ⟨hon, _⟩ hp
  obtain ⟨-, -, -, hle, -⟩ := hok.rx
  have hsum := SplitIntoRuns.length_eq hp
  rw [RingBuffer.contents_length] at hsum
  have hpos := fun r => SplitIntoRuns.one_le_length hp (r := r)
  have hcount := List.length_le_sum_of_one_le _ (List.forall_mem_map.mpr hpos)
  rw [List.length_map, RingBuffer.contents_length] at hcount
  refine ⟨hsum, fun r hrec => ⟨hpos r hrec, ?_⟩, by omega, fun hne => ?_⟩
  · have hpart := List.single_le_sum (fun _ _ => Nat.zero_le _) _
      (List.mem_map_of_mem (f := fun r : TimestampRecord => r.length.toNat) hrec)
    omega
  · obtain ⟨r, -, hhead⟩ := hok.ts.exists_head hne
    obtain ⟨henough, -⟩ := hp.head_run hhead
    refine ⟨_, _, exec_tsRead_enough hc hr hok.ts hon hhead henough,
      by rw [State.respond_responses, State.onLane_responses], rfl, rfl⟩

end Sys2Proof.Machine

/-!
SUPPORT and statements settled: a single byte sent, `ARM_TX` by itself, the pending record of one
channel (R171, R172, R177), and that no byte waits with the transmitter idle (R171).
-/

namespace Sys2Proof.Machine

/-! ### One byte sent, and the transmitter armed -/

/-- `SEND_BYTE` with room stores the byte and arms the transmitter (R171, R172). -/
theorem sendByteBody_room {l : Lane} (hroom : l.chan.tx.occ ≠ l.chan.tx.cap) (b : Byte) :
    sendByteBody b l =
      ({ l with
          chan := { l.chan with tx := l.chan.tx.withPushed b, txArmed := true }
          calls := l.calls ++ l.chan.armCalls }, .done 0 []) := by
  rcases l.chan.tx.push_cases b with ⟨hfull, -⟩ | ⟨-, hp⟩
  · exact absurd hfull hroom
  · rw [sendByteBody, hp, if_pos rfl, armTx_eq]
    rfl

/-- `SEND_BYTE` on a full ring (R172). -/
theorem sendByteBody_full {l : Lane} (hfull : l.chan.tx.occ = l.chan.tx.cap) (b : Byte) :
    sendByteBody b l = (l, .raise .bufferFull) := by
  rcases l.chan.tx.push_cases b with ⟨-, hp⟩ | ⟨hroom, -⟩
  · rw [sendByteBody, hp, if_neg nofun]
  · exact absurd hfull hroom

/-- A data command on a Ready channel that replaces its record and makes calls, as an update of the
state (R36, R38). -/
theorem State.command_whenReady_updates {s : State} {ch : Byte} {c d : Channel} {calls : List DrvCall}
    {body : Lane → Lane × Reply} {r : Reply} (hc : s.ch[ch.toNat]? = some c) (hr : c.status = .ready)
    (hb : body (s.laneOf ch c) = ({ s.laneOf ch c with chan := d, calls := calls }, r)) :
    s.command ch (whenReady body) = (s.updated ch.toNat d calls).respond ch r := by
  rw [State.command_whenReady_works hc hr (f := fun l => { l with chan := d, calls := calls }) hb,
    State.onLane_of_calls hc rfl]

/-- Settles O25: the byte is stored and the transmitter armed, or the ring is full. -/
theorem sendByteResult : Obligations.SendByteResult := by
  intro s ch b c hc hr
  refine ⟨fun hroom => ?_, fun hfull => ?_⟩
  · exact congrArg _ (State.command_whenReady_updates hc hr
      (sendByteBody_room (l := s.laneOf ch c) hroom b))
  · exact congrArg _ (State.command_whenReady_answers hc hr
      (sendByteBody_full (l := s.laneOf ch c) hfull b))

/-- `ARM_TX` by itself sets the bit, and makes the enable pair only if it was clear (R171). -/
theorem exec_armTx_of_channel {s : State} {ch : Byte} {c : Channel} (hc : s.ch[ch.toNat]? = some c) :
    exec (.armTx ch) s = .next (s.updated ch.toNat { c with txArmed := true } c.armCalls) := by
  rw [exec_of_channel rfl hc, laneOp, armTx_eq, State.finish_silent, State.commit_eq,
    State.withDraws_self, List.nil_append]

/-- Settles O27: on an armed channel the bit set again is no change. -/
theorem armTxResult : Obligations.ArmTxResult := by
  intro s ch c hc
  have hexec := exec_armTx_of_channel hc
  rw [Channel.armCalls] at hexec
  refine ⟨fun harmed => ?_, fun hidle => ?_⟩
  · have hsame : { c with txArmed := true } = c :=
      congrArg (fun armed => { c with txArmed := armed }) harmed.symm
    rwa [if_pos harmed, hsame, State.updated_self hc] at hexec
  · rwa [if_neg (ne_true_of_eq_false hidle)] at hexec

/-! ### A pending record -/

/-- A record is pending: timestamps are on and the TS ring holds something (R177, R178). -/
theorem recordPending_iff {c : Channel} (h : c.ts.Ok) :
    recordPending c = true ↔ c.tsEnable = true ∧ c.ts.occ ≠ 0 := by
  rw [recordPending, h.empty_eq_decide]
  simp

/-- Settles O36: the answer is whether a record is pending. -/
theorem tsAvailableResult : Obligations.TsAvailableResult := by
  intro s ch c hc hr hok
  rw [exec_tsAvailable_ready hc hr]
  simp only [boolValue, recordPending_iff hok.ts]
  rfl

/-! ### No lost wake-up (R171) -/

section channel
variable {c d : Channel}

theorem Channel.noLostWakeup_of_armed (h : c.txArmed = true) : c.NoLostWakeup := fun _ => h

theorem Channel.noLostWakeup_of_empty (h : c.tx.empty = true) : c.NoLostWakeup :=
  fun he => absurd (h.symm.trans he) nofun

/-- The invariant is about the TX ring and `tx_armed` alone. -/
theorem Channel.NoLostWakeup.of_same (h : c.NoLostWakeup) (htx : d.tx = c.tx)
    (harmed : d.txArmed = c.txArmed) : d.NoLostWakeup := by
  rwa [Channel.NoLostWakeup, htx, harmed]

/-- The pump disarms on an empty ring only; a ring that holds something was armed before (R143). -/
theorem Channel.NoLostWakeup.transmitted (h : c.NoLostWakeup) (hok : c.tx.Ok) :
    c.transmitted.NoLostWakeup := by
  have hempty := hok.empty_eq_decide
  unfold Channel.transmitted
  split
  · next h0 => exact Channel.noLostWakeup_of_empty (hempty.trans (decide_eq_true h0))
  · next hne => exact Channel.noLostWakeup_of_armed (h (hempty.trans (decide_eq_false hne)))

/-- `INIT` empties the TX ring or touches nothing the invariant speaks of (R134). -/
theorem Channel.InitStep.noLostWakeup (hstep : c.InitStep d) (h : c.NoLostWakeup) :
    d.NoLostWakeup := by
  cases hstep with
  | refused => exact h
  | succeeded hs o => exact Channel.noLostWakeup_of_empty (decide_eq_true rfl)
  | failed hs hst => exact h

end channel

section lane
variable {l : Lane}

theorem whenReady_noLostWakeup {body : Lane → Lane × Reply} (h : l.chan.NoLostWakeup)
    (hbody : (body l).1.chan.NoLostWakeup) : (whenReady body l).1.chan.NoLostWakeup := by
  rcases whenReady_cases body l with he | he <;> rw [he]
  · exact hbody
  · exact h

/-- A send stores bytes and arms, or stores none (R171, R173). -/
theorem sendBytesBody_noLostWakeup (h : l.chan.NoLostWakeup) (hok : l.chan.tx.Ok) (v : List Byte) :
    (sendBytesBody v l).1.chan.NoLostWakeup := by
  rcases Nat.lt_or_ge (l.chan.tx.cap - l.chan.tx.occ) v.length with hfull | hroom
  · rw [sendBytesBody_full hfull]
    exact h
  · rw [sendBytesBody_room hroom]
    cases v with
    | nil =>
      rw [sendAll_nil hok]
      exact h
    | cons b v =>
      rw [sendAll_of_pos (List.length_pos_of_ne_nil (List.cons_ne_nil b v))]
      exact Channel.noLostWakeup_of_armed rfl

theorem readByteBody_noLostWakeup (h : l.chan.NoLostWakeup) :
    (readByteBody l).1.chan.NoLostWakeup := by
  unfold readByteBody
  split <;> exact h

theorem readBytesBody_noLostWakeup (h : l.chan.NoLostWakeup) (n : Half) :
    (readBytesBody n l).1.chan.NoLostWakeup := by
  unfold readBytesBody
  split <;> exact h

theorem tsReadBody_noLostWakeup (h : l.chan.NoLostWakeup) (hok : l.chan.ts.Ok) :
    (tsReadBody l).1.chan.NoLostWakeup := by
  rcases tsReadBody_chan hok with he | ⟨r, -, he⟩ <;> rw [he] <;> exact h

theorem txPump_noLostWakeup (h : l.chan.NoLostWakeup) (hok : l.chan.tx.Ok) :
    (txPump l).chan.NoLostWakeup := by
  rw [txPump_eq hok]
  exact h.transmitted hok

/-- Receiving leaves the transmit side alone (R144 to R147). -/
theorem rxPump_noLostWakeup (h : l.chan.NoLostWakeup) (hok : l.chan.RingsOk) :
    (rxPump l).chan.NoLostWakeup := by
  have htx : (rxPump l).chan.tx = l.chan.tx := by
    rw [rxPump_eq hok.rx]
    exact (Channel.received_receivesOne hok.rx hok.ts _ _).tx
  exact h.of_same htx (rxPump_keepsArming l).armed

theorem dispatchReady_noLostWakeup (h : l.chan.NoLostWakeup) (hok : l.chan.RingsOk) :
    (dispatchReady l).chan.NoLostWakeup := by
  have h1 : l.readStatusFlags.2.chan.NoLostWakeup := h
  have hok1 : l.readStatusFlags.2.chan.RingsOk := hok
  have htx := txPump_noLostWakeup h1 hok1.tx
  rcases dispatchReady_cases l with (he | he) | he | he <;> rw [he]
  · exact h1
  · exact htx
  · exact rxPump_noLostWakeup h1 hok1
  · exact rxPump_noLostWakeup htx (txPump_ringsOk hok1)

/-- Every operation of the ports keeps its channel from a lost wake-up. -/
theorem laneOp_noLostWakeup {i : Instr} (hreq : i.requestable = true) (f : Word)
    (hok : l.chan.RingsOk) (h : l.chan.NoLostWakeup) : (laneOp f i l).1.chan.NoLostWakeup := by
  have hsends (v : List Byte) := sendBytesBody_noLostWakeup h hok.tx v
  cases i with
  | init ch o => exact (initBody_initStep o f l).noLostWakeup h
  | sendByte ch b => exact whenReady_noLostWakeup h (by rw [sendByteBody_eq hok.tx]; exact hsends [b])
  | sendBytes ch v => exact whenReady_noLostWakeup h (hsends v)
  | available ch => exact whenReady_noLostWakeup (body := availableBody) h h
  | readByte ch => exact whenReady_noLostWakeup h (readByteBody_noLostWakeup h)
  | readBytes ch n => exact whenReady_noLostWakeup h (readBytesBody_noLostWakeup h n)
  | tsAvailable ch => exact whenReady_noLostWakeup (body := tsAvailableBody) h h
  | tsAvailableAll => exact h
  | tsRead ch => exact whenReady_noLostWakeup h (tsReadBody_noLostWakeup h hok.ts)
  | status ch => exact h
  | dispatch id =>
    rw [laneOp]
    dsimp only
    split
    · exact dispatchReady_noLostWakeup h hok
    · exact h
  | _ => nomatch hreq

end lane

/-- Settles O54: what each operation of the ports keeps on its lane, every step keeps on every
channel. -/
theorem noLostWakeupIsKept : Obligations.NoLostWakeupIsKept := by
  intro s t ⟨_, _, hrings⟩ hinv h d hd
  have hlane (i : Instr) (hreq : i.requestable = true) (l : Lane)
      (hl : l.chan.RingsOk ∧ l.chan.NoLostWakeup) :
      (laneOp s.fClk i l).1.chan.RingsOk ∧ (laneOp s.fClk i l).1.chan.NoLostWakeup := by
    obtain ⟨hok, hwake⟩ := hl
    exact ⟨laneOp_ringsOk s.fClk i hok, laneOp_noLostWakeup hreq s.fClk hok hwake⟩
  have hstart : ∀ c ∈ s.ch, c.RingsOk ∧ c.NoLostWakeup := fun c hc => ⟨hrings c hc, hinv c hc⟩
  obtain ⟨-, hwake⟩ := step_keeps_channels hlane h hstart d hd
  exact hwake

end Sys2Proof.Machine

/-!
SUPPORT and statement settled: how a command ends (R92, R200, R201, R203). A body answers OK, or raises and
leaves its lane alone; a failed `INIT` is the one command that raises after a driver call.
-/

namespace Sys2Proof.Machine

/-! ### The bodies of the commands -/

/-- The body answers OK, or raises an error that responses carry (R203) with its lane left as it was
(R201). -/
def Lane.AnswersOrRaises (l : Lane) (result : Lane × Reply) : Prop :=
  result.2.code = .ok ∨ ∃ e, e ≠ .overflow ∧ result = (l, .raise e)

section bodies
variable (l : Lane)

theorem Lane.answersOrRaises_raise {e : Code} (he : e ≠ .overflow) :
    l.AnswersOrRaises (l, .raise e) := .inr ⟨e, he, rfl⟩

theorem whenReady_answersOrRaises {body : Lane → Lane × Reply} (h : l.AnswersOrRaises (body l)) :
    l.AnswersOrRaises (whenReady body l) := by
  rcases whenReady_cases body l with he | he <;> rw [he]
  · exact h
  · exact l.answersOrRaises_raise nofun

theorem sendByteBody_answersOrRaises (b : Byte) : l.AnswersOrRaises (sendByteBody b l) := by
  unfold sendByteBody
  split
  · exact .inl rfl
  · exact l.answersOrRaises_raise nofun

theorem sendBytesBody_answersOrRaises (v : List Byte) : l.AnswersOrRaises (sendBytesBody v l) := by
  unfold sendBytesBody
  split
  · exact .inl rfl
  · exact l.answersOrRaises_raise nofun

theorem readByteBody_answersOrRaises : l.AnswersOrRaises (readByteBody l) := by
  unfold readByteBody
  split
  · exact .inl rfl
  · exact l.answersOrRaises_raise nofun

theorem readBytesBody_answersOrRaises (n : Half) : l.AnswersOrRaises (readBytesBody n l) := by
  unfold readBytesBody
  split
  · exact .inl rfl
  · exact l.answersOrRaises_raise nofun

theorem tsReadRecord_answersOrRaises (rec : TimestampRecord) :
    l.AnswersOrRaises (tsReadRecord rec l) := by
  unfold tsReadRecord
  split
  · exact .inl rfl
  · exact l.answersOrRaises_raise nofun

theorem tsReadBody_answersOrRaises : l.AnswersOrRaises (tsReadBody l) := by
  unfold tsReadBody
  split
  · split
    · exact tsReadRecord_answersOrRaises l _
    · exact l.answersOrRaises_raise nofun
  · exact l.answersOrRaises_raise nofun

/-- Every command but `INIT` that names a channel answers from its lane, or raises and leaves it. -/
theorem laneOp_answersOrRaises {i : Instr} {ch : Byte} (hcmd : i.isCommand = true)
    (hch : i.channel = some ch) (hinit : ∀ ch o, i ≠ .init ch o) (f : Word) :
    ∃ result, laneOp f i l = (result.1, some result.2, none) ∧ l.AnswersOrRaises result := by
  cases i with
  | init ch o => exact absurd rfl (hinit ch o)
  | sendByte ch b => exact ⟨_, rfl, whenReady_answersOrRaises l (sendByteBody_answersOrRaises l b)⟩
  | sendBytes ch v => exact ⟨_, rfl, whenReady_answersOrRaises l (sendBytesBody_answersOrRaises l v)⟩
  | available ch =>
    exact ⟨_, rfl, whenReady_answersOrRaises l (body := availableBody) (.inl rfl)⟩
  | readByte ch => exact ⟨_, rfl, whenReady_answersOrRaises l (readByteBody_answersOrRaises l)⟩
  | readBytes ch n => exact ⟨_, rfl, whenReady_answersOrRaises l (readBytesBody_answersOrRaises l n)⟩
  | tsAvailable ch =>
    exact ⟨_, rfl, whenReady_answersOrRaises l (body := tsAvailableBody) (.inl rfl)⟩
  | tsAvailableAll => nomatch hch
  | tsRead ch => exact ⟨_, rfl, whenReady_answersOrRaises l (tsReadBody_answersOrRaises l)⟩
  | status ch => exact ⟨statusBody l, rfl, .inl rfl⟩
  | _ => nomatch hcmd

end bodies

/-! ### The three ways a command ends -/

/-- The state a failed `INIT` leaves before it responds: `status` written, `configure` called and its
answer drawn (R130, R201). -/
def State.failedInit (s : State) (ch : Byte) (o : InitOptions) (c : Channel) (st : Lifecycle)
    (res : CfgResult) : State :=
  (s.withDraws ch.toNat ((s.drawsAt ch.toNat).tookConfigure ch.toNat)).updated ch.toNat
    { c with status := st } [.configure o.baud o.charLength o.parity o.stopBits s.fClk res]

/-- How a command ends, with its channel echoed: it answers OK after work that adds no response itself,
it raises with nothing changed, or it is an `INIT` whose `configure` failed (R201). -/
inductive CommandEnds (s : State) (i : Instr) : Prop
  | answers (t : State) (r : Reply) (hok : r.code = .ok)
      (hexec : exec i s = .next (t.respond (i.channel.getD 0) r)) (hresp : t.responses = s.responses)
  | raises (e : Code) (he : e ≠ .overflow)
      (hexec : exec i s = .next (s.respond (i.channel.getD 0) (.raise e)))
  | initFails (ch : Byte) (o : InitOptions) (c : Channel) (st : Lifecycle) (res : CfgResult)
      (hi : i = .init ch o) (hc : s.ch[ch.toNat]? = some c) (hres : res ≠ .ok)
      (hst : st = .initError ∨ st = .fault)
      (hexec : exec i s = .next ((s.failedInit ch o c st res).respond ch (.raise .initError)))

section commands
variable {s : State} {i : Instr} {ch : Byte} {c : Channel}

/-- `INIT` on a channel of the table, from its success and its failures (R130, R134). -/
theorem commandEnds_init (hc : s.ch[ch.toNat]? = some c) (o : InitOptions) :
    CommandEnds s (.init ch o) := by
  obtain ⟨hclosed, hfails⟩ := initFails s ch o c hc
  rcases c.startable_or_closed with hs | hcl
  · by_cases hres : s.nextConfigure ch.toNat = .ok
    · exact .answers _ (.done 0 []) rfl (initSucceeds s ch o c hc hs hres) rfl
    · refine .initFails ch o c _ _ rfl hc hres ?_ (hfails hs _ rfl hres)
      split
      · exact .inl rfl
      · exact .inr rfl
  · exact .raises .initError nofun (hclosed hcl)

/-- Any other command on a channel of the table ends as its body does. -/
theorem commandEnds_of_channel (hcmd : i.isCommand = true) (hch : i.channel = some ch)
    (hinit : ∀ ch o, i ≠ .init ch o) (hc : s.ch[ch.toNat]? = some c) : CommandEnds s i := by
  have hecho : i.channel.getD 0 = ch := by rw [hch]; rfl
  obtain ⟨⟨l, r⟩, hop, hbody⟩ := laneOp_answersOrRaises (s.laneOf ch c) hcmd hch hinit s.fClk
  have hexec : exec i s = .next ((s.commit l).respond (i.channel.getD 0) r) := by
    rw [exec_of_channel hch hc, hop, State.finish_answering, hecho]
  rcases hbody with hok | ⟨e, he, hsame⟩
  · exact .answers _ r hok hexec rfl
  · cases hsame
    rw [State.commit_self hc] at hexec
    exact .raises e he hexec

/-- Every command of the port ends in one of the three ways, its channel in the table or not (R95, R201). -/
theorem commandEnds (hcmd : i.isCommand = true) : CommandEnds s i := by
  cases hch : i.channel with
  | none =>
    cases i with
    | tsAvailableAll => exact .answers s (.done _ _) rfl rfl rfl
    | _ => nomatch hch
  | some ch =>
    rcases s.lane_cases ch.toNat with ⟨-, hlen, -⟩ | ⟨c, hc, -, -⟩
    · refine .raises .illegalCommand nofun ?_
      rw [exec_of_absent hch hlen, if_pos hcmd, hch]
      rfl
    · by_cases hinit : ∃ ch o, i = .init ch o
      · obtain ⟨ch', o, rfl⟩ := hinit
        obtain rfl := Option.some.inj hch
        exact commandEnds_init hc o
      · exact commandEnds_of_channel hcmd hch (fun ch o h => hinit ⟨ch, o, h⟩) hc

end commands

/-! ### The words of a response -/

/-- A response's header has the layout of a command's (R92). -/
theorem responseHeader_eq (r : Response) :
    responseHeader r = headerWord (codeByte r.code) r.ch r.value := rfl

/-- Settles O48: by the three ways a command ends, and by the fields of a header word. -/
theorem errorsChangeNothing : Obligations.ErrorsChangeNothing := by
  refine ⟨fun s i hcmd => ?_, fun r => ⟨responseHeader r, rfl, ?_, ?_, ?_⟩⟩
  · cases commandEnds (s := s) hcmd with
    | answers t r hok hexec hresp =>
      refine ⟨_, _, hexec, congrArg (· ++ _) hresp, rfl, ?_, fun herr => absurd hok herr⟩
      exact fun hover => nomatch hok.symm.trans hover
    | raises e he hexec =>
      exact ⟨_, _, hexec, rfl, rfl, he, fun _ => ⟨rfl, rfl, fun _ => rfl, fun _ _ _ => .inl rfl⟩⟩
    | initFails ch o c st res hi hc hres hst hexec =>
      subst hi
      refine ⟨_, _, hexec, rfl, rfl, nofun, fun _ => ⟨rfl, rfl, fun hinit => ?_, fun ch' o' heq => ?_⟩⟩
      · exact absurd rfl (hinit ch o)
      · cases heq
        exact .inr ⟨c, st, res, hc, hres, hst, rfl⟩
  · have hop := headerOp_headerWord (codeByte r.code) r.ch r.value
    rw [← responseHeader_eq] at hop
    refine hop.trans ?_
    cases r.code <;> rfl
  · exact headerCh_headerWord (codeByte r.code) r.ch r.value
  · exact headerArg_headerWord (codeByte r.code) r.ch r.value

end Sys2Proof.Machine
